-- ==== Sys2Proof/Word.lean ====
section
/-! DEFINITION. The data types the other files share: a byte, the error kinds, a code tree, and the block-decoder state.
Rules cited are the numbered rules R<n> of spec/. -/

namespace Sys2Proof

/-- A byte: the unit of `SRC`, `WIN` and `OUT` (R66). -/
abbrev Byte := BitVec 8

/-- The six error kinds (R331), one constructor per row of its table; code 0, `None`, is `Option.none` in the register `ERR`. -/
inductive ErrorKind
  | invalidBlockType            -- 1 (R332)
  | nonMatchingLengthFields     -- 2 (R333)
  | invalidHuffmanCodes         -- 3 (R334)
  | invalidLiteralLengthSymbol  -- 4 (R336)
  | windowUnderflow             -- 5 (R337)
  | unexpectedEndOfInput        -- 6 (R338)
  deriving DecidableEq, Repr, Inhabited

/-- A code tree (R33): each internal node has exactly two children, for bit 0 and bit 1, each leaf holds one symbol. -/
inductive Tree
  | leaf (sym : Nat)
  | node (zero one : Tree)
  deriving DecidableEq, Repr, Inhabited

/-- The register `STATE` with its payload (R21 to R24): one variant active at a time. -/
inductive BlockState
  /-- No block is active; the next decoder step parses a block header (R21). -/
  | header
  /-- Payload of R22: `REMAINING` and `IS_FINAL`. -/
  | uncompressed (remaining : Nat) (isFinal : Bool)
  /-- Payload of R23. `pendingDist` is `none` where `PENDING_LEN = 0`: there it is "without meaning" (R23, entry 18). -/
  | huffman (litlenTree distTree : Tree) (pendingLen : Nat) (pendingDist : Option Nat) (isFinal : Bool)
  /-- The stream has ended; absorbing (R24). -/
  | complete
  deriving DecidableEq, Repr, Inhabited

end Sys2Proof
end

