-- ==== Sys2Proof/Config.lean ====
section
/-! DEFINITION. What the hardware fixes (R7, R38), the named parameters a model takes (R8), and the free values. -/

namespace Sys2Proof

/-- How a code table with one code is built (D8, R154). `reject` is the default. -/
inductive SingleCodePolicy
  | reject | zeroBitLeaf
  deriving DecidableEq, Repr, Inhabited

/-- What code-length symbols 17 and 18 leave in `PREV` (D12, R185). `fault` is the default. -/
inductive Rep16Policy
  | fault | keepLiteral | zero
  deriving DecidableEq, Repr, Inhabited

/-- The named parameters with more than one value (R8); `DIST_30_31_POLICY` has the one value `Fault` (D10). -/
structure Params where
  singleCode : SingleCodePolicy
  rep16      : Rep16Policy
  deriving DecidableEq, Repr, Inhabited

namespace Config

/-- "A model may fix every one at its default" (R8). -/
def defaultParams : Params := ⟨.reject, .fault⟩

/-- Window capacity in bytes (R7). -/
abbrev cap : Nat := 32768

/-- Largest `n` of `MAKE_AVAILABLE(n)` (R7). -/
abbrev maxReq : Nat := cap

/-- Largest length of a literal/length or distance code (R7): "DEFLATE's maximum code length is 15 bits". -/
abbrev maxBits : Nat := 15

/-- Largest length of a code-length code, a 3-bit field (R7, R181). -/
abbrev maxBitsCl : Nat := 7

/-- Most bits one `read_bits` call returns (R7, R130, R132). -/
abbrev fieldMax : Nat := 32

/-- Alphabet sizes (R7). -/
abbrev nLitlen : Nat := 288
abbrev nDist : Nat := 32
abbrev nCl : Nat := 19

/-- `CL_ORDER`, the fixed de-interleaving order (R95). -/
def clOrder : List Nat := [16, 17, 18, 0, 8, 7, 9, 6, 10, 5, 11, 4, 12, 3, 13, 2, 14, 1, 15]

/-- Fixed code lengths of a block with BTYPE 1 (R99). -/
def fixedLitlenLengths : List Nat :=
  List.replicate 144 8 ++ List.replicate 112 9 ++ List.replicate 24 7 ++ List.replicate 8 8
def fixedDistLengths : List Nat := List.replicate 32 5

/-- `LENGTH_BASE` and `LENGTH_EXTRA`, indexed by `sym - 257` (R110). PRESUMED: the spec itself marks the values as general
knowledge (entry 10). -/
def lengthBase : List Nat :=
  [3, 4, 5, 6, 7, 8, 9, 10, 11, 13, 15, 17, 19, 23, 27] ++ [31, 35, 43, 51, 59, 67, 83, 99, 115, 131, 163, 195, 227, 258]
def lengthExtra : List Nat :=
  [0, 0, 0, 0, 0, 0, 0, 0, 1, 1, 1, 1, 2, 2, 2] ++ [2, 3, 3, 3, 3, 4, 4, 4, 4, 5, 5, 5, 5, 0]

/-- `DIST_BASE` and `DIST_EXTRA`, indexed by the distance symbol (R112). PRESUMED for 0 to 29 (entry 10). -/
def distBase : List Nat :=
  [1, 2, 3, 4, 5, 7, 9, 13, 17, 25, 33, 49, 65, 97, 129, 193] ++
  [257, 385, 513, 769, 1025, 1537, 2049, 3073, 4097, 6145, 8193, 12289, 16385, 24577, 0, 0]
def distExtra : List Nat :=
  [0, 0, 0, 0, 1, 1, 2, 2, 3, 3, 4, 4, 5, 5, 6, 6] ++ [7, 7, 8, 8, 9, 9, 10, 10, 11, 11, 12, 12, 13, 13, 0, 0]

/-- FREE VALUE: `STATE` with its payload after an error (R335, D23; entry 6). No body: nothing is known of it. -/
opaque freeBlockState : Nat → BlockState

/-- FREE VALUE: `bitpos` after an error (R335, D23; entry 6). -/
opaque freeBitpos : Nat → Nat

end Config
end Sys2Proof
end

