-- ==== Sys2Proof/Syntax.lean ====
section
/-! DEFINITION. The instructions: one constructor per row of spec/opcode_table.json (R120), a stream element with every
field its encoding has (R91 to R112) or a host command with its operand (R116). Extra fields are the unbiased values read by
`read_bits` (R115). -/

namespace Sys2Proof

/-- The five spaces a row of the table is matched in (R120). -/
inductive Format
  | blkhdr | clsym | litlen | dist | hostcmd
  deriving DecidableEq, Repr, Inhabited

inductive Instr
  /-- `BLK_STORED` (R177): BFINAL, then, after the padding, LEN and NLEN (R93). -/
  | blkStored (final : Bool) (len nlen : BitVec 16)
  /-- `BLK_FIXED` (R178). -/
  | blkFixed (final : Bool)
  /-- `BLK_DYNAMIC` (R180): the HLIT and HDIST fields (5 bits each, unbiased) and the CLLEN values in stream order, whose number
  is HCLEN (R94). -/
  | blkDynamic (final : Bool) (hlitField hdistField : Nat) (clLens : List Nat)
  /-- `BLK_RESERVED` (R179). -/
  | blkReserved (final : Bool)
  /-- `CL_LEN` (R184): code-length symbols 0 to 15. -/
  | clLen (len : Nat)
  /-- `CL_REP16` (R185): 2 extra bits. -/
  | clRep16 (extra : Nat)
  /-- `CL_ZERO17` (R186): 3 extra bits. -/
  | clZero17 (extra : Nat)
  /-- `CL_ZERO18` (R187): 7 extra bits. -/
  | clZero18 (extra : Nat)
  /-- `LITERAL` (R205): literal/length symbols 0 to 255. -/
  | literal (b : Byte)
  /-- `EOB` (R206): literal/length symbol 256. -/
  | eob
  /-- `LEN_257` (R208): base 3, 0 extra bits. -/
  | len257
  /-- `LEN_258` (R209): base 4, 0 extra bits. -/
  | len258
  /-- `LEN_259` (R210): base 5, 0 extra bits. -/
  | len259
  /-- `LEN_260` (R211): base 6, 0 extra bits. -/
  | len260
  /-- `LEN_261` (R212): base 7, 0 extra bits. -/
  | len261
  /-- `LEN_262` (R213): base 8, 0 extra bits. -/
  | len262
  /-- `LEN_263` (R214): base 9, 0 extra bits. -/
  | len263
  /-- `LEN_264` (R215): base 10, 0 extra bits. -/
  | len264
  /-- `LEN_265` (R216): base 11, 1 extra bits. -/
  | len265 (extra : Nat)
  /-- `LEN_266` (R217): base 13, 1 extra bits. -/
  | len266 (extra : Nat)
  /-- `LEN_267` (R218): base 15, 1 extra bits. -/
  | len267 (extra : Nat)
  /-- `LEN_268` (R219): base 17, 1 extra bits. -/
  | len268 (extra : Nat)
  /-- `LEN_269` (R220): base 19, 2 extra bits. -/
  | len269 (extra : Nat)
  /-- `LEN_270` (R221): base 23, 2 extra bits. -/
  | len270 (extra : Nat)
  /-- `LEN_271` (R222): base 27, 2 extra bits. -/
  | len271 (extra : Nat)
  /-- `LEN_272` (R223): base 31, 2 extra bits. -/
  | len272 (extra : Nat)
  /-- `LEN_273` (R224): base 35, 3 extra bits. -/
  | len273 (extra : Nat)
  /-- `LEN_274` (R225): base 43, 3 extra bits. -/
  | len274 (extra : Nat)
  /-- `LEN_275` (R226): base 51, 3 extra bits. -/
  | len275 (extra : Nat)
  /-- `LEN_276` (R227): base 59, 3 extra bits. -/
  | len276 (extra : Nat)
  /-- `LEN_277` (R228): base 67, 4 extra bits. -/
  | len277 (extra : Nat)
  /-- `LEN_278` (R229): base 83, 4 extra bits. -/
  | len278 (extra : Nat)
  /-- `LEN_279` (R230): base 99, 4 extra bits. -/
  | len279 (extra : Nat)
  /-- `LEN_280` (R231): base 115, 4 extra bits. -/
  | len280 (extra : Nat)
  /-- `LEN_281` (R232): base 131, 5 extra bits. -/
  | len281 (extra : Nat)
  /-- `LEN_282` (R233): base 163, 5 extra bits. -/
  | len282 (extra : Nat)
  /-- `LEN_283` (R234): base 195, 5 extra bits. -/
  | len283 (extra : Nat)
  /-- `LEN_284` (R235): base 227, 5 extra bits. -/
  | len284 (extra : Nat)
  /-- `LEN_285` (R236): base 258, 0 extra bits. -/
  | len285
  /-- `LL_INVALID_286` (R237). -/
  | llInvalid286
  /-- `LL_INVALID_287` (R238). -/
  | llInvalid287
  /-- `DIST_0` (R251): base 1, 0 extra bits. -/
  | dist0
  /-- `DIST_1` (R252): base 2, 0 extra bits. -/
  | dist1
  /-- `DIST_2` (R253): base 3, 0 extra bits. -/
  | dist2
  /-- `DIST_3` (R254): base 4, 0 extra bits. -/
  | dist3
  /-- `DIST_4` (R255): base 5, 1 extra bits. -/
  | dist4 (extra : Nat)
  /-- `DIST_5` (R256): base 7, 1 extra bits. -/
  | dist5 (extra : Nat)
  /-- `DIST_6` (R257): base 9, 2 extra bits. -/
  | dist6 (extra : Nat)
  /-- `DIST_7` (R258): base 13, 2 extra bits. -/
  | dist7 (extra : Nat)
  /-- `DIST_8` (R259): base 17, 3 extra bits. -/
  | dist8 (extra : Nat)
  /-- `DIST_9` (R260): base 25, 3 extra bits. -/
  | dist9 (extra : Nat)
  /-- `DIST_10` (R261): base 33, 4 extra bits. -/
  | dist10 (extra : Nat)
  /-- `DIST_11` (R262): base 49, 4 extra bits. -/
  | dist11 (extra : Nat)
  /-- `DIST_12` (R263): base 65, 5 extra bits. -/
  | dist12 (extra : Nat)
  /-- `DIST_13` (R264): base 97, 5 extra bits. -/
  | dist13 (extra : Nat)
  /-- `DIST_14` (R265): base 129, 6 extra bits. -/
  | dist14 (extra : Nat)
  /-- `DIST_15` (R266): base 193, 6 extra bits. -/
  | dist15 (extra : Nat)
  /-- `DIST_16` (R267): base 257, 7 extra bits. -/
  | dist16 (extra : Nat)
  /-- `DIST_17` (R268): base 385, 7 extra bits. -/
  | dist17 (extra : Nat)
  /-- `DIST_18` (R269): base 513, 8 extra bits. -/
  | dist18 (extra : Nat)
  /-- `DIST_19` (R270): base 769, 8 extra bits. -/
  | dist19 (extra : Nat)
  /-- `DIST_20` (R271): base 1025, 9 extra bits. -/
  | dist20 (extra : Nat)
  /-- `DIST_21` (R272): base 1537, 9 extra bits. -/
  | dist21 (extra : Nat)
  /-- `DIST_22` (R273): base 2049, 10 extra bits. -/
  | dist22 (extra : Nat)
  /-- `DIST_23` (R274): base 3073, 10 extra bits. -/
  | dist23 (extra : Nat)
  /-- `DIST_24` (R275): base 4097, 11 extra bits. -/
  | dist24 (extra : Nat)
  /-- `DIST_25` (R276): base 6145, 11 extra bits. -/
  | dist25 (extra : Nat)
  /-- `DIST_26` (R277): base 8193, 12 extra bits. -/
  | dist26 (extra : Nat)
  /-- `DIST_27` (R278): base 12289, 12 extra bits. -/
  | dist27 (extra : Nat)
  /-- `DIST_28` (R279): base 16385, 13 extra bits. -/
  | dist28 (extra : Nat)
  /-- `DIST_29` (R280): base 24577, 13 extra bits. -/
  | dist29 (extra : Nat)
  /-- `DIST_INVALID_30` (R281). -/
  | distInvalid30
  /-- `DIST_INVALID_31` (R282). -/
  | distInvalid31
  /-- `MAKE_AVAILABLE(n)` (R301). -/
  | makeAvailable (n : Nat)
  /-- `COPY_OUT(k)` (R304). -/
  | copyOut (k : Nat)
  /-- `READ(m)` (R305). -/
  | read (m : Nat)
  /-- `RESET` (R307). -/
  | reset
  deriving DecidableEq, Repr, Inhabited

/-- A host command as the host issues it: the 2-bit code of R116 and the operand. -/
structure CmdWord where
  code    : BitVec 2
  operand : Nat
  deriving DecidableEq, Repr, Inhabited

end Sys2Proof
end

