-- ==== Sys2Proof/WellFormed.lean ====
section
/-! DEFINITION. Well-formed instructions: every field at a value its encoding admits (R94, R96, R110, R112, R116). -/

namespace Sys2Proof

/-- The width each operand has in the encoding. `wf` is a Bool so that it runs. -/
def Instr.wf (i : Instr) : Bool :=
  match i with
  | .blkStored _ _ _ => true
  | .blkFixed _ => true
  | .blkDynamic _ hlit hdist cls =>
      decide (hlit < 2 ^ 5) && decide (hdist < 2 ^ 5) && decide (4 ≤ cls.length) && decide (cls.length ≤ 19) &&
        cls.all (fun v => decide (v < 2 ^ 3))
  | .blkReserved _ => true
  | .clLen v => decide (v < 16)
  | .clRep16 e => decide (e < 2 ^ 2)
  | .clZero17 e => decide (e < 2 ^ 3)
  | .clZero18 e => decide (e < 2 ^ 7)
  | .literal _ => true
  | .eob => true
  | .len257 => true
  | .len258 => true
  | .len259 => true
  | .len260 => true
  | .len261 => true
  | .len262 => true
  | .len263 => true
  | .len264 => true
  | .len265 e => decide (e < 2 ^ 1)
  | .len266 e => decide (e < 2 ^ 1)
  | .len267 e => decide (e < 2 ^ 1)
  | .len268 e => decide (e < 2 ^ 1)
  | .len269 e => decide (e < 2 ^ 2)
  | .len270 e => decide (e < 2 ^ 2)
  | .len271 e => decide (e < 2 ^ 2)
  | .len272 e => decide (e < 2 ^ 2)
  | .len273 e => decide (e < 2 ^ 3)
  | .len274 e => decide (e < 2 ^ 3)
  | .len275 e => decide (e < 2 ^ 3)
  | .len276 e => decide (e < 2 ^ 3)
  | .len277 e => decide (e < 2 ^ 4)
  | .len278 e => decide (e < 2 ^ 4)
  | .len279 e => decide (e < 2 ^ 4)
  | .len280 e => decide (e < 2 ^ 4)
  | .len281 e => decide (e < 2 ^ 5)
  | .len282 e => decide (e < 2 ^ 5)
  | .len283 e => decide (e < 2 ^ 5)
  | .len284 e => decide (e < 2 ^ 5)
  | .len285 => true
  | .llInvalid286 => true
  | .llInvalid287 => true
  | .dist0 => true
  | .dist1 => true
  | .dist2 => true
  | .dist3 => true
  | .dist4 e => decide (e < 2 ^ 1)
  | .dist5 e => decide (e < 2 ^ 1)
  | .dist6 e => decide (e < 2 ^ 2)
  | .dist7 e => decide (e < 2 ^ 2)
  | .dist8 e => decide (e < 2 ^ 3)
  | .dist9 e => decide (e < 2 ^ 3)
  | .dist10 e => decide (e < 2 ^ 4)
  | .dist11 e => decide (e < 2 ^ 4)
  | .dist12 e => decide (e < 2 ^ 5)
  | .dist13 e => decide (e < 2 ^ 5)
  | .dist14 e => decide (e < 2 ^ 6)
  | .dist15 e => decide (e < 2 ^ 6)
  | .dist16 e => decide (e < 2 ^ 7)
  | .dist17 e => decide (e < 2 ^ 7)
  | .dist18 e => decide (e < 2 ^ 8)
  | .dist19 e => decide (e < 2 ^ 8)
  | .dist20 e => decide (e < 2 ^ 9)
  | .dist21 e => decide (e < 2 ^ 9)
  | .dist22 e => decide (e < 2 ^ 10)
  | .dist23 e => decide (e < 2 ^ 10)
  | .dist24 e => decide (e < 2 ^ 11)
  | .dist25 e => decide (e < 2 ^ 11)
  | .dist26 e => decide (e < 2 ^ 12)
  | .dist27 e => decide (e < 2 ^ 12)
  | .dist28 e => decide (e < 2 ^ 13)
  | .dist29 e => decide (e < 2 ^ 13)
  | .distInvalid30 => true
  | .distInvalid31 => true
  | .makeAvailable n => decide (n < 2 ^ 16)
  | .copyOut k => decide (k < 2 ^ 16)
  | .read _ => true
  | .reset => true

/-- The check as a proposition. -/
abbrev Instr.WellFormed (i : Instr) : Prop := i.wf = true

end Sys2Proof
end

