-- ==== Sys2Proof/Machine/Operands.lean ====
section
/-! DEFINITION. The BitChannel read primitives (R130 to R137) over a cursor, and the biased immediates (R115). A primitive
answers `none` where it meets the end of the bits present: that is the hold of R131 or, once the source has ended, the error
`UnexpectedEndOfInput`; which of the two is decided where the element is fetched (Machine/Engine.lean). -/

namespace Sys2Proof

/-- Where reading stands: the bits consumed since reset (`bitpos`, R25) and the bits present from there on, in stream order. -/
structure Cursor where
  pos  : Nat
  bits : List Bool
  deriving DecidableEq, Repr, Inhabited

/-- The bits of a byte in the order they are consumed: least significant first (R61). -/
def byteBits (b : Byte) : List Bool :=
  [b.getLsbD 0, b.getLsbD 1, b.getLsbD 2, b.getLsbD 3, b.getLsbD 4, b.getLsbD 5, b.getLsbD 6, b.getLsbD 7]

/-- `read_bit()` (R131). -/
def readBit (c : Cursor) : Option (Bool × Cursor) :=
  match c.bits with
  | [] => none
  | b :: rest => some (b, ⟨c.pos + 1, rest⟩)

/-- The loop of `read_bits` (R132): the first bit read is bit 0 of the value. -/
def takeBits (k : Nat) (c : Cursor) : Option (Nat × Cursor) :=
  match k with
  | 0 => some (0, c)
  | k + 1 =>
    match readBit c with
    | none => none
    | some (b, c1) =>
      match takeBits k c1 with
      | none => none
      | some (v, c2) => some (b.toNat + 2 * v, c2)

/-- `read_bits(k)`, `0 <= k <= 32` (R132, R130, `FIELD_MAX` of R7). DESIGN CHOICE (entry 26): with more than `FIELD_MAX` bits asked
for, where the primitive is not defined, there is no value; no field of the stream comes near it. -/
def readBits (k : Nat) (c : Cursor) : Option (Nat × Cursor) := if k ≤ Config.fieldMax then takeBits k c else none

/-- The bits `align()` skips at position `pos` (R133, R114). -/
def padCount (pos : Nat) : Nat := (8 - pos % 8) % 8

/-- `align()` (R133): it looks at no bit, never holds and never raises. -/
def align (c : Cursor) : Cursor := ⟨(c.pos + 7) / 8 * 8, c.bits.drop (padCount c.pos)⟩

/-- `read_byte()` (R135), at an aligned position. -/
def readByte (c : Cursor) : Option (Byte × Cursor) :=
  match readBits 8 c with
  | none => none
  | some (v, c1) => some (BitVec.ofNat 8 v, c1)

/-- `read_u16le()` (R134): the first byte is bits 7:0. -/
def readU16le (c : Cursor) : Option (BitVec 16 × Cursor) :=
  match readByte c with
  | none => none
  | some (lo, c1) =>
    match readByte c1 with
    | none => none
    | some (hi, c2) => some (hi ++ lo, c2)

/-- `n` fields of `k` bits, one after the other (the CLLEN values of R94). -/
def readFields (k : Nat) : Nat → Cursor → Option (List Nat × Cursor)
  | 0, c => some ([], c)
  | n + 1, c =>
    match readBits k c with
    | none => none
    | some (v, c1) =>
      match readFields k n c1 with
      | none => none
      | some (vs, c2) => some (v :: vs, c2)

/-- `decode(T)` (R155): one bit per level, bit 0 to the left, until a leaf. -/
def decodeSym : Tree → Cursor → Option (Nat × Cursor)
  | .leaf sym, c => some (sym, c)
  | .node zero one, c =>
    match c.bits with
    | [] => none
    | b :: rest => if b then decodeSym one ⟨c.pos + 1, rest⟩ else decodeSym zero ⟨c.pos + 1, rest⟩

/-- Immediates (R115). -/
def hlitOf (field : Nat) : Nat := field + 257
def hdistOf (field : Nat) : Nat := field + 1
def hclenOf (field : Nat) : Nat := field + 4
def rep16Of (extra : Nat) : Nat := extra + 3
def zero17Of (extra : Nat) : Nat := extra + 3
def zero18Of (extra : Nat) : Nat := extra + 11
def lenOf (idx extra : Nat) : Nat := Config.lengthBase.getD idx 0 + extra
def distOf (ds extra : Nat) : Nat := Config.distBase.getD ds 0 + extra

/-- Extra-bit counts (R110, R112); a literal/length symbol that is no length code has none. -/
def lengthExtraOf (sym : Nat) : Nat := if sym < 257 then 0 else Config.lengthExtra.getD (sym - 257) 0
def distExtraOf (ds : Nat) : Nat := Config.distExtra.getD ds 0

end Sys2Proof
end

