-- ==== Sys2Proof/Decode.lean ====
section
/-! DEFINITION. Decoding a stream element or a host command, and the encoder.
Decoding a stream element has the two stages the spec gives it (R120): for a symbol format the tree walk returns a symbol, the
symbol selects the row; then the row's extra field is read. -/

namespace Sys2Proof

/-- What the decoder is reading (R114: the element's format is fixed by what was read before it). `clsym` carries `PREV`, because
symbol 16 is refused before its extra bits are read where `PREV = none` (R185, entry 13). -/
inductive Ctx
  | header
  | clsym (t : Tree) (prev : Option Nat)
  | litlen (t : Tree)
  | dist (t : Tree)
  deriving DecidableEq, Repr, Inhabited

/-- What decoding answers: the element and where reading then stands; or, by name, why there is none. -/
inductive Decoded
  | instr (i : Instr) (c : Cursor)
  /-- The bits present end inside the element (R131). -/
  | short
  /-- The tree walk returned a symbol outside the alphabet (R188), and reading then stands behind it; no built tree has such a
  leaf. -/
  | noRow (sym : Nat) (c : Cursor)
  deriving DecidableEq, Repr, Inhabited

/-- The rows `LEN_257` to `LEN_285`, by `sym - 257`; the argument is the extra field. -/
def lenRowsLow : List (Nat → Instr) :=
  [fun _ => Instr.len257, fun _ => Instr.len258, fun _ => Instr.len259, fun _ => Instr.len260,
   fun _ => Instr.len261, fun _ => Instr.len262, fun _ => Instr.len263, fun _ => Instr.len264,
   Instr.len265, Instr.len266, Instr.len267, Instr.len268,
   Instr.len269, Instr.len270, Instr.len271]
def lenRowsHigh : List (Nat → Instr) :=
  [Instr.len272, Instr.len273, Instr.len274, Instr.len275,
   Instr.len276, Instr.len277, Instr.len278, Instr.len279,
   Instr.len280, Instr.len281, Instr.len282, Instr.len283,
   Instr.len284, fun _ => Instr.len285]
def lenRows : List (Nat → Instr) := lenRowsLow ++ lenRowsHigh

/-- The rows `DIST_0` to `DIST_INVALID_31`, by symbol. -/
def distRowsLow : List (Nat → Instr) :=
  [fun _ => Instr.dist0, fun _ => Instr.dist1, fun _ => Instr.dist2, fun _ => Instr.dist3,
   Instr.dist4, Instr.dist5, Instr.dist6, Instr.dist7,
   Instr.dist8, Instr.dist9, Instr.dist10, Instr.dist11,
   Instr.dist12, Instr.dist13, Instr.dist14, Instr.dist15]
def distRowsHigh : List (Nat → Instr) :=
  [Instr.dist16, Instr.dist17, Instr.dist18, Instr.dist19,
   Instr.dist20, Instr.dist21, Instr.dist22, Instr.dist23,
   Instr.dist24, Instr.dist25, Instr.dist26, Instr.dist27,
   Instr.dist28, Instr.dist29, fun _ => Instr.distInvalid30, fun _ => Instr.distInvalid31]
def distRows : List (Nat → Instr) := distRowsLow ++ distRowsHigh

/-- The row of a literal/length symbol (R102). -/
def litlenRow (sym extra : Nat) : Option Instr :=
  if sym < 256 then some (.literal (BitVec.ofNat 8 sym))
  else if sym = 256 then some .eob
  else if sym < 286 then (lenRows[sym - 257]?).map (fun row => row extra)
  else if sym = 286 then some .llInvalid286
  else if sym = 287 then some .llInvalid287
  else none

/-- The row of a distance symbol (R111). -/
def distRow (ds extra : Nat) : Option Instr := (distRows[ds]?).map (fun row => row extra)

/-- The row of a code-length symbol (R96). -/
def clRow (sym extra : Nat) : Option Instr :=
  if sym < 16 then some (.clLen sym)
  else if sym = 16 then some (.clRep16 extra)
  else if sym = 17 then some (.clZero17 extra)
  else if sym = 18 then some (.clZero18 extra)
  else none

/-- Extra bits read after a code-length symbol (R96); none after symbol 16 where `PREV = none` (R185). -/
def clExtraOf (sym : Nat) (prev : Option Nat) : Nat :=
  if sym = 16 then (if prev = none then 0 else 2)
  else if sym = 17 then 3
  else if sym = 18 then 7
  else 0

/-- A symbol, its extra field, its row. -/
def decodeSymbol (t : Tree) (width : Nat → Nat) (row : Nat → Nat → Option Instr) (c : Cursor) : Decoded :=
  match decodeSym t c with
  | none => .short
  | some (sym, c1) =>
    match readBits (width sym) c1 with
    | none => .short
    | some (e, c2) =>
      match row sym e with
      | none => .noRow sym c2
      | some i => .instr i c2

/-- After the header bits of BTYPE 0 (R177): the padding, LEN, NLEN. -/
def decodeStored (final : Bool) (c : Cursor) : Decoded :=
  match readU16le (align c) with
  | none => .short
  | some (len, c1) =>
    match readU16le c1 with
    | none => .short
    | some (nlen, c2) => .instr (.blkStored final len nlen) c2

/-- After the header bits of BTYPE 2 (R94, R180, R181): HLIT, HDIST, HCLEN, then HCLEN code-length values. -/
def decodeDynamic (final : Bool) (c : Cursor) : Decoded :=
  match readBits 5 c with
  | none => .short
  | some (hlit, c1) =>
    match readBits 5 c1 with
    | none => .short
    | some (hdist, c2) =>
      match readBits 4 c2 with
      | none => .short
      | some (hclen, c3) =>
        match readFields 3 (hclenOf hclen) c3 with
        | none => .short
        | some (cls, c4) => .instr (.blkDynamic final hlit hdist cls) c4

/-- A block header (R91, R92, R176). -/
def decodeHeader (c : Cursor) : Decoded :=
  match readBit c with
  | none => .short
  | some (final, c1) =>
    match readBits 2 c1 with
    | none => .short
    | some (btype, c2) =>
      if btype = 0 then decodeStored final c2
      else if btype = 1 then .instr (.blkFixed final) c2
      else if btype = 2 then decodeDynamic final c2
      else .instr (.blkReserved final) c2

/-- Decode one stream element: total on any bits. -/
def decode (ctx : Ctx) (c : Cursor) : Decoded :=
  match ctx with
  | .header => decodeHeader c
  | .clsym t prev => decodeSymbol t (fun sym => clExtraOf sym prev) clRow c
  | .litlen t => decodeSymbol t lengthExtraOf litlenRow c
  | .dist t => decodeSymbol t distExtraOf distRow c

/-- Decode a host command (R116); the four codes are exhaustive. -/
def decodeCmd (w : CmdWord) : Instr :=
  if w.code = 0 then .makeAvailable w.operand
  else if w.code = 1 then .copyOut w.operand
  else if w.code = 2 then .read w.operand
  else .reset

/-- The table's view of an instruction (R120): its format, the value its row is matched on (the header value `h`, the symbol or
the command code), and its extra field or operand (0 where it has none). -/
def Instr.tableValue : Instr → Format × Nat × Nat
  | .blkStored f _ _ => (.blkhdr, f.toNat + 0, 0)
  | .blkFixed f => (.blkhdr, f.toNat + 2, 0)
  | .blkDynamic f _ _ _ => (.blkhdr, f.toNat + 4, 0)
  | .blkReserved f => (.blkhdr, f.toNat + 6, 0)
  | .clLen v => (.clsym, v, 0)
  | .clRep16 e => (.clsym, 16, e)
  | .clZero17 e => (.clsym, 17, e)
  | .clZero18 e => (.clsym, 18, e)
  | .literal b => (.litlen, b.toNat, 0)
  | .eob => (.litlen, 256, 0)
  | .len257 => (.litlen, 257, 0)
  | .len258 => (.litlen, 258, 0)
  | .len259 => (.litlen, 259, 0)
  | .len260 => (.litlen, 260, 0)
  | .len261 => (.litlen, 261, 0)
  | .len262 => (.litlen, 262, 0)
  | .len263 => (.litlen, 263, 0)
  | .len264 => (.litlen, 264, 0)
  | .len265 e => (.litlen, 265, e)
  | .len266 e => (.litlen, 266, e)
  | .len267 e => (.litlen, 267, e)
  | .len268 e => (.litlen, 268, e)
  | .len269 e => (.litlen, 269, e)
  | .len270 e => (.litlen, 270, e)
  | .len271 e => (.litlen, 271, e)
  | .len272 e => (.litlen, 272, e)
  | .len273 e => (.litlen, 273, e)
  | .len274 e => (.litlen, 274, e)
  | .len275 e => (.litlen, 275, e)
  | .len276 e => (.litlen, 276, e)
  | .len277 e => (.litlen, 277, e)
  | .len278 e => (.litlen, 278, e)
  | .len279 e => (.litlen, 279, e)
  | .len280 e => (.litlen, 280, e)
  | .len281 e => (.litlen, 281, e)
  | .len282 e => (.litlen, 282, e)
  | .len283 e => (.litlen, 283, e)
  | .len284 e => (.litlen, 284, e)
  | .len285 => (.litlen, 285, 0)
  | .llInvalid286 => (.litlen, 286, 0)
  | .llInvalid287 => (.litlen, 287, 0)
  | .dist0 => (.dist, 0, 0)
  | .dist1 => (.dist, 1, 0)
  | .dist2 => (.dist, 2, 0)
  | .dist3 => (.dist, 3, 0)
  | .dist4 e => (.dist, 4, e)
  | .dist5 e => (.dist, 5, e)
  | .dist6 e => (.dist, 6, e)
  | .dist7 e => (.dist, 7, e)
  | .dist8 e => (.dist, 8, e)
  | .dist9 e => (.dist, 9, e)
  | .dist10 e => (.dist, 10, e)
  | .dist11 e => (.dist, 11, e)
  | .dist12 e => (.dist, 12, e)
  | .dist13 e => (.dist, 13, e)
  | .dist14 e => (.dist, 14, e)
  | .dist15 e => (.dist, 15, e)
  | .dist16 e => (.dist, 16, e)
  | .dist17 e => (.dist, 17, e)
  | .dist18 e => (.dist, 18, e)
  | .dist19 e => (.dist, 19, e)
  | .dist20 e => (.dist, 20, e)
  | .dist21 e => (.dist, 21, e)
  | .dist22 e => (.dist, 22, e)
  | .dist23 e => (.dist, 23, e)
  | .dist24 e => (.dist, 24, e)
  | .dist25 e => (.dist, 25, e)
  | .dist26 e => (.dist, 26, e)
  | .dist27 e => (.dist, 27, e)
  | .dist28 e => (.dist, 28, e)
  | .dist29 e => (.dist, 29, e)
  | .distInvalid30 => (.dist, 30, 0)
  | .distInvalid31 => (.dist, 31, 0)
  | .makeAvailable n => (.hostcmd, 0, n)
  | .copyOut k => (.hostcmd, 1, k)
  | .read m => (.hostcmd, 2, m)
  | .reset => (.hostcmd, 3, 0)

/-! ### The encoder -/

/-- A field of `k` bits, first bit the least significant (R62). -/
def natBits : Nat → Nat → List Bool
  | 0, _ => []
  | k + 1, v => decide (v % 2 = 1) :: natBits k (v / 2)

/-- The path to a symbol's leaf, which is its code, first stream bit first (R63, R153). -/
def Tree.path : Tree → Nat → Option (List Bool)
  | .leaf s, sym => if s = sym then some [] else none
  | .node zero one, sym =>
    match zero.path sym with
    | some p => some (false :: p)
    | none =>
      match one.path sym with
      | some p => some (true :: p)
      | none => none

/-- A symbol's code and its extra field; `none` where the tree has no such leaf. -/
def encodeSymbol (t : Tree) (width sym extra : Nat) : Option (List Bool) :=
  match t.path sym with
  | none => none
  | some p => some (p ++ natBits width extra)

/-- The bits of an element in stream order, written at bit position `pos` (which fixes the padding of a stored block, R93); `none`
where the element is not of the format or its symbol has no code in the tree. -/
def encode (ctx : Ctx) (pos : Nat) (i : Instr) : Option (List Bool) :=
  match ctx with
  | .header =>
    match i with
    | .blkStored f len nlen =>
        some (f :: false :: false ::
          (List.replicate (padCount (pos + 3)) false ++ natBits 16 len.toNat ++ natBits 16 nlen.toNat))
    | .blkFixed f => some [f, true, false]
    | .blkDynamic f hlit hdist cls =>
        some (f :: false :: true ::
          (natBits 5 hlit ++ natBits 5 hdist ++ natBits 4 (cls.length - 4) ++ cls.flatMap (natBits 3)))
    | .blkReserved f => some [f, true, true]
    | _ => none
  | .clsym t prev =>
    match i.tableValue with
    | (.clsym, sym, e) =>
        if clExtraOf sym prev = 0 && e != 0 then none else encodeSymbol t (clExtraOf sym prev) sym e
    | _ => none
  | .litlen t =>
    match i.tableValue with
    | (.litlen, sym, e) => encodeSymbol t (lengthExtraOf sym) sym e
    | _ => none
  | .dist t =>
    match i.tableValue with
    | (.dist, sym, e) => encodeSymbol t (distExtraOf sym) sym e
    | _ => none

/-- The command word of a host command (R116). -/
def encodeCmd (i : Instr) : Option CmdWord :=
  match i with
  | .makeAvailable n => some ⟨0, n⟩
  | .copyOut k => some ⟨1, k⟩
  | .read m => some ⟨2, m⟩
  | .reset => some ⟨3, 0⟩
  | _ => none

/-! ### The words of spec/opcode_table.json -/

/-- The space a table word is taken from (entry 16): a word names none, and the five spaces overlap. -/
def spaceOfWord (nbits w : Nat) : Format :=
  if nbits = 2 then .hostcmd
  else if nbits = 3 then .blkhdr
  else if nbits ≤ 8 then .dist
  else if nbits = 9 then .litlen
  else if 18 ≤ w && w < 30 then .dist
  else .litlen

/-- The row a value selects in a space (R120), with every further field 0. -/
def rowOfValue (f : Format) (w : Nat) : Option Instr :=
  match f with
  | .blkhdr =>
    match decode .header ⟨0, natBits 3 w ++ List.replicate 125 false⟩ with
    | .instr i _ => if w < 8 then some i else none
    | _ => none
  | .clsym => clRow w 0
  | .litlen => litlenRow w 0
  | .dist => distRow w 0
  | .hostcmd => if w < 4 then some (decodeCmd ⟨BitVec.ofNat 2 w, 0⟩) else none

/-- The instruction read from a word numbered as spec/opcode_table.json numbers it (entry 16). -/
def decodeTableWord (nbits w : Nat) : Option Instr := rowOfValue (spaceOfWord nbits w) w

end Sys2Proof
end

