-- ==== Sys2Proof/Machine/CodeTree.lean ====
section
/-! DEFINITION. CanonicalCode (R140 to R146) and CodeTree (R150 to R158): pure functions on lengths, codes and trees. -/

namespace Sys2Proof

/-- A code `(L, c)` with its symbol (R12): `(sym, (L, c))`. -/
abbrev SymCode := Nat × (Nat × Nat)

/-- `max(lengths)` (R141). -/
def maxLength : List Nat → Nat
  | [] => 0
  | l :: ls => max l (maxLength ls)

/-- The histogram with `count[0]` taken as 0 (R141 step 1, R143). -/
def countLength (lengths : List Nat) (L : Nat) : Nat := if L = 0 then 0 else lengths.count L

/-- The first code of each length: `code <- (code + count[L-1]) << 1` (R141 step 2). -/
def firstCode (lengths : List Nat) : Nat → Nat
  | 0 => 0
  | L + 1 => (firstCode lengths L + countLength lengths L) <<< 1

/-- `next_code[0..max_length]` before step 3. -/
def firstCodes (lengths : List Nat) : List Nat := (List.range (maxLength lengths + 1)).map (firstCode lengths)

/-- Step 3 of R141: walk the symbols in ascending order, `next` being `next_code`. -/
def assignCodes : Nat → List Nat → List Nat → List SymCode
  | _, [], _ => []
  | sym, L :: ls, next =>
    if L = 0 then assignCodes (sym + 1) ls next
    else (sym, (L, next.getD L 0)) :: assignCodes (sym + 1) ls (next.set L (next.getD L 0 + 1))

/-- `canonical(lengths)` (R141, R142). -/
def canonical (lengths : List Nat) : Except ErrorKind (List SymCode) :=
  if lengths = [] then .error .invalidHuffmanCodes else .ok (assignCodes 0 lengths (firstCodes lengths))

/-- A code without its first bit: `(L-1, c with bit L-1 and above cleared)` (R151). -/
def restOf (sc : SymCode) : SymCode := (sc.1, (sc.2.1 - 1, sc.2.2 % 2 ^ (sc.2.1 - 1)))

/-- The first bit of a code, `c[L-1]` (R12, R151). -/
def firstBit (sc : SymCode) : Bool := sc.2.2.testBit (sc.2.1 - 1)

/-- The codes whose first bit is `b`, in list order, less that bit. -/
def branch (b : Bool) (codes : List SymCode) : List SymCode := (codes.filter (fun sc => firstBit sc == b)).map restOf

/-- `build(codes)` (R151, R152). `fuel` bounds the depth; with `fuel` at least the longest code's length the last arm is error (b),
since every code then left has length 0. -/
def build : Nat → List SymCode → Except ErrorKind Tree
  | _, [] => .error .invalidHuffmanCodes
  | _, [(sym, (L, _))] => if L = 0 then .ok (.leaf sym) else .error .invalidHuffmanCodes
  | 0, _ :: _ :: _ => .error .invalidHuffmanCodes
  | fuel + 1, a :: b :: cs =>
    if (a :: b :: cs).any (fun sc => sc.2.1 == 0) then .error .invalidHuffmanCodes
    else
      match build fuel (branch false (a :: b :: cs)) with
      | .error e => .error e
      | .ok zero =>
        match build fuel (branch true (a :: b :: cs)) with
        | .error e => .error e
        | .ok one => .ok (.node zero one)

/-- `build(canonical(lengths))` under `SINGLE_CODE_POLICY = Reject`. -/
def buildReject (lengths : List Nat) : Except ErrorKind Tree :=
  match canonical lengths with
  | .error e => .error e
  | .ok codes => build (maxLength lengths) codes

/-- The symbols with a code. -/
def usedSymbols : Nat → List Nat → List Nat
  | _, [] => []
  | sym, L :: ls => if L = 0 then usedSymbols (sym + 1) ls else sym :: usedSymbols (sym + 1) ls

/-- `build(canonical(lengths))` under either value of `SINGLE_CODE_POLICY` (R154). Under `ZeroBitLeaf` an array with exactly one
non-zero entry, and an array of size 1, give the leaf of the only symbol (entry 14). -/
def buildTable (policy : SingleCodePolicy) (lengths : List Nat) : Except ErrorKind Tree :=
  match policy with
  | .reject => buildReject lengths
  | .zeroBitLeaf =>
    match usedSymbols 0 lengths with
    | [sym] => .ok (.leaf sym)
    | _ => if lengths.length = 1 then .ok (.leaf 0) else buildReject lengths

/-- The Kraft sum of R14, in units of `2^-M` where `M` is at least every length. -/
def kraftSum (M : Nat) : List Nat → Nat
  | [] => 0
  | L :: ls => (if L = 0 then 0 else 2 ^ (M - L)) + kraftSum M ls

/-- The complete tree of depth `d` whose leaves are `base`, `base + 1`, … in the order of their codes. -/
def completeTree : Nat → Nat → Tree
  | 0, base => .leaf base
  | d + 1, base => .node (completeTree d base) (completeTree d (base + 2 ^ d))

/-- The fixed literal/length tree, held as a constant (R178, D28): the bit patterns of R100. That the lengths of R99 build it is the
obligation FixedTrees. -/
def fixedLitlenTree : Tree :=
  .node
    (.node
      (.node (completeTree 4 256) (.node (completeTree 3 272) (completeTree 4 0)))
      (completeTree 6 16))
    (.node
      (completeTree 6 80)
      (.node
        (.node (.node (completeTree 3 280) (completeTree 4 144)) (completeTree 5 160))
        (completeTree 6 192)))

/-- The fixed distance tree (R100): symbol `s` has the 5-bit code of value `s`. -/
def fixedDistTree : Tree := completeTree 5 0

end Sys2Proof
end

