-- ==== Sys2Proof/Machine/State.lean ====
section
/-! DEFINITION. The state of one decoder with its byte source and its host (R16, R20), the reasons a step stops, and reset. -/

namespace Sys2Proof.Machine

/-- A memory of bytes by address: addresses strictly rising, an address not listed holds no value (R45; entry 7). -/
abbrev Memory := List Host.Cell

/-- The canonical form. -/
abbrev Memory.wf (m : Memory) : Prop := (m.map Prod.fst).Pairwise (· < ·)

/-- The SlidingWindow with the counts kept with it (R160): `WIN`, `WPOS`, `WRITTEN`, `AVAIL`. -/
structure Window where
  cells   : Memory
  wpos    : Nat
  written : Nat
  avail   : Nat
  deriving DecidableEq, Repr, Inhabited

/-- What the byte source does (R16, R40): append a byte, or end for ever. -/
inductive SrcEvent
  | byte (b : Byte)
  | stop
  deriving DecidableEq, Repr, Inhabited

/-- The byte source: `bytes` is `SRC`, `ended` is `SRC_END` (R40). `base` is the index in `bytes` of the first byte supplied after
the last reset (R45, R371; entry 5). `incoming` is what the source will still do, in order (entry 3). -/
structure Source where
  bytes    : List Byte
  ended    : Bool
  base     : Nat
  incoming : List SrcEvent
  deriving DecidableEq, Repr, Inhabited

/-- The transient registers of a dynamic header that is being read (R34): BFINAL, `HLIT`, `HDIST`, `CL_TREE`, `LENS`, `PREV`. -/
structure DynHdr where
  final  : Bool
  hlit   : Nat
  hdist  : Nat
  clTree : Tree
  lens   : List Nat
  prev   : Option Nat
  deriving DecidableEq, Repr, Inhabited

/-- `TOTAL` (R183). -/
def DynHdr.total (h : DynHdr) : Nat := h.hlit + h.hdist

/-- Where inside an atomic decoder step the machine stands (entry 1). -/
inductive InStep
  /-- Between two atomic steps. -/
  | nothing
  /-- In the header step, reading code-length symbols (R183). -/
  | dynHdr (h : DynHdr)
  /-- In a symbol step, the length read and its distance element to come (R207). -/
  | awaitDist (len : Nat)
  deriving DecidableEq, Repr, Inhabited

/-- The command in progress (R300: at most one). -/
inductive Running
  | idle
  /-- `MAKE_AVAILABLE` with its `target` (R301). -/
  | makeAvail (target : Nat)
  /-- `READ(m)`; `got` is what it has delivered so far, so `total` is its length (R305). -/
  | read (m : Nat) (got : List Byte)
  deriving DecidableEq, Repr, Inhabited

/-- The responses (R311). -/
inductive Response
  /-- `Ok(a)` of `MAKE_AVAILABLE`. -/
  | okCount (a : Nat)
  /-- The bytes of `COPY_OUT`. -/
  | bytes (bs : List Byte)
  /-- `Ok(bytes)` of `READ`. -/
  | okBytes (bs : List Byte)
  /-- `Err(kind)`. -/
  | err (k : ErrorKind)
  deriving DecidableEq, Repr, Inhabited

structure State where
  /-- `STATE` (R21). -/
  blk     : BlockState
  /-- `bitpos`, the program counter (R25). -/
  bitpos  : Nat
  /-- `ERR` (R28); `none` is code 0. -/
  err     : Option ErrorKind
  /-- `WIN`, `WPOS`, `WRITTEN`, `AVAIL` (R29 to R32). -/
  window  : Window
  /-- `OUT` (R41). -/
  out     : List Byte
  /-- `SRC`, `SRC_END` (R40). -/
  src     : Source
  /-- The transient registers of the atomic step in progress (R34; entry 1). -/
  inStep  : InStep
  /-- `bitpos` at the start of the atomic step in progress, to which a hold returns (R131; entry 1). -/
  ckpt    : Nat
  /-- The command in progress. -/
  cur     : Running
  /-- The commands the host will still issue, in order (entry 4). -/
  cmds    : List CmdWord
  /-- The responses given so far, oldest first (R311; entry 4). -/
  resp    : List Response
  /-- The named parameters (R8; entry 9). No step changes them. -/
  params  : Params
  /-- Counter of the free values drawn so far (entry 6). -/
  freeCtr : Nat
  /-- How many bytes the source had handed over since the last reset (R136) when the latched error was raised; read only while an
  error is latched, where `bitpos` says nothing any more (R335; entry 5). -/
  fetchedAtErr : Nat
  deriving DecidableEq, Repr, Inhabited

/-- Why a step stops with a fault. No step from reset reaches one (the obligation that says so rests on `State.Inv`). -/
inductive Fault
  /-- Raised by the meaning of a stream element where the machine is not reading that kind of element: R303 fixes where each is
  read and gives it no effect elsewhere (entry 12). Safe. -/
  | elementOutOfPlace
  /-- Raised by `COPY_OUT`, `READ` and the pending-copy step on a window cell that holds no value (R45; "no rule can read one",
  R168; entry 7). Safe. -/
  | windowCellWithoutValue
  /-- Raised by the engine where a literal/length tree has a leaf above 287; no built tree has one (R102; entry 15). Safe. -/
  | symbolOutsideAlphabet
  deriving DecidableEq, Repr, Inhabited

/-- Why a step is refused: the contract violations of R345, to which the spec assigns no behaviour at all. Safe. -/
inductive Refusal
  /-- An instruction without a meaning in this model; raised by `exec` alone. Safe. -/
  | notModelled (mnemonic : String)
  /-- Raised by `MAKE_AVAILABLE(n)` with `n > CAP` (R345 a, R310, R374). Safe. -/
  | requestAboveCapacity
  /-- Raised by `COPY_OUT(k)` with `k > AVAIL` (R345 b, R310, R375). Safe. -/
  | copyOutAboveAvailable
  /-- Raised by the pending-copy step at distance 0 (R345 c, R169); unreachable from reset. Safe. -/
  | zeroDistance
  /-- Raised by a host command while another runs (R345 d, R300, R378). Safe. -/
  | commandWhileRunning
  deriving DecidableEq, Repr, Inhabited

abbrev Result := Host.Outcome State Fault Refusal

/-- The window after reset (R45, R370): no cell holds a value. -/
def Window.empty : Window := ⟨[], 0, 0, 0⟩

/-- The machine right after reset (R45): the spec's own values for its registers; the model's own fields at the values entry 8
names. Nothing supplied, nothing commanded. -/
def State.reset : State where
  blk     := .header
  bitpos  := 0
  err     := none
  window  := Window.empty
  out     := []
  src     := ⟨[], false, 0, []⟩
  inStep  := .nothing
  ckpt    := 0
  cur     := .idle
  cmds    := []
  resp    := []
  params  := Config.defaultParams
  freeCtr := 0
  fetchedAtErr := 0

end Sys2Proof.Machine
end

