-- ==== Sys2Proof/Machine/Flags.lean ====
section
/-! DEFINITION. The conditions that act as flags (R26) and what they decide. The block has no arithmetic condition codes. -/

namespace Sys2Proof.Machine

/-- The number in the 3-bit register `ERR` (R28, R331). -/
def errCode : Option ErrorKind → BitVec 3
  | none => 0
  | some .invalidBlockType => 1
  | some .nonMatchingLengthFields => 2
  | some .invalidHuffmanCodes => 3
  | some .invalidLiteralLengthSymbol => 4
  | some .windowUnderflow => 5
  | some .unexpectedEndOfInput => 6

/-- The tag of `STATE` in the 2-bit encoding R21 offers. -/
def stateTag : BlockState → BitVec 2
  | .header => 0
  | .uncompressed _ _ => 1
  | .huffman _ _ _ _ _ => 2
  | .complete => 3

/-- The flag `ERR != 0` (R26). -/
def State.errLatched (s : State) : Bool := s.err.isSome

/-- The flag `STATE = Complete` (R26). -/
def State.isComplete (s : State) : Bool :=
  match s.blk with
  | .complete => true
  | _ => false

/-- The flag `IS_FINAL`, where a block is active (R26). -/
def State.isFinal (s : State) : Option Bool :=
  match s.blk with
  | .uncompressed _ f => some f
  | .huffman _ _ _ _ f => some f
  | _ => none

/-- Block completion: `if IS_FINAL = 1: STATE <- Complete else: STATE <- Header` (R202, R206). -/
def afterBlock (final : Bool) : BlockState := if final then .complete else .header

/-- What the command in progress wants available: the `target` of R301; for `READ`, its present chunk (R305). -/
def State.target (s : State) : Nat :=
  match s.cur with
  | .idle => 0
  | .makeAvail t => t
  | .read m got => min (m - got.length) Config.cap

/-- `need = target - AVAIL` (R200, R301). -/
def State.need (s : State) : Nat := s.target - s.window.avail

/-- A decoder step is demanded: the precondition of R303, `ERR = 0` and `AVAIL < target`. -/
def State.demanded (s : State) : Bool := !s.errLatched && decide (s.window.avail < s.target)

end Sys2Proof.Machine
end

