-- ==== Sys2Proof/Machine/Ops.lean ====
section
/-! DEFINITION. The named operations over memory, window, byte source and registers; error entry (R335) and reset (R370). -/

namespace Sys2Proof.Machine

/-! ### Memory -/

/-- The value an address holds, if any. -/
def Memory.read : Memory → Nat → Option Byte
  | [], _ => none
  | (k, v) :: rest, a => if k = a then some v else Memory.read rest a

/-- Write a byte, keeping the canonical form. -/
def Memory.write : Memory → Nat → Byte → Memory
  | [], a, v => [(a, v)]
  | (k, x) :: rest, a, v =>
    if a < k then (a, v) :: (k, x) :: rest
    else if a = k then (a, v) :: rest
    else (k, x) :: Memory.write rest a v

/-! ### SlidingWindow: for any capacity `cap ≥ 1` (R7, R160); the decoder uses `Config.cap`. -/

/-- `win_put(b)` (R161). -/
def Window.put (cap : Nat) (b : Byte) (w : Window) : Window where
  cells   := w.cells.write w.wpos b
  wpos    := (w.wpos + 1) % cap
  written := min (w.written + 1) cap
  avail   := w.avail + 1

/-- The ring index `d` bytes back (R68). -/
def Window.back (cap d : Nat) (w : Window) : Nat := (w.wpos + cap - d) % cap

/-- The test of `win_check_distance(d)` (R163): true where it does not raise. -/
def Window.distanceOk (d : Nat) (w : Window) : Bool := decide (d ≤ w.written)

/-- `win_self_copy_byte(d)`, `d ≥ 1` (R164); `none` where the cell holds no value. DESIGN CHOICE (entry 19): `none` at distance 0,
where the operation has no meaning ("must not be guessed", R169, D24). -/
def Window.selfCopyByte (cap d : Nat) (w : Window) : Option Window :=
  if d = 0 then none
  else
    match w.cells.read (w.back cap d) with
    | none => none
    | some b => some (w.put cap b)

/-- `win_self_copy_byte(d)` `k` times, strictly in order (R165, R204, R72). -/
def Window.selfCopyRun (cap d : Nat) : Nat → Window → Option Window
  | 0, w => some w
  | k + 1, w =>
    match w.selfCopyByte cap d with
    | none => none
    | some w1 => Window.selfCopyRun cap d k w1

/-- `win_self_copy(d, len)` as one operation (R165): the check, then the run. The decoder performs the two apart. DESIGN CHOICE
(entry 19): at distance 0 it gives no window, whatever `len` is (R169, D24), and reads no cell. -/
def Window.selfCopy (cap d len : Nat) (w : Window) : Except ErrorKind (Option Window) :=
  if d = 0 then .ok none
  else if w.distanceOk d then .ok (w.selfCopyRun cap d len) else .error .windowUnderflow

/-- `k` cells from ring index `start` on. -/
def Window.readRun (cap : Nat) (w : Window) : Nat → Nat → Option (List Byte)
  | _, 0 => some []
  | start, k + 1 =>
    match w.cells.read (start % cap) with
    | none => none
    | some b =>
      match w.readRun cap (start + 1) k with
      | none => none
      | some bs => some (b :: bs)

/-- `win_copy_out(k)`, `k ≤ AVAIL` (R166): the `k` oldest undelivered bytes, oldest first. -/
def Window.copyOut (cap k : Nat) (w : Window) : Option (List Byte × Window) :=
  match w.readRun cap ((w.wpos + cap - w.avail) % cap) k with
  | none => none
  | some bs => some (bs, { w with avail := w.avail - k })

/-! ### BitChannel over the state -/

/-- The bits of `SRC` from `bitpos` on that are present (R25, R61). -/
def State.cursor (s : State) : Cursor :=
  ⟨s.bitpos, ((s.src.bytes.drop (s.src.base + s.bitpos / 8)).flatMap byteBits).drop (s.bitpos % 8)⟩

/-- `bitpos` moves past what was read. The first read of an atomic step notes where the step began. -/
def State.advance (p : Nat) (s : State) : State :=
  match s.inStep with
  | .nothing => { s with bitpos := p, ckpt := s.bitpos }
  | _ => { s with bitpos := p }

/-- Bytes fetched from the source since reset (R136). After an error no rule reads `bitpos` (R335): the count stays what it was when
the error was raised, since no step reads input then (R342). -/
def State.fetched (s : State) : Nat :=
  match s.err with
  | none => (s.bitpos + 7) / 8
  | some _ => s.fetchedAtErr

/-- The byte source's next event (R40): once it has ended it appends nothing more. -/
def Source.deliver (x : Source) : Source :=
  match x.ended, x.incoming with
  | false, .byte b :: rest => { x with bytes := x.bytes ++ [b], incoming := rest }
  | false, .stop :: rest => { x with ended := true, incoming := rest }
  | _, _ => x

/-- A step that meets the end of `SRC` before `SRC_END` is set holds (R131): it "has consumed nothing and changed nothing", so the
machine is where the atomic step began. -/
def State.rollback (s : State) : State :=
  match s.inStep with
  | .nothing => s
  | _ => { s with bitpos := s.ckpt, inStep := .nothing }

/-- A held step: back to its start, and the byte source acts (entry 3); where it has nothing to supply, nothing changes (U20). -/
def State.hold (s : State) : State := { s.rollback with src := s.src.deliver }

/-! ### Responses -/

/-- End the command in progress with a response (R311). -/
def State.respond (r : Response) (s : State) : State := { s with cur := .idle, resp := s.resp ++ [r] }

/-! ### Error entry and reset -/

/-- Error entry, the meaning of `raise K` (R335, R10): latch `ERR`; a running `MAKE_AVAILABLE` ends with `Err(K)`, a running `READ`
goes on as R305 says; nothing else is saved and control goes nowhere. `STATE`, its payload and `bitpos` "have no meaning any
more": free values (entry 6). The source's own count of the bytes it has handed over (R136) is no part of them and is kept: it stands
behind the last bit read, and no later bit is read (R339). -/
def State.raise (k : ErrorKind) (s : State) : State :=
  let s1 : State :=
    { s with
      err          := some k
      blk          := Config.freeBlockState s.freeCtr
      bitpos       := Config.freeBitpos s.freeCtr
      inStep       := .nothing
      freeCtr      := s.freeCtr + 1
      fetchedAtErr := s.fetched }
  match s.cur with
  | .makeAvail _ => s1.respond (.err k)
  | _ => s1

/-- The reset step (R370), the only way out of a latched error (R341). `SRC` and `SRC_END` are not changed; decoding starts at the
first byte not yet fetched (R45, R371; entry 5). -/
def State.resetStep (s : State) : State :=
  { s with
    blk    := .header
    bitpos := 0
    err    := none
    window := Window.empty
    out    := []
    src    := { s.src with base := s.src.base + s.fetched }
    inStep := .nothing
    ckpt   := 0
    cur    := .idle
    fetchedAtErr := 0 }

/-- `s` with every bit that is present read: where a read finds the next one missing (R131). -/
def State.readOut (s : State) : State := { s with bitpos := s.bitpos + s.cursor.bits.length }

/-- An input that meets the end of `SRC` inside an element: the error where `SRC_END = 1`, else the hold (R131, R338). -/
def State.starve (s : State) : State :=
  if s.src.ended then s.readOut.raise .unexpectedEndOfInput else s.hold

/-! ### Where an element may stand (R303; entry 12) -/

/-- A block header is read where a step is demanded and no block is active. -/
def State.onHeader (s : State) (r : Result) : Result :=
  match s.demanded, s.blk, s.inStep with
  | true, .header, .nothing => r
  | _, _, _ => .fault .elementOutOfPlace

/-- A code-length symbol is read inside a header step, while `len(LENS) < TOTAL` (R183). -/
def State.onLengths (s : State) (k : DynHdr → Result) : Result :=
  match s.demanded, s.blk, s.inStep with
  | true, .header, .dynHdr h => if h.lens.length < h.total then k h else .fault .elementOutOfPlace
  | _, _, _ => .fault .elementOutOfPlace

/-- A literal/length symbol is read in a Huffman block with `PENDING_LEN = 0` (R203). -/
def State.onSymbol (s : State) (k : Bool → Result) : Result :=
  match s.demanded, s.blk, s.inStep with
  | true, .huffman _ _ 0 _ f, .nothing => k f
  | _, _, _ => .fault .elementOutOfPlace

/-- A distance symbol is read inside a symbol step, after a length (R207, R250). -/
def State.onDistance (s : State) (k : Nat → Tree → Tree → Bool → Result) : Result :=
  match s.demanded, s.blk, s.inStep with
  | true, .huffman lt dt 0 _ f, .awaitDist len => k len lt dt f
  | _, _, _ => .fault .elementOutOfPlace

/-- A host command is taken where none is in progress (R300, R345 d). -/
def State.onIdle (s : State) (r : Result) : Result :=
  match s.cur with
  | .idle => r
  | _ => .refused .commandWhileRunning

end Sys2Proof.Machine
end

