-- ==== Sys2Proof/Machine/Distance.lean ====
section
/-! DEFINITION. Distance symbols (R250 to R284). -/

namespace Sys2Proof.Machine

/-- Distance element, common part (R250): `dist = DIST_BASE[ds] + extra`, the underflow check (R283), the load of the pending
registers (R284), which ends the symbol step. -/
def distanceCode (ds extra : Nat) (s : State) : Result :=
  s.onDistance fun len lt dt final =>
    if s.window.distanceOk (distOf ds extra) then
      .next { s with blk := .huffman lt dt len (some (distOf ds extra)) final, inStep := .nothing }
    else .next (s.raise .windowUnderflow)

/-- An invalid distance symbol (R281, R282; `DIST_30_31_POLICY = Fault`). -/
def distanceInvalid (s : State) : Result :=
  s.onDistance fun _ _ _ _ => .next (s.raise .invalidHuffmanCodes)

/-- `DIST_0` (R251). -/
def execDist0 (s : State) : Result := distanceCode 0 0 s

/-- `DIST_1` (R252). -/
def execDist1 (s : State) : Result := distanceCode 1 0 s

/-- `DIST_2` (R253). -/
def execDist2 (s : State) : Result := distanceCode 2 0 s

/-- `DIST_3` (R254). -/
def execDist3 (s : State) : Result := distanceCode 3 0 s

/-- `DIST_4` (R255). -/
def execDist4 (extra : Nat) (s : State) : Result := distanceCode 4 extra s

/-- `DIST_5` (R256). -/
def execDist5 (extra : Nat) (s : State) : Result := distanceCode 5 extra s

/-- `DIST_6` (R257). -/
def execDist6 (extra : Nat) (s : State) : Result := distanceCode 6 extra s

/-- `DIST_7` (R258). -/
def execDist7 (extra : Nat) (s : State) : Result := distanceCode 7 extra s

/-- `DIST_8` (R259). -/
def execDist8 (extra : Nat) (s : State) : Result := distanceCode 8 extra s

/-- `DIST_9` (R260). -/
def execDist9 (extra : Nat) (s : State) : Result := distanceCode 9 extra s

/-- `DIST_10` (R261). -/
def execDist10 (extra : Nat) (s : State) : Result := distanceCode 10 extra s

/-- `DIST_11` (R262). -/
def execDist11 (extra : Nat) (s : State) : Result := distanceCode 11 extra s

/-- `DIST_12` (R263). -/
def execDist12 (extra : Nat) (s : State) : Result := distanceCode 12 extra s

/-- `DIST_13` (R264). -/
def execDist13 (extra : Nat) (s : State) : Result := distanceCode 13 extra s

/-- `DIST_14` (R265). -/
def execDist14 (extra : Nat) (s : State) : Result := distanceCode 14 extra s

/-- `DIST_15` (R266). -/
def execDist15 (extra : Nat) (s : State) : Result := distanceCode 15 extra s

/-- `DIST_16` (R267). -/
def execDist16 (extra : Nat) (s : State) : Result := distanceCode 16 extra s

/-- `DIST_17` (R268). -/
def execDist17 (extra : Nat) (s : State) : Result := distanceCode 17 extra s

/-- `DIST_18` (R269). -/
def execDist18 (extra : Nat) (s : State) : Result := distanceCode 18 extra s

/-- `DIST_19` (R270). -/
def execDist19 (extra : Nat) (s : State) : Result := distanceCode 19 extra s

/-- `DIST_20` (R271). -/
def execDist20 (extra : Nat) (s : State) : Result := distanceCode 20 extra s

/-- `DIST_21` (R272). -/
def execDist21 (extra : Nat) (s : State) : Result := distanceCode 21 extra s

/-- `DIST_22` (R273). -/
def execDist22 (extra : Nat) (s : State) : Result := distanceCode 22 extra s

/-- `DIST_23` (R274). -/
def execDist23 (extra : Nat) (s : State) : Result := distanceCode 23 extra s

/-- `DIST_24` (R275). -/
def execDist24 (extra : Nat) (s : State) : Result := distanceCode 24 extra s

/-- `DIST_25` (R276). -/
def execDist25 (extra : Nat) (s : State) : Result := distanceCode 25 extra s

/-- `DIST_26` (R277). -/
def execDist26 (extra : Nat) (s : State) : Result := distanceCode 26 extra s

/-- `DIST_27` (R278). -/
def execDist27 (extra : Nat) (s : State) : Result := distanceCode 27 extra s

/-- `DIST_28` (R279). -/
def execDist28 (extra : Nat) (s : State) : Result := distanceCode 28 extra s

/-- `DIST_29` (R280). -/
def execDist29 (extra : Nat) (s : State) : Result := distanceCode 29 extra s

/-- `DIST_INVALID_30` (R281). -/
def execDistInvalid30 (s : State) : Result := distanceInvalid s

/-- `DIST_INVALID_31` (R282). -/
def execDistInvalid31 (s : State) : Result := distanceInvalid s

end Sys2Proof.Machine
end

