-- ==== Sys2Proof/Machine/Header.lean ====
section
/-! DEFINITION. Block headers and code-length symbols (R175 to R192). An element's bits have been read and `bitpos` stands behind
it when its meaning runs. -/

namespace Sys2Proof.Machine

/-- `BLK_STORED` (R177): `LEN` against the 16-bit complement of `NLEN`. -/
def execBlkStored (final : Bool) (len nlen : BitVec 16) (s : State) : Result :=
  s.onHeader <|
    if len = ~~~nlen then .next { s with blk := .uncompressed len.toNat final }
    else .next (s.raise .nonMatchingLengthFields)

/-- `BLK_FIXED` (R178). -/
def execBlkFixed (final : Bool) (s : State) : Result :=
  s.onHeader <| .next { s with blk := .huffman fixedLitlenTree fixedDistTree 0 none final }

/-- `CL_LEN[0..18]` filled in the order `CL_ORDER`, slots not filled being 0 (R181, R95). -/
def fillClLen (clLens : List Nat) : List Nat :=
  (Config.clOrder.zip clLens).foldl (fun acc p => acc.set p.1 p.2) (List.replicate Config.nCl 0)

/-- `BLK_DYNAMIC` (R180 to R183): the counts, the code-length tree, the start of the lengths loop. -/
def execBlkDynamic (final : Bool) (hlitField hdistField : Nat) (clLens : List Nat) (s : State) : Result :=
  s.onHeader <|
    match buildTable s.params.singleCode (fillClLen clLens) with
    | .error k => .next (s.raise k)
    | .ok clTree =>
      .next { s with inStep := .dynHdr ⟨final, hlitOf hlitField, hdistOf hdistField, clTree, [], none⟩ }

/-- `BLK_RESERVED` (R179). -/
def execBlkReserved (_final : Bool) (s : State) : Result :=
  s.onHeader <| .next (s.raise .invalidBlockType)

/-- Append a run of `r` entries of value `v`, unless it passes `TOTAL` (R189); `PREV` becomes `prev`. -/
def appendRun (h : DynHdr) (r v : Nat) (prev : Option Nat) (s : State) : State :=
  if h.total < h.lens.length + r then s.raise .invalidHuffmanCodes
  else { s with inStep := .dynHdr { h with lens := h.lens ++ List.replicate r v, prev := prev } }

/-- What symbols 17 and 18 leave in `PREV` (R185, D12). -/
def prevAfterZeroRun (policy : Rep16Policy) (prev : Option Nat) : Option Nat :=
  match policy with
  | .fault => none
  | .keepLiteral => prev
  | .zero => some 0

/-- `CL_LEN` (R184): code-length symbols 0 to 15. -/
def execClLen (len : Nat) (s : State) : Result :=
  s.onLengths fun h => .next { s with inStep := .dynHdr { h with lens := h.lens ++ [len], prev := some len } }

/-- `CL_REP16` (R185): where `PREV = none` the extra bits have not been read and `extra` is not used (entry 13). -/
def execClRep16 (extra : Nat) (s : State) : Result :=
  s.onLengths fun h =>
    match h.prev with
    | none => .next (s.raise .invalidHuffmanCodes)
    | some p => .next (appendRun h (rep16Of extra) p (some p) s)

/-- `CL_ZERO17` (R186). -/
def execClZero17 (extra : Nat) (s : State) : Result :=
  s.onLengths fun h => .next (appendRun h (zero17Of extra) 0 (prevAfterZeroRun s.params.rep16 h.prev) s)

/-- `CL_ZERO18` (R187). -/
def execClZero18 (extra : Nat) (s : State) : Result :=
  s.onLengths fun h => .next (appendRun h (zero18Of extra) 0 (prevAfterZeroRun s.params.rep16 h.prev) s)

/-- The end of the header step, once `len(LENS) = TOTAL` (R190): split at `HLIT`, build the two trees. No bit is read. -/
def finishHeader (h : DynHdr) (s : State) : State :=
  match buildTable s.params.singleCode (h.lens.take h.hlit),
        buildTable s.params.singleCode ((h.lens.drop h.hlit).take h.hdist) with
  | .ok ll, .ok d => { s with blk := .huffman ll d 0 none h.final, inStep := .nothing }
  | .error k, _ => s.raise k
  | .ok _, .error k => s.raise k

end Sys2Proof.Machine
end

