-- ==== Sys2Proof/Machine/HostCmd.lean ====
section
/-! DEFINITION. The host commands (R300 to R312). -/

namespace Sys2Proof.Machine

/-- The tests of `MAKE_AVAILABLE` around its decoder steps (R301), in its order: `AVAIL >= n`, then `ERR`, then end of stream; else
the command goes on. Run when the command is taken and whenever no decoder step is due. -/
def serveMakeAvail (n : Nat) (s : State) : State :=
  if n ≤ s.window.avail then s.respond (.okCount s.window.avail)
  else
    match s.err with
    | some k => s.respond (.err k)
    | none => if s.isComplete then s.respond (.okCount s.window.avail) else { s with cur := .makeAvail n }

/-- The response of `READ` (R305, R306). -/
def readResponse (m : Nat) (got : List Byte) (err : Option ErrorKind) : Response :=
  if 0 < got.length then .okBytes got
  else if m = 0 then .okBytes []
  else
    match err with
    | some k => .err k
    | none => .okBytes []

/-- One pass of the loop of `READ(m)` (R305): where its `MAKE_AVAILABLE(chunk)` has its answer, copy out `min(AVAIL, chunk)` bytes and
respond or go on; else the decoder steps of that `MAKE_AVAILABLE` are due. -/
def serveRead (m : Nat) (got : List Byte) (s : State) : Result :=
  if m ≤ got.length then .next (s.respond (readResponse m got s.err))
  else
    let chunk := min (m - got.length) Config.cap
    if chunk ≤ s.window.avail || s.errLatched || s.isComplete then
      match s.window.copyOut Config.cap (min s.window.avail chunk) with
      | none => .fault .windowCellWithoutValue
      | some (bs, w) =>
        let s1 : State := { s with window := w, out := s.out ++ bs }
        if bs.length < chunk || decide (m ≤ (got ++ bs).length) then
          .next (s1.respond (readResponse m (got ++ bs) s.err))
        else .next { s1 with cur := .read m (got ++ bs) }
    else .next { s with cur := .read m got }

/-- `MAKE_AVAILABLE(n)` (R301). -/
def execMakeAvailable (n : Nat) (s : State) : Result :=
  s.onIdle <| if Config.maxReq < n then .refused .requestAboveCapacity else .next (serveMakeAvail n s)

/-- `COPY_OUT(k)` (R304). -/
def execCopyOut (k : Nat) (s : State) : Result :=
  s.onIdle <|
    if s.window.avail < k then .refused .copyOutAboveAvailable
    else
      match s.window.copyOut Config.cap k with
      | none => .fault .windowCellWithoutValue
      | some (bs, w) => .next (State.respond (.bytes bs) { s with window := w, out := s.out ++ bs })

/-- `READ(m)` (R305). -/
def execRead (m : Nat) (s : State) : Result := s.onIdle <| serveRead m [] s

/-- `RESET` (R307, R370). -/
def execReset (s : State) : Result := s.onIdle <| .next s.resetStep

end Sys2Proof.Machine
end

