-- ==== Sys2Proof/Machine/LitLen.lean ====
section
/-! DEFINITION. Literal/length symbols (R203, R205 to R238). -/

namespace Sys2Proof.Machine

/-- `LITERAL` (R205): the byte is the symbol. -/
def execLiteral (b : Byte) (s : State) : Result :=
  s.onSymbol fun _ => .next { s with window := s.window.put Config.cap b }

/-- `EOB` (R206). -/
def execEob (s : State) : Result :=
  s.onSymbol fun final => .next { s with blk := afterBlock final }

/-- Length codes, common part (R207): `len = LENGTH_BASE[idx] + extra`; the distance element follows in the same atomic step. -/
def lengthCode (idx extra : Nat) (s : State) : Result :=
  s.onSymbol fun _ => .next { s with inStep := .awaitDist (lenOf idx extra) }

/-- `LEN_257` (R208). -/
def execLen257 (s : State) : Result := lengthCode 0 0 s

/-- `LEN_258` (R209). -/
def execLen258 (s : State) : Result := lengthCode 1 0 s

/-- `LEN_259` (R210). -/
def execLen259 (s : State) : Result := lengthCode 2 0 s

/-- `LEN_260` (R211). -/
def execLen260 (s : State) : Result := lengthCode 3 0 s

/-- `LEN_261` (R212). -/
def execLen261 (s : State) : Result := lengthCode 4 0 s

/-- `LEN_262` (R213). -/
def execLen262 (s : State) : Result := lengthCode 5 0 s

/-- `LEN_263` (R214). -/
def execLen263 (s : State) : Result := lengthCode 6 0 s

/-- `LEN_264` (R215). -/
def execLen264 (s : State) : Result := lengthCode 7 0 s

/-- `LEN_265` (R216). -/
def execLen265 (extra : Nat) (s : State) : Result := lengthCode 8 extra s

/-- `LEN_266` (R217). -/
def execLen266 (extra : Nat) (s : State) : Result := lengthCode 9 extra s

/-- `LEN_267` (R218). -/
def execLen267 (extra : Nat) (s : State) : Result := lengthCode 10 extra s

/-- `LEN_268` (R219). -/
def execLen268 (extra : Nat) (s : State) : Result := lengthCode 11 extra s

/-- `LEN_269` (R220). -/
def execLen269 (extra : Nat) (s : State) : Result := lengthCode 12 extra s

/-- `LEN_270` (R221). -/
def execLen270 (extra : Nat) (s : State) : Result := lengthCode 13 extra s

/-- `LEN_271` (R222). -/
def execLen271 (extra : Nat) (s : State) : Result := lengthCode 14 extra s

/-- `LEN_272` (R223). -/
def execLen272 (extra : Nat) (s : State) : Result := lengthCode 15 extra s

/-- `LEN_273` (R224). -/
def execLen273 (extra : Nat) (s : State) : Result := lengthCode 16 extra s

/-- `LEN_274` (R225). -/
def execLen274 (extra : Nat) (s : State) : Result := lengthCode 17 extra s

/-- `LEN_275` (R226). -/
def execLen275 (extra : Nat) (s : State) : Result := lengthCode 18 extra s

/-- `LEN_276` (R227). -/
def execLen276 (extra : Nat) (s : State) : Result := lengthCode 19 extra s

/-- `LEN_277` (R228). -/
def execLen277 (extra : Nat) (s : State) : Result := lengthCode 20 extra s

/-- `LEN_278` (R229). -/
def execLen278 (extra : Nat) (s : State) : Result := lengthCode 21 extra s

/-- `LEN_279` (R230). -/
def execLen279 (extra : Nat) (s : State) : Result := lengthCode 22 extra s

/-- `LEN_280` (R231). -/
def execLen280 (extra : Nat) (s : State) : Result := lengthCode 23 extra s

/-- `LEN_281` (R232). -/
def execLen281 (extra : Nat) (s : State) : Result := lengthCode 24 extra s

/-- `LEN_282` (R233). -/
def execLen282 (extra : Nat) (s : State) : Result := lengthCode 25 extra s

/-- `LEN_283` (R234). -/
def execLen283 (extra : Nat) (s : State) : Result := lengthCode 26 extra s

/-- `LEN_284` (R235). -/
def execLen284 (extra : Nat) (s : State) : Result := lengthCode 27 extra s

/-- `LEN_285` (R236). -/
def execLen285 (s : State) : Result := lengthCode 28 0 s

/-- `LL_INVALID_286` (R237). -/
def execLlInvalid286 (s : State) : Result :=
  s.onSymbol fun _ => .next (s.raise .invalidLiteralLengthSymbol)

/-- `LL_INVALID_287` (R238). -/
def execLlInvalid287 (s : State) : Result :=
  s.onSymbol fun _ => .next (s.raise .invalidLiteralLengthSymbol)

end Sys2Proof.Machine
end

