-- ==== Sys2Proof/Machine/Stored.lean ====
section
/-! DEFINITION. The body steps that read no symbol: stored data (R201, R202), the pending copy (R204). -/

namespace Sys2Proof.Machine

/-- One byte of a stored block (R162, R201): the step that moves `k` bytes is `k` of these, each atomic. `REMAINING` is
`remaining + 1`. -/
def storedByte (remaining : Nat) (final : Bool) (s : State) : State :=
  match readByte s.cursor with
  | none => s.starve
  | some (b, c) =>
    let s1 := s.advance c.pos
    { s1 with window := s1.window.put Config.cap b, blk := .uncompressed remaining final }

/-- Stored-block completion (R202). -/
def storedDone (final : Bool) (s : State) : State := { s with blk := afterBlock final }

/-- The pending-copy step (R204): `k = min(PENDING_LEN, need)` bytes. Distance 0 is outside the contract (R169). -/
def pendingCopy (lt dt : Tree) (len : Nat) (dist : Option Nat) (final : Bool) (s : State) : Result :=
  let k := min len s.need
  match dist with
  | none => .fault .elementOutOfPlace
  | some d =>
    if d = 0 then .refused .zeroDistance
    else
      match s.window.selfCopyRun Config.cap d k with
      | none => .fault .windowCellWithoutValue
      | some w =>
        .next { s with
          window := w
          blk := .huffman lt dt (len - k) (if len - k = 0 then none else some d) final }

end Sys2Proof.Machine
end

