-- ==== Sys2Proof/Machine/Engine.lean ====
section
/-! DEFINITION. Which step comes next (R300, R301, R303), fetching an element, and placing an instruction to be fetched. -/

namespace Sys2Proof.Machine

/-- Fetch one stream element at `bitpos` and run its meaning. -/
def element (ctx : Ctx) (s : State) : Result :=
  match decode ctx s.cursor with
  | .instr i c => exec i (s.advance c.pos)
  | .short => .next s.starve
  | .noRow _ c =>
    match ctx with
    | .clsym _ _ => .next ((s.advance c.pos).raise .invalidHuffmanCodes)   -- R188
    | .dist _ => .next ((s.advance c.pos).raise .invalidHuffmanCodes)      -- R250: `if ds >= 30`
    | _ => .fault .symbolOutsideAlphabet

/-- One decoder step, or the next element of one (R303; entry 1). -/
def decoderStep (s : State) : Result :=
  match s.inStep with
  | .dynHdr h => if h.lens.length < h.total then element (.clsym h.clTree h.prev) s else .next (finishHeader h s)
  | .awaitDist _ =>
    match s.blk with
    | .huffman _ dt _ _ _ => element (.dist dt) s
    | _ => .fault .elementOutOfPlace
  | .nothing =>
    match s.blk with
    | .header => element .header s
    | .uncompressed 0 f => .next (storedDone f s)
    | .uncompressed (r + 1) f => .next (storedByte r f s)
    | .huffman lt _ 0 _ _ => element (.litlen lt) s
    | .huffman lt dt (p + 1) d f => pendingCopy lt dt (p + 1) d f s
    | .complete => .fault .elementOutOfPlace

/-- The loop of the command in progress, where no decoder step is due (R301, R305). -/
def serve (s : State) : Result :=
  match s.cur with
  | .idle => .next s
  | .makeAvail t => .next (serveMakeAvail t s)
  | .read m got => serveRead m got s

/-- Take the host's next command; where there is none "no architectural state changes" (R300). -/
def takeCommand (s : State) : Result :=
  match s.cmds with
  | [] => .next s
  | w :: rest => exec (decodeCmd w) { s with cmds := rest }

/-- One step of the machine. -/
def engineStep (s : State) : Result :=
  match s.cur with
  | .idle => takeCommand s
  | _ => if s.demanded && !s.isComplete then decoderStep s else serve s

/-! ### Placing an instruction where the next step fetches it (entry 17) -/

/-- Eight bits as a byte, the first the least significant (R61); missing bits are 0. -/
def byteOfBits (bits : List Bool) : Byte :=
  BitVec.ofNat 8 ((bits.take 8).foldr (fun b acc => b.toNat + 2 * acc) 0)

/-- Bits as bytes; the argument is the number of bytes. -/
def packBits : Nat → List Bool → List Byte
  | 0, _ => []
  | n + 1, bits => byteOfBits bits :: packBits n (bits.drop 8)

/-- The bytes of an element that starts at bit 0 of the first, then zero bytes. -/
def elementBytes (bits : List Bool) : List Byte := packBits ((bits.length + 7) / 8 + 16) bits

/-- A machine that demands a byte and stands at bit 0 of a source that holds these bits. -/
def State.demanding (bits : List Bool) (s : State) : State :=
  { s with
    err    := none
    bitpos := 0
    src    := { s.src with bytes := elementBytes bits, base := 0 }
    inStep := .nothing
    ckpt   := 0
    cur    := if s.demanded then s.cur else .makeAvail (s.window.avail + 1) }

/-- Place an instruction: a stream element in the source, in the block and the place inside a step where it is read; a command at
the head of the host's commands. -/
def placeInstr (i : Instr) (s : State) : State :=
  match i.tableValue.1 with
  | .blkhdr => { State.demanding ((encode .header 0 i).getD []) s with blk := .header }
  | .clsym =>
    { State.demanding ((encode (.clsym fixedDistTree (some 0)) 0 i).getD []) s with
      blk := .header
      inStep := .dynHdr ⟨false, 257, 1, fixedDistTree, [], some 0⟩ }
  | .litlen =>
    { State.demanding ((encode (.litlen fixedLitlenTree) 0 i).getD []) s with
      blk := .huffman fixedLitlenTree fixedDistTree 0 none false }
  | .dist =>
    { State.demanding ((encode (.dist fixedDistTree) 0 i).getD []) s with
      blk := .huffman fixedLitlenTree fixedDistTree 0 none false
      inStep := .awaitDist 3 }
  | .hostcmd => { s with cur := .idle, inStep := .nothing, cmds := ((encodeCmd i).getD ⟨3, 0⟩) :: s.cmds }

end Sys2Proof.Machine
end

