-- ==== Sys2Proof/Machine/Step.lean ====
section
/-! DEFINITION. One step of the machine, and the word the host places for it. -/

namespace Sys2Proof.Machine

/-- One step: take a command, or read one stream element, or do one step that reads none, or respond (Machine/Engine.lean). -/
def step (s : State) : Host.Outcome State Fault Refusal := engineStep s

/-- `s` with the instruction of a table word placed where the next step reads it (entries 16 and 17). -/
def State.withFetchWord (s : State) (nbits w : Nat) : State :=
  match decodeTableWord nbits w with
  | some i => placeInstr i s
  | none => s

end Sys2Proof.Machine
end

