-- ==== Sys2Proof/Safety.lean ====
section
/-! DEFINITION. What a good state is (R36), where each kind of element may be read (R303), and the notions the statements use. -/

namespace Sys2Proof

/-- Every leaf of the tree is a symbol below `n` (R33: alphabets of 288, 32 and 19 symbols). -/
def Tree.symsBelow (n : Nat) : Tree → Bool
  | .leaf sym => decide (sym < n)
  | .node zero one => zero.symsBelow n && one.symsBelow n

/-- Depth of the deepest leaf. -/
def Tree.depth : Tree → Nat
  | .leaf _ => 0
  | .node zero one => max zero.depth one.depth + 1

/-- A tree over an alphabet of `n` symbols with codes of at most `maxLen` bits (R33, R7). -/
def Tree.fits (n maxLen : Nat) (t : Tree) : Bool := t.symsBelow n && decide (t.depth ≤ maxLen)

/-- The first `L` bits of a code, most significant first: a code as the stream carries it (R12, R63). -/
def codeBits : Nat → Nat → List Bool
  | 0, _ => []
  | L + 1, c => c.testBit L :: codeBits L c

namespace Machine

/-- R36 for the window, any capacity: `AVAIL <= WRITTEN <= CAP`, `WPOS < CAP`, `WRITTEN < CAP` implies `WPOS = WRITTEN`; and the cells
that hold a value are the indices below `WRITTEN`, in order, each once (which is the canonical form of the memory). -/
def Window.inv (cap : Nat) (w : Window) : Bool :=
  decide (w.avail ≤ w.written) && decide (w.written ≤ cap) && decide (w.wpos < cap) &&
    (decide (cap ≤ w.written) || decide (w.wpos = w.written)) &&
    decide (w.cells.map Prod.fst = List.range w.written)

/-- R36, R22, R23, R33 (with `MAXBITS`, R7), R65 for `STATE`, where `ERR = 0`. -/
def blockInv (written bitpos : Nat) : BlockState → Bool
  | .header => true
  | .complete => true
  | .uncompressed r _ => decide (r < 65536) && decide (bitpos % 8 = 0)
  | .huffman lt dt len dist _ =>
    lt.fits Config.nLitlen Config.maxBits && dt.fits Config.nDist Config.maxBits && decide (len ≤ 258) &&
      match dist with
      | none => decide (len = 0)
      | some d => decide (0 < len) && decide (1 ≤ d) && decide (d ≤ written)

/-- R34 and R33 (with `MAXBITS_CL`, R7) for the transient registers; inside a step, a step is demanded and `ckpt` is where it began. -/
def State.inStepInv (s : State) : Bool :=
  match s.inStep, s.blk with
  | .nothing, _ => true
  | .dynHdr h, .header =>
    s.demanded && decide (s.ckpt ≤ s.bitpos) && h.clTree.fits Config.nCl Config.maxBitsCl &&
      decide (257 ≤ h.hlit) && decide (h.hlit ≤ 288) && decide (1 ≤ h.hdist) && decide (h.hdist ≤ 32) &&
      decide (h.lens.length ≤ h.total) && h.lens.all (fun l => decide (l ≤ Config.maxBits)) &&
      h.prev.all (fun p => decide (p ≤ Config.maxBits))
  | .awaitDist len, .huffman _ _ 0 _ _ =>
    s.demanded && decide (s.ckpt ≤ s.bitpos) && decide (3 ≤ len) && decide (len ≤ 258)
  | _, _ => false

/-- The invariant of the machine (R36). After an error it says nothing of `STATE` and `bitpos` (R335). -/
def State.inv (s : State) : Bool :=
  s.window.inv Config.cap &&
    (s.errLatched || blockInv s.window.written s.bitpos s.blk) &&
    s.inStepInv &&
    match s.cur with
    | .idle => decide (s.inStep = .nothing)
    | .makeAvail t => decide (t ≤ Config.cap) && !s.errLatched
    | .read m got => decide (got.length ≤ m)

/-- The invariant as a proposition. -/
abbrev State.Inv (s : State) : Prop := s.inv = true

/-- A block header is due (R303). -/
abbrev State.AtHeader (s : State) : Prop := s.demanded = true ∧ s.blk = .header ∧ s.inStep = .nothing

/-- A code-length symbol is due (R183). -/
abbrev State.AtLengths (s : State) (h : DynHdr) : Prop :=
  s.demanded = true ∧ s.blk = .header ∧ s.inStep = .dynHdr h ∧ h.lens.length < h.total

/-- A literal/length symbol is due (R203). -/
abbrev State.AtSymbol (s : State) (lt dt : Tree) (dist : Option Nat) (final : Bool) : Prop :=
  s.demanded = true ∧ s.blk = .huffman lt dt 0 dist final ∧ s.inStep = .nothing

/-- A distance symbol is due (R250). -/
abbrev State.AtDistance (s : State) (len : Nat) (lt dt : Tree) (dist : Option Nat) (final : Bool) : Prop :=
  s.demanded = true ∧ s.blk = .huffman lt dt 0 dist final ∧ s.inStep = .awaitDist len

/-- The next step of the machine is the host's RESET. -/
def State.takesReset (s : State) : Bool :=
  match s.cur, s.cmds with
  | .idle, w :: _ => decide (w.code = 3)
  | _, _ => false

/-- The element the next decoder step reads, if it reads one (R303). -/
def State.ctx (s : State) : Option Ctx :=
  match s.inStep, s.blk with
  | .dynHdr h, _ => if h.lens.length < h.total then some (.clsym h.clTree h.prev) else none
  | .awaitDist _, .huffman _ dt _ _ _ => some (.dist dt)
  | .nothing, .header => some .header
  | .nothing, .huffman lt _ 0 _ _ => some (.litlen lt)
  | _, _ => none

/-- A decoder step is due: a command is running, a byte is wanted, no error, not the end of the stream (R301, R303). -/
def State.stepDue (s : State) : Bool := s.demanded && !s.isComplete

/-- The byte produced `d` bytes ago (R68). -/
def Window.byteBack (cap d : Nat) (w : Window) : Option Byte := w.cells.read (w.back cap d)

/-- Bytes produced since reset (R36). -/
def State.produced (s : State) : Nat := s.out.length + s.window.avail

/-- `u` is inside the atomic decoder step that began at `s0`. -/
inductive Within (s0 : State) : State → Prop
  | first {u : State} : s0.inStep = .nothing → step s0 = .next u → u.inStep ≠ .nothing → Within s0 u
  | later {t u : State} : Within s0 t → step t = .next u → u.inStep ≠ .nothing → Within s0 u

/-- The input consumed for good: `bitpos` where no atomic step is in progress, else where that step began (R6, R131). -/
def State.settled (s : State) : Nat :=
  match s.inStep with
  | .nothing => s.bitpos
  | _ => s.ckpt

/-- The bytes of `SRC` consumed for good, counted from its beginning over every reset (R67, R136): up to what is settled, or, with an
error latched, up to what had been fetched when it was raised. -/
def State.consumed (s : State) : Nat :=
  s.src.base +
    match s.err with
    | none => (s.settled + 7) / 8
    | some _ => s.fetchedAtErr

/-- The kind of element that is read next (R303), if one is. -/
def State.expects (s : State) : Option Format :=
  match s.demanded, s.blk, s.inStep with
  | true, .header, .nothing => some .blkhdr
  | true, .header, .dynHdr h => if h.lens.length < h.total then some .clsym else none
  | true, .huffman _ _ 0 _ _, .nothing => some .litlen
  | true, .huffman _ _ 0 _ _, .awaitDist _ => some .dist
  | _, _, _ => none

/-- `s` with a length read and its distance element to come (R207). -/
def State.awaiting (len : Nat) (s : State) : State := { s with inStep := .awaitDist len }

/-- What a distance does to `s` (R283, R284): the underflow check, then the load of the pending registers. -/
def State.distance (len : Nat) (lt dt : Tree) (final : Bool) (dist : Nat) (s : State) : State :=
  if dist ≤ s.window.written then
    { s with blk := .huffman lt dt len (some dist) final, inStep := .nothing }
  else s.raise .windowUnderflow

/-- `s` with the lengths read so far and `PREV` (R184 to R187). -/
def State.lengths (h : DynHdr) (lens : List Nat) (prev : Option Nat) (s : State) : State :=
  { s with inStep := .dynHdr { h with lens := lens, prev := prev } }

/-- `bs` are the `bs.length` oldest undelivered bytes, oldest first (R29, R166). -/
def Window.Oldest (cap : Nat) (w : Window) (bs : List Byte) : Prop :=
  ∀ i, i < bs.length → bs[i]? = w.byteBack cap (w.avail - i)

/-- What `READ` answers when its loop ends (R305, R306). -/
def State.readAnswer (m : Nat) (bs : List Byte) (s : State) : Response :=
  if bs ≠ [] ∨ m = 0 then .okBytes bs
  else
    match s.err with
    | none => .okBytes []
    | some k => .err k

/-- `r` is what one pass of the loop of `READ(m)` does with `got` delivered so far (R305). -/
def ReadPass (m : Nat) (got : List Byte) (s : State) (r : Result) : Prop :=
  (m ≤ got.length → r = .next (s.respond (s.readAnswer m got))) ∧
  (got.length < m →
    (s.window.avail < min (m - got.length) Config.cap ∧ s.err = none ∧ s.isComplete = false →
      r = .next { s with cur := .read m got }) ∧
    (¬ (s.window.avail < min (m - got.length) Config.cap ∧ s.err = none ∧ s.isComplete = false) →
      ∃ bs t, bs.length = min s.window.avail (min (m - got.length) Config.cap) ∧ s.window.Oldest Config.cap bs ∧
        t = { s with window := { s.window with avail := s.window.avail - bs.length }, out := s.out ++ bs } ∧
        ((bs.length < min (m - got.length) Config.cap ∨ got.length + bs.length = m) →
          r = .next (t.respond (s.readAnswer m (got ++ bs)))) ∧
        (¬ (bs.length < min (m - got.length) Config.cap ∨ got.length + bs.length = m) →
          r = .next { t with cur := .read m (got ++ bs) })))

end Machine
end Sys2Proof
end

