-- ==== Sys2Proof/Certificates/Slice0/Obligations.lean ====
section
/-! DEFINITION. The statements for the provers, from the numbered rules of spec/. A docstring names the rules; where a clause rests on
the model's own choice it names the log entry (notes/assumptions/). -/

open Sys2Proof Sys2Proof.Machine

/-! ### Encoding and decoding -/

/-- Elements written out bit by bit from their encodings decode to the instructions they stand for: headers (R91, R176), a stored
head (R93, R177), a dynamic head (R94), a code-length symbol with its extra bits (R96), symbols by the fixed codes of R100 with
their extra bits (R110, R112), and the four command codes (R116). What no source of the spec states and this rests on: the widths of
the extra fields of `len284` and `dist20` (PRESUMED, entry 10), the order of the bits of a field (PRESUMED, entry 11, D14) and the
command codes with their operand (the spec's own choice, D2; entry 22). -/
def Obligations.SpecWordsDecode : Prop :=
  decode .header ⟨0, byteBits 0x03⟩ = .instr (.blkFixed true) ⟨3, [false, false, false, false, false]⟩ ∧
  decode .header ⟨0, byteBits 0x06⟩ = .instr (.blkReserved false) ⟨3, [false, false, false, false, false]⟩ ∧
  decode .header ⟨0, [0x01, 0x05, 0x00, 0xFA, 0xFF].flatMap byteBits⟩ = .instr (.blkStored true 0x0005 0xFFFA) ⟨40, []⟩ ∧
  decode .header ⟨0, [true, false, true] ++ [true, false, false, false, false] ++ [false, true, false, false, false] ++
      [false, false, false, false] ++
      [false, true, false] ++ [false, false, false] ++ [true, true, false] ++ [true, false, false]⟩ =
    .instr (.blkDynamic true 1 2 [2, 0, 3, 1]) ⟨29, []⟩ ∧
  decode (.clsym (.node (.leaf 3) (.leaf 16)) (some 3)) ⟨0, [true, true, false]⟩ = .instr (.clRep16 1) ⟨3, []⟩ ∧
  decode (.clsym (.node (.leaf 0) (.leaf 18)) none) ⟨0, true :: List.replicate 7 true⟩ = .instr (.clZero18 127) ⟨8, []⟩ ∧
  decode (.litlen fixedLitlenTree) ⟨0, [false, true, true, true, false, false, false, true]⟩ = .instr (.literal 0x41) ⟨8, []⟩ ∧
  decode (.litlen fixedLitlenTree) ⟨0, [false, false, false, false, false, false, false]⟩ = .instr .eob ⟨7, []⟩ ∧
  decode (.litlen fixedLitlenTree) ⟨0, [true, true, false, false, false, true, false, false] ++ [true, false, false, false, false]⟩ =
    .instr (.len284 1) ⟨13, []⟩ ∧
  decode (.litlen fixedLitlenTree) ⟨0, [true, true, false, false, false, true, true, true]⟩ = .instr .llInvalid287 ⟨8, []⟩ ∧
  decode (.dist fixedDistTree) ⟨0, [true, false, true, false, false] ++ true :: List.replicate 8 false⟩ =
    .instr (.dist20 1) ⟨14, []⟩ ∧
  decode (.dist fixedDistTree) ⟨0, [true, true, true, true, false]⟩ = .instr .distInvalid30 ⟨5, []⟩ ∧
  decodeCmd ⟨0b00, 7⟩ = .makeAvailable 7 ∧ decodeCmd ⟨0b01, 7⟩ = .copyOut 7 ∧ decodeCmd ⟨0b10, 7⟩ = .read 7 ∧
  decodeCmd ⟨0b11, 7⟩ = .reset

/-- Decode and encode agree, for every element in every context: whatever the trees, the bit position (which fixes the padding of a
stored head) and the bits that follow, decoding the encoding of a well-formed element gives it back with every operand, and
reading then stands right behind it (R91 to R96, R101, R111, R114). -/
def Obligations.DecodeEncode : Prop :=
  ∀ (ctx : Ctx) (pos : Nat) (i : Instr) (bits rest : List Bool),
    i.WellFormed → encode ctx pos i = some bits →
    decode ctx ⟨pos, bits ++ rest⟩ = .instr i ⟨pos + bits.length, rest⟩

/-- Every well-formed instruction has an encoding: an element in its own context (with the fixed trees of R100, or, for a
code-length symbol, any tree with the 19 symbols and a `PREV`), a command as a command word, which decodes to it (R116). -/
def Obligations.EveryInstrEncodes : Prop :=
  ∀ i : Instr, i.WellFormed →
    match i.tableValue.1 with
    | .blkhdr => ∀ pos, (encode .header pos i).isSome
    | .clsym => ∀ pos p, (encode (.clsym fixedDistTree (some p)) pos i).isSome
    | .litlen => ∀ pos, (encode (.litlen fixedLitlenTree) pos i).isSome
    | .dist => ∀ pos, (encode (.dist fixedDistTree) pos i).isSome
    | .hostcmd => ∃ w, encodeCmd i = some w ∧ decodeCmd w = i

/-- A decoded element is well-formed; exactly the bits between the two positions were read; no bit behind them has any effect; and
with any fewer bits present there is no element (R114, R136: "never over-reads ahead"). -/
def Obligations.DecodeReadsExactly : Prop :=
  ∀ (ctx : Ctx) (c c' : Cursor) (i : Instr), decode ctx c = .instr i c' →
    i.WellFormed ∧
    ∃ used, c.bits = used ++ c'.bits ∧ c'.pos = c.pos + used.length ∧
      (∀ rest, decode ctx ⟨c.pos, used ++ rest⟩ = .instr i ⟨c.pos + used.length, rest⟩) ∧
      ∀ n, n < used.length → decode ctx ⟨c.pos, used.take n⟩ = .short

/-- A word of the opcode table stands for a well-formed instruction, and the machine with that word placed runs that instruction as
its very next step, in whatever state it was (entries 16 and 17: the model's choice of where a word is placed). -/
def Obligations.PlacedWordRuns : Prop :=
  ∀ (s : State) (nbits w : Nat) (i : Instr), decodeTableWord nbits w = some i →
    i.WellFormed ∧
    ∃ u, step (s.withFetchWord nbits w) = exec i u ∧
      u.window = s.window ∧ u.out = s.out ∧ u.params = s.params ∧ u.resp = s.resp ∧
      (i.tableValue.1 ≠ .hostcmd → u.expects = some i.tableValue.1)

/-! ### The BitChannel -/

/-- The next bits of the input are the bits of `SRC` from `bitpos` on, each byte least significant bit first (R25, R61). `base` is
where the stream begins in `SRC` (entry 5). -/
def Obligations.CursorReadsSource : Prop :=
  ∀ (s : State) (i : Nat),
    s.cursor.pos = s.bitpos ∧
    s.cursor.bits[i]? =
      (s.src.bytes[s.src.base + (s.bitpos + i) / 8]?).map (fun b => b.getLsbD ((s.bitpos + i) % 8))

/-- `read_bits(k)`: a value below `2^k` whose bit `j` is the `j`-th bit read; where fewer bits are present there is no value (R132,
R62). That the first bit read is the least significant is PRESUMED (entry 11; general knowledge by the spec's own mark, D14). No
call returns more than `FIELD_MAX` bits (R7): beyond it there is no value (entry 26), and no extra field asks for more than 13
(R132). -/
def Obligations.FieldLowBitFirst : Prop :=
  (∀ (k : Nat) (c : Cursor), k ≤ Config.fieldMax →
    (k ≤ c.bits.length →
      ∃ v, readBits k c = some (v, ⟨c.pos + k, c.bits.drop k⟩) ∧ v < 2 ^ k ∧
        ∀ j, j < k → c.bits[j]? = some (v.testBit j)) ∧
    (c.bits.length < k → readBits k c = none)) ∧
  (∀ (k : Nat) (c : Cursor), Config.fieldMax < k → readBits k c = none) ∧
  Config.fieldMax = 32 ∧ (∀ sym, lengthExtraOf sym ≤ 13) ∧ (∀ ds, distExtraOf ds ≤ 13) ∧
  ∀ sym prev, clExtraOf sym prev ≤ 13

/-- `read_u16le()` equals `read_bits(16)` (R64, R134). -/
def Obligations.U16IsSixteenBits : Prop :=
  ∀ c : Cursor, readU16le c = (readBits 16 c).map (fun r => (BitVec.ofNat 16 r.1, r.2))

/-! ### CanonicalCode and CodeTree -/

/-- The two fixed trees are what the lengths of R99 give, and they spell the codes of R100. -/
def Obligations.FixedTrees : Prop :=
  buildReject Config.fixedLitlenLengths = .ok fixedLitlenTree ∧ buildReject Config.fixedDistLengths = .ok fixedDistTree ∧
  (∀ s, s < 144 → fixedLitlenTree.path s = some (codeBits 8 (0x30 + s))) ∧
  (∀ s, 144 ≤ s → s < 256 → fixedLitlenTree.path s = some (codeBits 9 (0x190 + (s - 144)))) ∧
  (∀ s, 256 ≤ s → s < 280 → fixedLitlenTree.path s = some (codeBits 7 (s - 256))) ∧
  (∀ s, 280 ≤ s → s < 288 → fixedLitlenTree.path s = some (codeBits 8 (0xC0 + (s - 280)))) ∧
  (∀ s, s < 32 → fixedDistTree.path s = some (codeBits 5 s))

/-- `canonical` gives each used symbol, in ascending order, its length and the first code of that length plus the number of earlier
symbols of the same length; the first codes follow the recurrence of step 2, with unused symbols not counted (R141, R143,
R145 a); the empty array is the only error (R142). -/
def Obligations.CanonicalCodes : Prop :=
  (∀ lengths : List Nat, lengths ≠ [] →
    canonical lengths =
      .ok ((usedSymbols 0 lengths).map fun sym =>
        (sym, (lengths.getD sym 0,
          firstCode lengths (lengths.getD sym 0) + (lengths.take sym).count (lengths.getD sym 0))))) ∧
  canonical [] = .error .invalidHuffmanCodes ∧
  (∀ lengths : List Nat, firstCode lengths 1 = 0) ∧
  ∀ (lengths : List Nat) (L : Nat), 0 < L →
    firstCode lengths (L + 1) = 2 * (firstCode lengths L + lengths.count L)

/-- The leaf of a symbol lies on the path its code spells, first stream bit at the root; there are no other leaves (R151, R153). -/
def Obligations.BuiltTreeSpellsCodes : Prop :=
  ∀ (lengths : List Nat) (codes : List SymCode) (t : Tree),
    canonical lengths = .ok codes → buildReject lengths = .ok t →
    (∀ sym L c, (sym, (L, c)) ∈ codes → t.path sym = some (codeBits L c)) ∧
    ∀ (c c' : Cursor) (sym : Nat), decodeSym t c = some (sym, c') →
      ∃ L code, (sym, (L, code)) ∈ codes ∧ c.bits = codeBits L code ++ c'.bits ∧ c'.pos = c.pos + L

/-- A build that succeeds has Kraft sum exactly 1 and at least two codes (R153, one direction). -/
def Obligations.BuildNeedsKraftOne : Prop :=
  ∀ (lengths : List Nat) (t : Tree), buildReject lengths = .ok t →
    kraftSum (maxLength lengths) lengths = 2 ^ maxLength lengths ∧ 2 ≤ (usedSymbols 0 lengths).length

/-- Lengths with Kraft sum exactly 1 and at least two codes build (R153, the other direction). -/
def Obligations.KraftOneBuilds : Prop :=
  ∀ lengths : List Nat,
    kraftSum (maxLength lengths) lengths = 2 ^ maxLength lengths → 2 ≤ (usedSymbols 0 lengths).length →
    ∃ t, buildReject lengths = .ok t

/-- Tables with one code or none, under both values of `SINGLE_CODE_POLICY`; with two codes or more the values agree; a table is
refused with `InvalidHuffmanCodes` and nothing else; a one-leaf tree decodes without reading a bit (R154, R155, D8; entry 14 for
the array of size 1). -/
def Obligations.SingleCodePolicies : Prop :=
  (∀ lengths, (usedSymbols 0 lengths).length ≤ 1 → buildTable .reject lengths = .error .invalidHuffmanCodes) ∧
  (∀ lengths sym, usedSymbols 0 lengths = [sym] → buildTable .zeroBitLeaf lengths = .ok (.leaf sym)) ∧
  (∀ lengths, usedSymbols 0 lengths = [] → lengths.length ≠ 1 →
    buildTable .zeroBitLeaf lengths = .error .invalidHuffmanCodes) ∧
  (∀ lengths, 2 ≤ (usedSymbols 0 lengths).length → buildTable .zeroBitLeaf lengths = buildTable .reject lengths) ∧
  (∀ p lengths k, buildTable p lengths = .error k → k = .invalidHuffmanCodes) ∧
  ∀ sym c, decodeSym (.leaf sym) c = some (sym, c)

/-! ### SlidingWindow, any capacity (R7, R160) -/

/-- `win_put(b)` (R161): the four updates, and no other cell changes. -/
def Obligations.WindowPut : Prop :=
  ∀ (cap : Nat) (b : Byte) (w : Window),
    (w.put cap b).cells.read w.wpos = some b ∧
    (∀ a, a ≠ w.wpos → (w.put cap b).cells.read a = w.cells.read a) ∧
    (w.put cap b).wpos = (w.wpos + 1) % cap ∧
    (w.put cap b).written = min (w.written + 1) cap ∧
    (w.put cap b).avail = w.avail + 1

/-- The window operations keep the invariant of R36, within their preconditions, and always find the bytes they read (R161, R164,
R165, R168); the distance test refuses exactly the distances beyond what was written (R163). -/
def Obligations.WindowOpsKeepInv : Prop :=
  ∀ (cap : Nat) (w : Window), w.inv cap = true →
    (∀ b, w.avail < cap → (w.put cap b).inv cap = true) ∧
    (∀ d len, 1 ≤ d → d ≤ w.written → w.avail + len ≤ cap →
      ∃ w', w.selfCopyRun cap d len = some w' ∧ w'.inv cap = true ∧ w'.avail = w.avail + len ∧
        w'.written = min (w.written + len) cap ∧ w'.wpos = (w.wpos + len) % cap ∧
        w.selfCopy cap d len = .ok (some w')) ∧
    (∀ d len, w.written < d → w.selfCopy cap d len = .error .windowUnderflow)

/-- A back-reference is byte-serial: byte `j` of the copy is the byte that stood `d - j mod d` bytes back, so the last `d` bytes
repeat where `d < len`; what was there before is still there behind the copy (R72, R165). -/
def Obligations.SelfCopyRepeats : Prop :=
  ∀ (cap : Nat) (w w' : Window) (d len : Nat),
    w.inv cap = true → 1 ≤ d → d ≤ w.written → w.avail + len ≤ cap → w.selfCopyRun cap d len = some w' →
    (∀ j, j < len → w'.byteBack cap (len - j) = w.byteBack cap (d - j % d)) ∧
    (∀ e, 1 ≤ e → e + len ≤ cap → w'.byteBack cap (len + e) = w.byteBack cap e)

/-- A copy may be split anywhere (R163, R204). At distance 0, where the spec has no rule, a byte is never copied: the model's choice
(entry 19, D24). -/
def Obligations.SelfCopySplits : Prop :=
  ∀ (cap d a b : Nat) (w : Window),
    w.selfCopyRun cap d (a + b) = (w.selfCopyRun cap d a).bind (fun w' => w'.selfCopyRun cap d b)

/-- `win_copy_out(k)`: the `k` oldest undelivered bytes, oldest first; only `AVAIL` changes (R166). -/
def Obligations.CopyOutOldestFirst : Prop :=
  ∀ (cap k : Nat) (w : Window), w.inv cap = true → k ≤ w.avail →
    ∃ bs, w.copyOut cap k = some (bs, { w with avail := w.avail - k }) ∧ bs.length = k ∧ w.Oldest cap bs ∧
      ∀ b, b ∈ bs → ∃ d, 1 ≤ d ∧ d ≤ w.avail ∧ w.byteBack cap d = some b

/-! ### Block headers -/

/-- `BLK_STORED`: `LEN` against `0xFFFF - NLEN`; then the block is active with `REMAINING = LEN`, and nothing else changes; else
`NonMatchingLengthFields` (R177). -/
def Obligations.StoredHeader : Prop :=
  ∀ (s : State) (final : Bool) (len nlen : BitVec 16), s.AtHeader →
    (len.toNat = 0xFFFF - nlen.toNat →
      exec (.blkStored final len nlen) s = .next { s with blk := .uncompressed len.toNat final }) ∧
    (len.toNat ≠ 0xFFFF - nlen.toNat →
      exec (.blkStored final len nlen) s = .next (s.raise .nonMatchingLengthFields))

/-- The padding of a stored head is skipped without being looked at: its bits may be anything (R65, R93, R133, R177). -/
def Obligations.PaddingIgnored : Prop :=
  ∀ (pos : Nat) (final : Bool) (pad pad' rest : List Bool),
    pad.length = (8 - (pos + 3) % 8) % 8 → pad'.length = pad.length →
    decode .header ⟨pos, final :: false :: false :: (pad ++ rest)⟩ =
      decode .header ⟨pos, final :: false :: false :: (pad' ++ rest)⟩ ∧
    ∀ i c, decode .header ⟨pos, final :: false :: false :: (pad ++ rest)⟩ = .instr i c →
      c.pos = pos + 3 + pad.length + 32 ∧ c.pos % 8 = 0

/-- `BLK_FIXED`: no bit is read beyond the three header bits; both fixed tables build, and the block is active with them, nothing
pending, `IS_FINAL = BFINAL`; nothing else changes (R178). -/
def Obligations.FixedHeader : Prop :=
  (∀ (final : Bool) (pos : Nat) (rest : List Bool),
    decode .header ⟨pos, final :: true :: false :: rest⟩ = .instr (.blkFixed final) ⟨pos + 3, rest⟩) ∧
  ∀ (s : State) (final : Bool), s.AtHeader →
    ∃ lt dt, buildReject Config.fixedLitlenLengths = .ok lt ∧ buildReject Config.fixedDistLengths = .ok dt ∧
      exec (.blkFixed final) s = .next { s with blk := .huffman lt dt 0 none final }

/-- `BLK_RESERVED`: right after the three header bits, whatever BFINAL is and whatever follows, `InvalidBlockType` (R179). -/
def Obligations.ReservedHeader : Prop :=
  ∀ (s : State) (final : Bool) (pos : Nat) (rest : List Bool),
    decode .header ⟨pos, final :: true :: true :: rest⟩ = .instr (.blkReserved final) ⟨pos + 3, rest⟩ ∧
    (s.AtHeader → exec (.blkReserved final) s = .next (s.raise .invalidBlockType))

/-- `CL_LEN[CL_ORDER[i]]` is the `i`-th value read; "slots not filled remain 0" (R181, R95). -/
def Obligations.ClLenSlots : Prop :=
  Config.clOrder = [16, 17, 18, 0, 8, 7, 9, 6, 10, 5, 11, 4, 12, 3, 13, 2, 14, 1, 15] ∧
  ∀ cls : List Nat,
    (fillClLen cls).length = 19 ∧
    ∀ i, i < 19 → (fillClLen cls)[Config.clOrder.getD i 0]? = some (cls.getD i 0)

/-- `BLK_DYNAMIC`: the biased counts, the code-length tree, an empty `LENS` and no `PREV`; a table that does not build is
`InvalidHuffmanCodes` at once (R180 to R183, R192). Nothing else changes. -/
def Obligations.DynamicHeader : Prop :=
  ∀ (s : State) (final : Bool) (hlit hdist : Nat) (cls : List Nat), s.AtHeader →
    (∀ t, buildTable s.params.singleCode (fillClLen cls) = .ok t →
      exec (.blkDynamic final hlit hdist cls) s =
        .next { s with inStep := .dynHdr ⟨final, hlit + 257, hdist + 1, t, [], none⟩ }) ∧
    ((∀ t, buildTable s.params.singleCode (fillClLen cls) ≠ .ok t) →
      exec (.blkDynamic final hlit hdist cls) s = .next (s.raise .invalidHuffmanCodes))

/-- The four code-length elements (R184 to R189): the lengths they append, `PREV`, the overrun error, symbol 16 without a previous
length; `PREV` after a zero run by `REP16_AFTER_ZERO_RUN` (D12; entry 9). Nothing else changes. -/
def Obligations.CodeLengthSymbols : Prop :=
  ∀ (s : State) (h : DynHdr), s.AtLengths h →
    (∀ v, exec (.clLen v) s = .next (s.lengths h (h.lens ++ [v]) (some v))) ∧
    (∀ e, h.prev = none → exec (.clRep16 e) s = .next (s.raise .invalidHuffmanCodes)) ∧
    (∀ e p, h.prev = some p →
      exec (.clRep16 e) s =
        .next (if h.lens.length + (e + 3) ≤ h.hlit + h.hdist then s.lengths h (h.lens ++ List.replicate (e + 3) p) (some p)
          else s.raise .invalidHuffmanCodes)) ∧
    ∀ prev,
      (s.params.rep16 = .fault → prev = none) → (s.params.rep16 = .keepLiteral → prev = h.prev) →
      (s.params.rep16 = .zero → prev = some 0) →
      (∀ e, exec (.clZero17 e) s =
        .next (if h.lens.length + (e + 3) ≤ h.hlit + h.hdist then s.lengths h (h.lens ++ List.replicate (e + 3) 0) prev
          else s.raise .invalidHuffmanCodes)) ∧
      (∀ e, exec (.clZero18 e) s =
        .next (if h.lens.length + (e + 11) ≤ h.hlit + h.hdist then s.lengths h (h.lens ++ List.replicate (e + 11) 0) prev
          else s.raise .invalidHuffmanCodes))

/-- The end of a dynamic header, once `HLIT + HDIST` lengths are there: split at `HLIT`, build both trees, the block is active;
`InvalidHuffmanCodes` where either does not build (R190). It reads no bit. -/
def Obligations.DynamicHeaderEnd : Prop :=
  ∀ (s : State) (h : DynHdr), s.stepDue = true → s.inStep = .dynHdr h → h.hlit + h.hdist ≤ h.lens.length →
    (∀ lt dt, buildTable s.params.singleCode (h.lens.take h.hlit) = .ok lt →
      buildTable s.params.singleCode ((h.lens.drop h.hlit).take h.hdist) = .ok dt →
      step s = .next { s with blk := .huffman lt dt 0 none h.final, inStep := .nothing }) ∧
    ((∀ lt, buildTable s.params.singleCode (h.lens.take h.hlit) ≠ .ok lt) ∨
      (∀ dt, buildTable s.params.singleCode ((h.lens.drop h.hlit).take h.hdist) ≠ .ok dt) →
      step s = .next (s.raise .invalidHuffmanCodes))

/-! ### Block bodies -/

/-- Symbols 0 to 255 are `LITERAL`, 256 is `EOB`, and no further bit is read. `LITERAL` puts the byte of its symbol's number; `EOB`
ends the block: `Complete` where it was final, else `Header`, with its trees dropped. Nothing else changes (R205, R206). -/
def Obligations.LiteralAndEob : Prop :=
  (∀ (t : Tree) (c c' : Cursor) (sym : Nat), decodeSym t c = some (sym, c') → sym < 256 →
    decode (.litlen t) c = .instr (.literal (BitVec.ofNat 8 sym)) c') ∧
  (∀ (t : Tree) (c c' : Cursor), decodeSym t c = some (256, c') → decode (.litlen t) c = .instr .eob c') ∧
  ∀ (s : State) (lt dt : Tree) (dist : Option Nat) (final : Bool), s.AtSymbol lt dt dist final →
    (∀ b, exec (.literal b) s = .next { s with window := s.window.put Config.cap b }) ∧
    (final = true → exec .eob s = .next { s with blk := .complete }) ∧
    (final = false → exec .eob s = .next { s with blk := .header })

/-- `LEN_257` to `LEN_285`: `len` is base plus extra value, for every extra value; the distance element is next; nothing else
changes (R207 to R236). The bases and widths are general knowledge by the spec's own mark (R110; entry 10); that the length waits
for its distance between two steps is entry 1. -/
def Obligations.LengthCodes : Prop :=
  ∀ (s : State) (lt dt : Tree) (dist : Option Nat) (final : Bool), s.AtSymbol lt dt dist final →
    exec .len257 s = .next (s.awaiting 3) ∧ exec .len258 s = .next (s.awaiting 4) ∧
    exec .len259 s = .next (s.awaiting 5) ∧ exec .len260 s = .next (s.awaiting 6) ∧
    exec .len261 s = .next (s.awaiting 7) ∧ exec .len262 s = .next (s.awaiting 8) ∧
    exec .len263 s = .next (s.awaiting 9) ∧ exec .len264 s = .next (s.awaiting 10) ∧
    (∀ e, e < 2 → exec (.len265 e) s = .next (s.awaiting (11 + e)) ∧ exec (.len266 e) s = .next (s.awaiting (13 + e)) ∧
      exec (.len267 e) s = .next (s.awaiting (15 + e)) ∧ exec (.len268 e) s = .next (s.awaiting (17 + e))) ∧
    (∀ e, e < 4 → exec (.len269 e) s = .next (s.awaiting (19 + e)) ∧ exec (.len270 e) s = .next (s.awaiting (23 + e)) ∧
      exec (.len271 e) s = .next (s.awaiting (27 + e)) ∧ exec (.len272 e) s = .next (s.awaiting (31 + e))) ∧
    (∀ e, e < 8 → exec (.len273 e) s = .next (s.awaiting (35 + e)) ∧ exec (.len274 e) s = .next (s.awaiting (43 + e)) ∧
      exec (.len275 e) s = .next (s.awaiting (51 + e)) ∧ exec (.len276 e) s = .next (s.awaiting (59 + e))) ∧
    (∀ e, e < 16 → exec (.len277 e) s = .next (s.awaiting (67 + e)) ∧ exec (.len278 e) s = .next (s.awaiting (83 + e)) ∧
      exec (.len279 e) s = .next (s.awaiting (99 + e)) ∧ exec (.len280 e) s = .next (s.awaiting (115 + e))) ∧
    (∀ e, e < 32 → exec (.len281 e) s = .next (s.awaiting (131 + e)) ∧ exec (.len282 e) s = .next (s.awaiting (163 + e)) ∧
      exec (.len283 e) s = .next (s.awaiting (195 + e)) ∧ exec (.len284 e) s = .next (s.awaiting (227 + e))) ∧
    exec .len285 s = .next (s.awaiting 258)

/-- `DIST_0` to `DIST_29`: `dist` is base plus extra value, for every extra value; where it reaches beyond `WRITTEN`,
`WindowUnderflow`, else the pending registers are loaded and nothing else changes (R250 to R280, R283, R284). The bases and
widths are general knowledge by the spec's own mark (R112; entry 10). -/
def Obligations.DistanceCodes : Prop :=
  ∀ (s : State) (len : Nat) (lt dt : Tree) (old : Option Nat) (f : Bool), s.AtDistance len lt dt old f →
    exec .dist0 s = .next (s.distance len lt dt f 1) ∧ exec .dist1 s = .next (s.distance len lt dt f 2) ∧
    exec .dist2 s = .next (s.distance len lt dt f 3) ∧ exec .dist3 s = .next (s.distance len lt dt f 4) ∧
    (∀ e, e < 2 → exec (.dist4 e) s = .next (s.distance len lt dt f (5 + e)) ∧
      exec (.dist5 e) s = .next (s.distance len lt dt f (7 + e))) ∧
    (∀ e, e < 4 → exec (.dist6 e) s = .next (s.distance len lt dt f (9 + e)) ∧
      exec (.dist7 e) s = .next (s.distance len lt dt f (13 + e))) ∧
    (∀ e, e < 8 → exec (.dist8 e) s = .next (s.distance len lt dt f (17 + e)) ∧
      exec (.dist9 e) s = .next (s.distance len lt dt f (25 + e))) ∧
    (∀ e, e < 16 → exec (.dist10 e) s = .next (s.distance len lt dt f (33 + e)) ∧
      exec (.dist11 e) s = .next (s.distance len lt dt f (49 + e))) ∧
    (∀ e, e < 32 → exec (.dist12 e) s = .next (s.distance len lt dt f (65 + e)) ∧
      exec (.dist13 e) s = .next (s.distance len lt dt f (97 + e))) ∧
    (∀ e, e < 64 → exec (.dist14 e) s = .next (s.distance len lt dt f (129 + e)) ∧
      exec (.dist15 e) s = .next (s.distance len lt dt f (193 + e))) ∧
    (∀ e, e < 128 → exec (.dist16 e) s = .next (s.distance len lt dt f (257 + e)) ∧
      exec (.dist17 e) s = .next (s.distance len lt dt f (385 + e))) ∧
    (∀ e, e < 256 → exec (.dist18 e) s = .next (s.distance len lt dt f (513 + e)) ∧
      exec (.dist19 e) s = .next (s.distance len lt dt f (769 + e))) ∧
    (∀ e, e < 512 → exec (.dist20 e) s = .next (s.distance len lt dt f (1025 + e)) ∧
      exec (.dist21 e) s = .next (s.distance len lt dt f (1537 + e))) ∧
    (∀ e, e < 1024 → exec (.dist22 e) s = .next (s.distance len lt dt f (2049 + e)) ∧
      exec (.dist23 e) s = .next (s.distance len lt dt f (3073 + e))) ∧
    (∀ e, e < 2048 → exec (.dist24 e) s = .next (s.distance len lt dt f (4097 + e)) ∧
      exec (.dist25 e) s = .next (s.distance len lt dt f (6145 + e))) ∧
    (∀ e, e < 4096 → exec (.dist26 e) s = .next (s.distance len lt dt f (8193 + e)) ∧
      exec (.dist27 e) s = .next (s.distance len lt dt f (12289 + e))) ∧
    (∀ e, e < 8192 → exec (.dist28 e) s = .next (s.distance len lt dt f (16385 + e)) ∧
      exec (.dist29 e) s = .next (s.distance len lt dt f (24577 + e)))

/-- Literal/length symbols 286 and 287: `InvalidLiteralLengthSymbol`, right after the symbol; no further bit is read (R237, R238). -/
def Obligations.InvalidLengthSymbols : Prop :=
  (∀ (t : Tree) (c c' : Cursor), decodeSym t c = some (286, c') → decode (.litlen t) c = .instr .llInvalid286 c') ∧
  (∀ (t : Tree) (c c' : Cursor), decodeSym t c = some (287, c') → decode (.litlen t) c = .instr .llInvalid287 c') ∧
  ∀ (s : State) (lt dt : Tree) (dist : Option Nat) (f : Bool), s.AtSymbol lt dt dist f →
    exec .llInvalid286 s = .next (s.raise .invalidLiteralLengthSymbol) ∧
    exec .llInvalid287 s = .next (s.raise .invalidLiteralLengthSymbol)

/-- Distance symbols 30 and 31: `InvalidHuffmanCodes`, right after the symbol (R281, R282: the spec's own decision D10). -/
def Obligations.InvalidDistanceSymbols : Prop :=
  (∀ (t : Tree) (c c' : Cursor), decodeSym t c = some (30, c') → decode (.dist t) c = .instr .distInvalid30 c') ∧
  (∀ (t : Tree) (c c' : Cursor), decodeSym t c = some (31, c') → decode (.dist t) c = .instr .distInvalid31 c') ∧
  ∀ (s : State) (len : Nat) (lt dt : Tree) (dist : Option Nat) (f : Bool), s.AtDistance len lt dt dist f →
    exec .distInvalid30 s = .next (s.raise .invalidHuffmanCodes) ∧
    exec .distInvalid31 s = .next (s.raise .invalidHuffmanCodes)

/-- A stream element runs to a next state exactly where R303 (with R183, R207) has it read; elsewhere its meaning stops with
`elementOutOfPlace` (entry 12: the model's own stop). -/
def Obligations.ElementsRunWhereDue : Prop :=
  ∀ (s : State) (i : Instr), i.tableValue.1 ≠ .hostcmd →
    (s.expects = some i.tableValue.1 → ∃ t, exec i s = .next t) ∧
    (s.expects ≠ some i.tableValue.1 → exec i s = .fault .elementOutOfPlace)

/-! ### Error entry -/

/-- Error entry (R335): `ERR` takes the kind; a running `MAKE_AVAILABLE` ends with `Err(kind)`; a running `READ` goes on; window,
`OUT` and `SRC` are as they were; the transient registers are dropped. `STATE` and `bitpos` are left open (free values, entry 6); the
source's count of the bytes it has handed over is kept (R136; entry 5). -/
def Obligations.ErrorEntry : Prop :=
  ∀ (s : State) (k : ErrorKind),
    (s.raise k).err = some k ∧ (s.raise k).window = s.window ∧ (s.raise k).out = s.out ∧ (s.raise k).src = s.src ∧
    (s.raise k).cmds = s.cmds ∧ (s.raise k).params = s.params ∧ (s.raise k).inStep = .nothing ∧
    (s.raise k).fetched = s.fetched ∧
    (∀ n, s.cur = .makeAvail n → (s.raise k).cur = .idle ∧ (s.raise k).resp = s.resp ++ [.err k]) ∧
    (∀ m got, s.cur = .read m got → (s.raise k).cur = s.cur ∧ (s.raise k).resp = s.resp)

/-- A step that raises has no effect on the window, `OUT` or `SRC`, and the kind it latches is the only one (R340). -/
def Obligations.ErrorsPrecise : Prop :=
  ∀ (s t : State) (k : ErrorKind), step s = .next t → s.err = none → t.err = some k →
    t.window = s.window ∧ t.out = s.out ∧ t.src = s.src ∧
    (∀ n, s.cur = .makeAvail n → t.cur = .idle ∧ t.resp = s.resp ++ [.err k]) ∧
    (∀ m got, s.cur = .read m got → t.cur = s.cur ∧ t.resp = s.resp)

/-- "There is no return-from-error operation and no way to clear ERR except reset" (R341): a reset clears it; every other step keeps
the kind, so that there is no second error, reads no input and produces no byte. -/
def Obligations.ErrorSticky : Prop :=
  ∀ (s t : State) (k : ErrorKind), s.err = some k → step s = .next t →
    (s.takesReset = true → t.err = none) ∧
    (s.takesReset = false →
      t.err = some k ∧ t.bitpos = s.bitpos ∧ t.src = s.src ∧ t.fetched = s.fetched ∧
      t.window.cells = s.window.cells ∧ t.window.written = s.window.written ∧ t.window.wpos = s.window.wpos ∧
      t.window.avail ≤ s.window.avail)

/-- While an error is latched no step looks at `STATE`, its payload or `bitpos` (R335, D23): with any others a reset gives the very
same state, and every other step does the same and leaves them as they are. -/
def Obligations.ErrorStateUnread : Prop :=
  ∀ (s : State) (b : BlockState) (p : Nat), s.err.isSome = true →
    (s.takesReset = true → step { s with blk := b, bitpos := p } = step s) ∧
    (s.takesReset = false →
      step { s with blk := b, bitpos := p } =
        match step s with
        | .next t => .next { t with blk := b, bitpos := p }
        | .fault f => .fault f
        | .refused r => .refused r)

/-! ### Host commands -/

/-- `MAKE_AVAILABLE(n)` taken where no command runs (R301): enough already, an error latched, end of stream, or the command goes on
with `target = n`; nothing else changes. `n > CAP` is refused (R310). -/
def Obligations.MakeAvailable : Prop :=
  ∀ (s : State) (n : Nat), s.cur = .idle →
    (Config.cap < n → exec (.makeAvailable n) s = .refused .requestAboveCapacity) ∧
    (n ≤ Config.cap →
      (n ≤ s.window.avail → exec (.makeAvailable n) s = .next (s.respond (.okCount s.window.avail))) ∧
      (s.window.avail < n → ∀ k, s.err = some k → exec (.makeAvailable n) s = .next (s.respond (.err k))) ∧
      (s.window.avail < n → s.err = none → s.blk = .complete →
        exec (.makeAvailable n) s = .next (s.respond (.okCount s.window.avail))) ∧
      (s.window.avail < n → s.err = none → s.blk ≠ .complete →
        exec (.makeAvailable n) s = .next { s with cur := .makeAvail n }))

/-- A running `MAKE_AVAILABLE(n)` with no decoder step due responds (R301, R302): `Ok(AVAIL)`, with `AVAIL < n` only at the end of
the stream, or the latched error. -/
def Obligations.MakeAvailableResponds : Prop :=
  ∀ (s : State) (n : Nat), s.cur = .makeAvail n → s.stepDue = false →
    (n ≤ s.window.avail → step s = .next (s.respond (.okCount s.window.avail))) ∧
    (s.window.avail < n → ∀ k, s.err = some k → step s = .next (s.respond (.err k))) ∧
    (s.window.avail < n → s.err = none → s.blk = .complete ∧ step s = .next (s.respond (.okCount s.window.avail)))

/-- `COPY_OUT(k)`: the `k` oldest undelivered bytes go to `OUT` and to the host, whether or not an error is latched; only `AVAIL`,
`OUT` and the responses change; `k > AVAIL` is refused (R304, R166, R310). -/
def Obligations.CopyOut : Prop :=
  ∀ (s : State) (k : Nat), s.Inv → s.cur = .idle →
    (s.window.avail < k → exec (.copyOut k) s = .refused .copyOutAboveAvailable) ∧
    (k ≤ s.window.avail →
      ∃ bs, bs.length = k ∧ s.window.Oldest Config.cap bs ∧
        exec (.copyOut k) s = .next { s with
          window := { s.window with avail := s.window.avail - k }
          out := s.out ++ bs
          resp := s.resp ++ [.bytes bs] })

/-- `READ(m)`, any `m`: what it does when it is taken and at each later pass of its loop (R305, R306, R342; the loop is the spec's
own reading, D27). It never stops. -/
def Obligations.ReadLoop : Prop :=
  ∀ (s : State) (m : Nat), s.Inv →
    (s.cur = .idle → (∃ t, exec (.read m) s = .next t) ∧ ReadPass m [] s (exec (.read m) s)) ∧
    (∀ got, s.cur = .read m got → s.stepDue = false → (∃ t, step s = .next t) ∧ ReadPass m got s (step s))

/-- `RESET`: a fresh decoder (R307, R370), in every state between commands, an error latched or the stream complete included.
`SRC`, `SRC_END` and what the source and the host will still do are not changed; decoding starts at the first byte not yet
fetched (entry 5: the model's reading of R45, R371), counted from `bitpos` only where no error is latched (R335). -/
def Obligations.Reset : Prop :=
  ∀ s : State, s.cur = .idle →
    exec .reset s = .next { State.reset with
      src := { s.src with base := s.src.base + s.fetched }
      cmds := s.cmds
      resp := s.resp
      params := s.params
      freeCtr := s.freeCtr } ∧
    (s.err = none → s.fetched = (s.bitpos + 7) / 8) ∧
    (∀ k, s.err = some k → s.fetched = s.fetchedAtErr)

/-- A host command while another runs is a contract violation and is refused (R345 d). -/
def Obligations.CommandWhileRunning : Prop :=
  ∀ (s : State) (w : CmdWord), s.cur ≠ .idle → exec (decodeCmd w) s = .refused .commandWhileRunning

/-! ### One step of the machine -/

/-- Where an element is due and its bits are there, the step is the meaning of the decoded element, at the state with `bitpos`
behind it (and with the start of the atomic step noted, entry 1). -/
def Obligations.StepRunsElement : Prop :=
  ∀ (s : State) (ctx : Ctx) (i : Instr) (c : Cursor),
    s.stepDue = true → s.ctx = some ctx → decode ctx s.cursor = .instr i c →
    step s = exec i { s with
      bitpos := c.pos
      ckpt := match s.inStep with
        | .nothing => s.bitpos
        | _ => s.ckpt }

/-- Between commands the step is the host's next command; where there is none nothing changes (R300). -/
def Obligations.StepTakesCommand : Prop :=
  ∀ s : State, s.cur = .idle →
    (s.cmds = [] → step s = .next s) ∧
    (∀ w rest, s.cmds = w :: rest → step s = exec (decodeCmd w) { s with cmds := rest })

/-- An element or a stored byte whose bits are not all there: with `SRC_END` set, `UnexpectedEndOfInput`, every bit that was there
having been read (which only the count of bytes fetched shows, entry 5); else the step does not occur (R131, R338), and the byte
source acts (entry 3). -/
def Obligations.InputMissing : Prop :=
  ∀ s : State, s.stepDue = true →
    (∀ ctx, s.ctx = some ctx → decode ctx s.cursor = .short →
      (s.src.ended = true → step s = .next (s.readOut.raise .unexpectedEndOfInput)) ∧
      (s.src.ended = false → step s = .next s.hold)) ∧
    (∀ r f, s.inStep = .nothing → s.blk = .uncompressed (r + 1) f → s.cursor.bits.length < 8 →
      (s.src.ended = true → step s = .next (s.readOut.raise .unexpectedEndOfInput)) ∧
      (s.src.ended = false → step s = .next s.hold))

/-- The hold of a step that has begun, or not: the machine is as it was before the step, `STATE`, window, `OUT`, `ERR` and commands
included, and the source has delivered its next event (R131; entry 3). -/
def Obligations.HeldStepUndone : Prop :=
  ∀ s0 u : State, Within s0 u →
    { u.rollback with ckpt := s0.ckpt } = s0 ∧
    ∀ ctx, u.ctx = some ctx → decode ctx u.cursor = .short → u.src.ended = false →
      step u = .next { s0 with src := s0.src.deliver, ckpt := s0.bitpos }

/-- One byte of a stored block: the byte of `SRC` at `bitpos` is put, `bitpos` moves by 8, `REMAINING` by 1 (R135, R162, R201; one
byte to a step, D17). -/
def Obligations.StoredByte : Prop :=
  ∀ (s : State) (r : Nat) (f : Bool) (b : Byte),
    s.stepDue = true → s.inStep = .nothing → s.blk = .uncompressed (r + 1) f → s.bitpos % 8 = 0 →
    s.src.bytes[s.src.base + s.bitpos / 8]? = some b →
    step s = .next { s with
      window := s.window.put Config.cap b
      blk := .uncompressed r f
      bitpos := s.bitpos + 8
      ckpt := s.bitpos }

/-- Stored-block completion: "if IS_FINAL = 1: STATE <- Complete else: STATE <- Header"; it reads nothing and changes nothing else
(R202). -/
def Obligations.StoredDone : Prop :=
  ∀ (s : State) (f : Bool), s.stepDue = true → s.inStep = .nothing → s.blk = .uncompressed 0 f →
    step s = .next { s with blk := if f then .complete else .header }

/-- The pending copy: `k = min(PENDING_LEN, need)` bytes from `PENDING_DIST` back, the rest kept for later; no input is read, no
error raised (R204). That `PENDING_DIST` is `none` once the copy has ended is the model's choice (entry 18; R204 leaves it, R23 gives
it no meaning there). -/
def Obligations.PendingCopy : Prop :=
  ∀ (s : State) (lt dt : Tree) (len d : Nat) (f : Bool), s.Inv →
    s.stepDue = true → s.inStep = .nothing → s.blk = .huffman lt dt len (some d) f → 0 < len →
    ∃ w, s.window.selfCopyRun Config.cap d (min len (s.target - s.window.avail)) = some w ∧
      step s = .next { s with
        window := w
        blk := .huffman lt dt (len - min len (s.target - s.window.avail))
          (if len ≤ s.target - s.window.avail then none else some d) f }

/-! ### The machine as a whole -/

/-- The registers R45 gives a value at reset hold it (the values are the spec's own choice, D3, D19), and the cells hold none;
`SRC_END`, which is the byte source's and no reset changes, is 0 as at the beginning (R40; entry 8); no step and no command is in
progress and none is waiting (the model's own fields, entry 8); the parameters are at their defaults (R8). -/
def Obligations.ResetValues : Prop :=
  State.reset.blk = .header ∧ State.reset.bitpos = 0 ∧ State.reset.err = none ∧ errCode State.reset.err = 0 ∧
  State.reset.window.avail = 0 ∧ State.reset.window.wpos = 0 ∧ State.reset.window.written = 0 ∧ State.reset.out = [] ∧
  State.reset.src.ended = false ∧ State.reset.inStep = .nothing ∧ State.reset.cur = .idle ∧ State.reset.cmds = [] ∧
  (∀ a, State.reset.window.cells.read a = none) ∧
  State.reset.params.singleCode = .reject ∧ State.reset.params.rep16 = .fault

/-- The invariant of R36 holds at reset. -/
def Obligations.InvAtReset : Prop := State.reset.Inv

/-- Every step keeps the invariant of R36 (window and counters, pending registers, alignment in a stored block, the transient
registers of R34), and every tree held has its symbols in its alphabet and its codes within `MAXBITS`, or `MAXBITS_CL` for a
code-length tree (R33, R7). -/
def Obligations.StepKeepsInv : Prop :=
  ∀ s t : State, s.Inv → step s = .next t → t.Inv

/-- From a state with the invariant no step faults, and the only refusals are the two contract violations of R310, by the command
that makes them. -/
def Obligations.NoStopFromInv : Prop :=
  ∀ s : State, s.Inv →
    (∀ f, step s ≠ .fault f) ∧
    (∀ r, step s = .refused r →
      s.cur = .idle ∧ ∃ w rest, s.cmds = w :: rest ∧
        ((∃ n, decodeCmd w = .makeAvailable n ∧ Config.cap < n ∧ r = .requestAboveCapacity) ∨
          (∃ k, decodeCmd w = .copyOut k ∧ s.window.avail < k ∧ r = .copyOutAboveAvailable)))

/-- The complete set of `STATE` transitions (R239), where no error is raised and no reset taken. A stored byte and the elements of a
header are steps of their own here (entries 1 and 20); a copy that ends leaves `PENDING_DIST` none (the model's choice, entry 18;
without meaning there by R23). -/
def Obligations.BlockTransitions : Prop :=
  ∀ s t : State, s.Inv → step s = .next t → s.err = none → t.err = none → s.takesReset = false →
    t.blk = s.blk ∨
    (s.blk = .header ∧ ∃ len f, len < 65536 ∧ t.blk = .uncompressed len f) ∨
    (s.blk = .header ∧ ∃ lt dt f, t.blk = .huffman lt dt 0 none f) ∨
    (∃ r f, s.blk = .uncompressed (r + 1) f ∧ t.blk = .uncompressed r f) ∨
    (∃ f, s.blk = .uncompressed 0 f ∧ t.blk = if f then .complete else .header) ∨
    (∃ lt dt old len d f, s.blk = .huffman lt dt 0 old f ∧ t.blk = .huffman lt dt len (some d) f ∧
      3 ≤ len ∧ len ≤ 258 ∧ 1 ≤ d ∧ d ≤ s.window.written) ∨
    (∃ lt dt p d k f, s.blk = .huffman lt dt p (some d) f ∧ 0 < k ∧ k = min p (s.target - s.window.avail) ∧
      t.blk = .huffman lt dt (p - k) (if p ≤ k then none else some d) f) ∨
    (∃ lt dt old f, s.blk = .huffman lt dt 0 old f ∧ t.blk = if f then .complete else .header)

/-- `Complete` is absorbing: "no decoder step leaves it; only reset does" (R24); no input is read there and no byte produced (R119,
R308). -/
def Obligations.CompleteAbsorbing : Prop :=
  ∀ s t : State, s.Inv → s.err = none → s.blk = .complete → step s = .next t → s.takesReset = false →
    t.blk = .complete ∧ t.err = none ∧ t.bitpos = s.bitpos ∧ t.src = s.src ∧ t.window.cells = s.window.cells ∧
    t.window.written = s.window.written ∧ t.window.wpos = s.window.wpos

/-- What only grows or stays (R25, R31, R36, R40, R41): the source never changes a byte; but for a reset, `OUT` is append-only,
`WRITTEN` and the bytes produced never decrease, the input consumed is never given back; the parameters never change. -/
def Obligations.StreamsGrow : Prop :=
  ∀ s t : State, s.Inv → step s = .next t →
    (∃ new, t.src.bytes = s.src.bytes ++ new ∧ (s.src.ended = true → new = [] ∧ t.src.ended = true)) ∧
    (∃ new, t.resp = s.resp ++ new ∧ new.length ≤ 1) ∧
    (∃ taken, s.cmds = taken ++ t.cmds ∧ taken.length ≤ 1) ∧
    t.params = s.params ∧
    (s.takesReset = false →
      (∃ new, t.out = s.out ++ new) ∧ s.window.written ≤ t.window.written ∧ s.produced ≤ t.produced ∧
      (t.err = none → s.settled ≤ t.settled))

/-- Input is consumed once: over every step, errors and resets included, the bytes consumed for good only grow, and a reset starts
right behind them, so that none is read again and none is passed over (R67, R136, R371; where the stream begins after a reset is
entry 5). -/
def Obligations.InputConsumedOnce : Prop :=
  ∀ s t : State, s.Inv → step s = .next t →
    s.consumed ≤ t.consumed ∧
    (s.takesReset = true → t.src.base = s.consumed ∧ t.bitpos = 0 ∧ t.consumed = s.consumed)

/-- A decoder step runs only while `AVAIL < target`, and never produces more than `need`: "exactly as far as needed and no further"
(R200, R302). Where none is due, no input is read and no byte produced. -/
def Obligations.NoByteTooMany : Prop :=
  ∀ s t : State, s.Inv → step s = .next t → s.takesReset = false →
    (s.stepDue = true →
      s.window.avail ≤ t.window.avail ∧ t.window.avail ≤ s.target ∧ s.target ≤ Config.cap ∧ t.out = s.out ∧
      t.produced - s.produced ≤ s.need) ∧
    (s.stepDue = false →
      t.bitpos = s.bitpos ∧ t.src = s.src ∧ t.window.cells = s.window.cells ∧ t.produced = s.produced)

/-- The times at which the byte source appends do not matter (R17): a step that does not hold does the same, and commutes with the
delivery, where the source's next event has come earlier. -/
def Obligations.ArrivalTimeUnseen : Prop :=
  ∀ (s t : State) (ev : SrcEvent) (rest : List SrcEvent),
    s.src.incoming = ev :: rest → s.src.ended = false → step s = .next t → t.src.incoming = s.src.incoming →
    step { s with src := s.src.deliver } = .next { t with src := t.src.deliver }
end

