-- ==== Sys2Proof/Laws/CodeTree.lean ====
section
/-! SUPPORT. CanonicalCode and CodeTree: what `build` answers, one lemma per fact (R141, R151 to R155). -/

namespace Sys2Proof

/-! ### `canonical` -/

theorem le_maxLength {l : Nat} {ls : List Nat} (h : l ∈ ls) : l ≤ maxLength ls := by
  induction ls with
  | nil => cases h
  | cons a ls ih =>
    rcases List.mem_cons.1 h with rfl | h
    · exact Nat.le_max_left _ _
    · exact (ih h).trans (Nat.le_max_right _ _)

theorem usedSymbols_ge {sym s : Nat} {ls : List Nat} (h : s ∈ usedSymbols sym ls) : sym ≤ s ∧ s < sym + ls.length := by
  induction ls generalizing sym with
  | nil => cases h
  | cons L ls ih =>
    simp only [usedSymbols] at h
    split at h
    · have := ih h; simp; omega
    · rcases List.mem_cons.1 h with rfl | h
      · simp
      · have := ih h; simp; omega

theorem mem_usedSymbols {sym s : Nat} {ls : List Nat} :
    s ∈ usedSymbols sym ls ↔ sym ≤ s ∧ s < sym + ls.length ∧ ls.getD (s - sym) 0 ≠ 0 := by
  induction ls generalizing sym with
  | nil => simp [usedSymbols]
  | cons L ls ih =>
    have key : s ∈ usedSymbols (sym + 1) ls ↔ sym + 1 ≤ s ∧ s < sym + (L :: ls).length ∧ (L :: ls).getD (s - sym) 0 ≠ 0 := by
      rw [ih]
      constructor
      · rintro ⟨h1, h2, h3⟩
        obtain ⟨d, rfl⟩ : ∃ d, s = sym + 1 + d := ⟨s - (sym + 1), by omega⟩
        rw [show sym + 1 + d - sym = d + 1 by omega]
        rw [show sym + 1 + d - (sym + 1) = d by omega] at h3
        exact ⟨h1, by simp; omega, by simpa using h3⟩
      · rintro ⟨h1, h2, h3⟩
        obtain ⟨d, rfl⟩ : ∃ d, s = sym + 1 + d := ⟨s - (sym + 1), by omega⟩
        rw [show sym + 1 + d - sym = d + 1 by omega] at h3
        rw [show sym + 1 + d - (sym + 1) = d by omega]
        exact ⟨h1, by simp at h2; omega, by simpa using h3⟩
    simp only [usedSymbols]
    by_cases hL : L = 0
    · rw [if_pos hL, key]
      constructor
      · rintro ⟨h1, h2⟩; exact ⟨by omega, h2⟩
      · rintro ⟨h1, h2, h3⟩
        refine ⟨?_, h2, h3⟩
        by_contra hc
        obtain rfl : s = sym := by omega
        simp [hL] at h3
    · rw [if_neg hL, List.mem_cons, key]
      constructor
      · rintro (rfl | ⟨h1, h2⟩)
        · exact ⟨le_rfl, by simp, by simpa using hL⟩
        · exact ⟨by omega, h2⟩
      · rintro ⟨h1, h2⟩
        by_cases h : s = sym
        · exact .inl h
        · exact .inr ⟨by omega, h2⟩

/-- Step 3 of R141, for a walk that has reached `sym` with the counters `next`. -/
theorem assignCodes_eq (sym : Nat) (ls next : List Nat) (h : ∀ l ∈ ls, l < next.length) :
    assignCodes sym ls next = (usedSymbols sym ls).map fun s =>
      (s, (ls.getD (s - sym) 0, next.getD (ls.getD (s - sym) 0) 0 + (ls.take (s - sym)).count (ls.getD (s - sym) 0))) := by
  induction ls generalizing sym next with
  | nil => rfl
  | cons L ls ih =>
    have hL : L < next.length := h L (by simp)
    simp only [assignCodes, usedSymbols]
    split
    · next h0 =>
      subst h0
      rw [ih (sym + 1) next fun l hl => h l (by simp [hl])]
      refine List.map_congr_left fun s hs => ?_
      obtain ⟨hs1, hs2⟩ := usedSymbols_ge hs
      obtain ⟨d, rfl⟩ : ∃ d, s = sym + 1 + d := ⟨s - (sym + 1), by omega⟩
      have hne := (mem_usedSymbols.1 hs).2.2
      rw [show sym + 1 + d - (sym + 1) = d by omega] at hne
      rw [show sym + 1 + d - (sym + 1) = d by omega, show sym + 1 + d - sym = d + 1 by omega]
      simp only [List.getD_cons_succ, List.take_succ_cons, List.count_cons_of_ne (Ne.symm hne)]
    · next h0 =>
      rw [ih (sym + 1) _ fun l hl => by simpa using h l (by simp [hl])]
      simp only [List.map_cons, Nat.sub_self, List.getD_cons_zero, List.take_zero, List.count_nil, Nat.add_zero,
        List.cons.injEq, true_and]
      refine List.map_congr_left fun s hs => ?_
      obtain ⟨hs1, hs2⟩ := usedSymbols_ge hs
      obtain ⟨d, rfl⟩ : ∃ d, s = sym + 1 + d := ⟨s - (sym + 1), by omega⟩
      rw [show sym + 1 + d - (sym + 1) = d by omega, show sym + 1 + d - sym = d + 1 by omega]
      simp only [List.getD_cons_succ, List.take_succ_cons, List.count_cons, Prod.mk.injEq, true_and]
      generalize ls.getD d 0 = x
      by_cases hx : x = L
      · subst hx
        simp [List.getD_eq_getElem?_getD, hL]
        omega
      · simp [List.getD_eq_getElem?_getD, Ne.symm hx]

theorem usedSymbols_nodup (sym : Nat) (ls : List Nat) : (usedSymbols sym ls).Nodup := by
  induction ls generalizing sym with
  | nil => simp [usedSymbols]
  | cons L ls ih =>
    simp only [usedSymbols]
    split
    · exact ih _
    · exact List.nodup_cons.2 ⟨fun h => by have := (usedSymbols_ge h).1; omega, ih _⟩

theorem firstCodes_getD {ls : List Nat} {L : Nat} (h : L ≤ maxLength ls) : (firstCodes ls).getD L 0 = firstCode ls L := by
  simp [firstCodes, List.getD_eq_getElem?_getD, List.getElem?_range (show L < maxLength ls + 1 by omega)]

theorem getD_le_maxLength (ls : List Nat) (i : Nat) : ls.getD i 0 ≤ maxLength ls := by
  by_cases h : i < ls.length
  · rw [List.getD_eq_getElem _ _ h]; exact le_maxLength (List.getElem_mem h)
  · rw [List.getD_eq_default _ _ (by omega)]; omega

/-- The codes of `canonical`, in closed form (R141, R145 a). -/
theorem canonical_codes {ls : List Nat} (h : ls ≠ []) :
    canonical ls = .ok ((usedSymbols 0 ls).map fun s =>
      (s, (ls.getD s 0, firstCode ls (ls.getD s 0) + (ls.take s).count (ls.getD s 0)))) := by
  simp only [canonical, if_neg h]
  rw [assignCodes_eq 0 ls _ fun l hl => by simpa [firstCodes] using Nat.lt_succ_of_le (le_maxLength hl)]
  congr 1
  refine List.map_congr_left fun s _ => ?_
  rw [Nat.sub_zero, firstCodes_getD (getD_le_maxLength ls s)]

/-! ### `build` -/

/-- `build` refuses with one kind only (R152). -/
theorem build_error {fuel : Nat} {cs : List SymCode} {k : ErrorKind} (h : build fuel cs = .error k) :
    k = .invalidHuffmanCodes := by
  induction fuel generalizing cs k with
  | zero =>
    match cs with
    | [] => simp [build] at h; exact h.symm
    | [(s, (L, c))] => simp only [build] at h; split at h <;> simp_all
    | _ :: _ :: _ => simp [build] at h; exact h.symm
  | succ fuel ih =>
    match cs with
    | [] => simp [build] at h; exact h.symm
    | [(s, (L, c))] => simp only [build] at h; split at h <;> simp_all
    | a :: b :: cs =>
      simp only [build] at h
      split at h
      · simp at h; exact h.symm
      · split at h
        · next e => cases h; exact ih e
        · split at h
          · next e => cases h; exact ih e
          · cases h

theorem buildTable_error {p : SingleCodePolicy} {ls : List Nat} {k : ErrorKind} (h : buildTable p ls = .error k) :
    k = .invalidHuffmanCodes := by
  have hr : ∀ k, buildReject ls = .error k → k = .invalidHuffmanCodes := fun k h => by
    simp only [buildReject, canonical] at h
    split at h
    · next e => split at e <;> simp_all
    · exact build_error h
  cases p with
  | reject => exact hr k h
  | zeroBitLeaf =>
    simp only [buildTable] at h
    split at h
    · cases h
    · split at h
      · cases h
      · exact hr k h

/-- A build that succeeds is a leaf, or a node over the two halves of the codes (R151). -/
theorem build_ok {fuel : Nat} {cs : List SymCode} {t : Tree} (h : build fuel cs = .ok t) :
    (∃ s c, cs = [(s, (0, c))] ∧ t = .leaf s) ∨
    (∃ f zero one, fuel = f + 1 ∧ (∀ sc ∈ cs, sc.2.1 ≠ 0) ∧ t = .node zero one ∧
      build f (branch false cs) = .ok zero ∧ build f (branch true cs) = .ok one) := by
  match fuel, cs with
  | fuel, [] => simp [build] at h
  | fuel, [(s, (L, c))] =>
    simp only [build] at h
    split at h
    · next hL => subst hL; exact .inl ⟨s, c, rfl, by simpa using h.symm⟩
    · cases h
  | 0, _ :: _ :: _ => simp [build] at h
  | fuel + 1, a :: b :: cs =>
    simp only [build] at h
    split at h
    · cases h
    · next hz =>
      split at h
      · cases h
      · next zero e0 =>
        split at h
        · cases h
        · next one e1 =>
          refine .inr ⟨fuel, zero, one, rfl, fun sc hsc h0 => ?_, by simpa using h.symm, e0, e1⟩
          exact hz (List.any_eq_true.2 ⟨sc, hsc, by simpa using h0⟩)

theorem mem_branch {b : Bool} {cs : List SymCode} {sc : SymCode} :
    sc ∈ branch b cs ↔ ∃ sc' ∈ cs, firstBit sc' = b ∧ restOf sc' = sc := by
  simp [branch, and_assoc]

theorem codeBits_mod (L c : Nat) : codeBits L (c % 2 ^ L) = codeBits L c := by
  suffices h : ∀ k, k ≤ L → codeBits k (c % 2 ^ L) = codeBits k c from h L le_rfl
  intro k hk
  induction k with
  | zero => rfl
  | succ k ih => simp only [codeBits, ih (by omega), Nat.testBit_mod_two_pow, show k < L by omega, decide_true, Bool.true_and]

/-- A code is its first bit and the rest (R12, R151). -/
theorem codeBits_split {sc : SymCode} (h : sc.2.1 ≠ 0) :
    codeBits sc.2.1 sc.2.2 = firstBit sc :: codeBits (restOf sc).2.1 (restOf sc).2.2 := by
  obtain ⟨s, L, c⟩ := sc
  cases L with
  | zero => exact absurd rfl h
  | succ L => simp [codeBits, firstBit, restOf, codeBits_mod]

/-- Every leaf that decoding reaches is a code of the list, and the bits read are that code (R151, R155). -/
theorem decodeSym_of_build {fuel : Nat} {cs : List SymCode} {t : Tree} (h : build fuel cs = .ok t)
    {c c' : Cursor} {sym : Nat} (hd : decodeSym t c = some (sym, c')) :
    ∃ L code, (sym, (L, code)) ∈ cs ∧ c.bits = codeBits L code ++ c'.bits ∧ c'.pos = c.pos + L := by
  induction fuel generalizing cs t c with
  | zero =>
    obtain ⟨s, code, rfl, rfl⟩ | ⟨f, _, _, hf, _⟩ := build_ok h
    · simp only [decodeSym, Option.some.injEq, Prod.mk.injEq] at hd
      obtain ⟨rfl, rfl⟩ := hd
      exact ⟨0, code, by simp, by simp [codeBits], rfl⟩
    · omega
  | succ fuel ih =>
    obtain ⟨s, code, rfl, rfl⟩ | ⟨f, zero, one, hf, hnz, rfl, e0, e1⟩ := build_ok h
    · simp only [decodeSym, Option.some.injEq, Prod.mk.injEq] at hd
      obtain ⟨rfl, rfl⟩ := hd
      exact ⟨0, code, by simp, by simp [codeBits], rfl⟩
    · obtain rfl : f = fuel := by omega
      obtain ⟨pos, bits⟩ := c
      cases bits with
      | nil => simp [decodeSym] at hd
      | cons b rest =>
        have key : ∀ (b : Bool) (u : Tree), build f (branch b cs) = .ok u → decodeSym u ⟨pos + 1, rest⟩ = some (sym, c') →
            ∃ L code, (sym, (L, code)) ∈ cs ∧ b :: rest = codeBits L code ++ c'.bits ∧ c'.pos = pos + L := by
          intro b u hu hdu
          obtain ⟨L, code, hm, hb, hp⟩ := ih hu hdu
          obtain ⟨⟨s', L', code'⟩, hm', hfb, hr⟩ := mem_branch.1 hm
          have hs := codeBits_split (hnz _ hm')
          rw [hr, hfb] at hs
          have hL : L' ≠ 0 := hnz _ hm'
          simp only [restOf, Prod.mk.injEq] at hr
          obtain ⟨rfl, rfl, -⟩ := hr
          simp only at hb hp hs
          exact ⟨L', code', hm', by rw [hs, hb]; rfl, by omega⟩
        cases b
        · exact key false zero e0 (by simpa [decodeSym] using hd)
        · exact key true one e1 (by simpa [decodeSym] using hd)

theorem path_none_of_build {fuel : Nat} {cs : List SymCode} {t : Tree} (h : build fuel cs = .ok t) {sym : Nat}
    (hs : ∀ sc ∈ cs, sc.1 ≠ sym) : t.path sym = none := by
  induction fuel generalizing cs t with
  | zero =>
    obtain ⟨s, code, rfl, rfl⟩ | ⟨f, _, _, hf, _⟩ := build_ok h
    · simpa [Tree.path] using hs (s, (0, code))
    · omega
  | succ fuel ih =>
    obtain ⟨s, code, rfl, rfl⟩ | ⟨f, zero, one, hf, hnz, rfl, e0, e1⟩ := build_ok h
    · simpa [Tree.path] using hs (s, (0, code))
    · obtain rfl : f = fuel := by omega
      have key : ∀ b, ∀ sc ∈ branch b cs, sc.1 ≠ sym := fun b sc hsc => by
        obtain ⟨sc', hm, -, rfl⟩ := mem_branch.1 hsc
        exact hs sc' hm
      simp [Tree.path, ih e0 (key false), ih e1 (key true)]

/-- The leaf of a symbol is at the end of its code (R153). -/
theorem path_of_build {fuel : Nat} {cs : List SymCode} {t : Tree} (h : build fuel cs = .ok t)
    (hn : (cs.map Prod.fst).Nodup) {sc : SymCode} (hm : sc ∈ cs) : t.path sc.1 = some (codeBits sc.2.1 sc.2.2) := by
  induction fuel generalizing cs t sc with
  | zero =>
    obtain ⟨s, code, rfl, rfl⟩ | ⟨f, _, _, hf, _⟩ := build_ok h
    · obtain rfl : sc = (s, (0, code)) := by simpa using hm
      simp [Tree.path, codeBits]
    · omega
  | succ fuel ih =>
    obtain ⟨s, code, rfl, rfl⟩ | ⟨f, zero, one, hf, hnz, rfl, e0, e1⟩ := build_ok h
    · obtain rfl : sc = (s, (0, code)) := by simpa using hm
      simp [Tree.path, codeBits]
    · obtain rfl : f = fuel := by omega
      have hn' : ∀ b, ((branch b cs).map Prod.fst).Nodup := fun b => by
        have : (branch b cs).map Prod.fst = (cs.filter fun sc => firstBit sc == b).map Prod.fst := by
          simp [branch, restOf, Function.comp_def]
        rw [this]
        exact hn.sublist (List.Sublist.map _ List.filter_sublist)
      have hin : restOf sc ∈ branch (firstBit sc) cs := mem_branch.2 ⟨sc, hm, rfl, rfl⟩
      rw [codeBits_split (hnz _ hm)]
      cases hb : firstBit sc with
      | false =>
        rw [hb] at hin
        have := ih e0 (hn' false) hin
        simp only [Tree.path]
        rw [show (restOf sc).1 = sc.1 from rfl] at this
        simp [this]
      | true =>
        rw [hb] at hin
        have := ih e1 (hn' true) hin
        rw [show (restOf sc).1 = sc.1 from rfl] at this
        have hnone : zero.path sc.1 = none := path_none_of_build e0 fun sc' hsc' heq => by
          obtain ⟨sc'', hm'', hfb, rfl⟩ := mem_branch.1 hsc'
          have : sc'' = sc := List.inj_on_of_nodup_map hn hm'' hm heq
          subst this
          simp [hb] at hfb
        simp [Tree.path, this, hnone]

/-- The leaves of a built tree are symbols of the list. -/
theorem symsBelow_of_build {fuel n : Nat} {cs : List SymCode} {t : Tree} (h : build fuel cs = .ok t)
    (hs : ∀ sc ∈ cs, sc.1 < n) : t.symsBelow n = true := by
  induction fuel generalizing cs t with
  | zero =>
    obtain ⟨s, code, rfl, rfl⟩ | ⟨f, _, _, hf, _⟩ := build_ok h
    · simpa [Tree.symsBelow] using hs (s, (0, code))
    · omega
  | succ fuel ih =>
    obtain ⟨s, code, rfl, rfl⟩ | ⟨f, zero, one, hf, hnz, rfl, e0, e1⟩ := build_ok h
    · simpa [Tree.symsBelow] using hs (s, (0, code))
    · obtain rfl : f = fuel := by omega
      have key : ∀ b, ∀ sc ∈ branch b cs, sc.1 < n := fun b sc hsc => by
        obtain ⟨sc', hm, -, rfl⟩ := mem_branch.1 hsc
        exact hs sc' hm
      simp [Tree.symsBelow, ih e0 (key false), ih e1 (key true)]

/-- A table over `n` symbols has leaves below `n`, under either policy (R33, R154). -/
theorem symsBelow_of_buildTable {p : SingleCodePolicy} {ls : List Nat} {t : Tree} (h : buildTable p ls = .ok t) :
    t.symsBelow ls.length = true := by
  have hr : buildReject ls = .ok t → t.symsBelow ls.length = true := fun h => by
    simp only [buildReject] at h
    split at h
    · cases h
    · next codes e =>
      refine symsBelow_of_build h fun sc hsc => ?_
      by_cases hne : ls = []
      · simp [canonical, hne] at e
      · rw [canonical_codes hne] at e
        simp only [Except.ok.injEq] at e
        subst e
        obtain ⟨s, hs, rfl⟩ := List.mem_map.1 hsc
        have := (usedSymbols_ge hs).2
        simpa using this
  cases p with
  | reject => exact hr h
  | zeroBitLeaf =>
    simp only [buildTable] at h
    split at h
    · next sym e =>
      simp only [Except.ok.injEq] at h
      subst h
      have := (usedSymbols_ge (show sym ∈ usedSymbols 0 ls by rw [e]; simp)).2
      simpa [Tree.symsBelow] using this
    · split at h
      · next hl => simp only [Except.ok.injEq] at h; subst h; simp [Tree.symsBelow, hl]
      · exact hr h

theorem symsBelow_mono {m n : Nat} (h : m ≤ n) {t : Tree} (ht : t.symsBelow m = true) : t.symsBelow n = true := by
  induction t with
  | leaf s => simp only [Tree.symsBelow, decide_eq_true_eq] at ht ⊢; omega
  | node zero one i0 i1 =>
    simp only [Tree.symsBelow, Bool.and_eq_true] at ht ⊢
    exact ⟨i0 ht.1, i1 ht.2⟩

/-- No path of a built tree is longer than the fuel, which is the longest code (R33). -/
theorem depth_of_build {fuel : Nat} {cs : List SymCode} {t : Tree} (h : build fuel cs = .ok t) : t.depth ≤ fuel := by
  induction fuel generalizing cs t with
  | zero =>
    obtain ⟨s, code, rfl, rfl⟩ | ⟨f, _, _, hf, _⟩ := build_ok h
    · exact le_rfl
    · omega
  | succ fuel ih =>
    obtain ⟨s, code, rfl, rfl⟩ | ⟨f, zero, one, hf, -, rfl, e0, e1⟩ := build_ok h
    · exact Nat.zero_le _
    · obtain rfl : f = fuel := by omega
      exact Nat.succ_le_succ (Nat.max_le.2 ⟨ih e0, ih e1⟩)

theorem maxLength_le {m : Nat} {ls : List Nat} (h : ∀ l ∈ ls, l ≤ m) : maxLength ls ≤ m := by
  induction ls with
  | nil => exact Nat.zero_le _
  | cons a ls ih => exact Nat.max_le.2 ⟨h a (by simp), ih fun l hl => h l (by simp [hl])⟩

/-- A table is no deeper than its longest length, under either policy (R33, R153, R154). -/
theorem depth_of_buildTable {p : SingleCodePolicy} {ls : List Nat} {t : Tree} (h : buildTable p ls = .ok t) :
    t.depth ≤ maxLength ls := by
  have hr : buildReject ls = .ok t → t.depth ≤ maxLength ls := fun h => by
    simp only [buildReject] at h
    split at h
    · cases h
    · exact depth_of_build h
  cases p with
  | reject => exact hr h
  | zeroBitLeaf =>
    simp only [buildTable] at h
    split at h
    · cases h; exact Nat.zero_le _
    · split at h
      · cases h; exact Nat.zero_le _
      · exact hr h

/-- What a table over at most `n` symbols with lengths up to `m` builds (R33). -/
theorem fits_of_buildTable {p : SingleCodePolicy} {ls : List Nat} {t : Tree} {n m : Nat} (h : buildTable p ls = .ok t)
    (hn : ls.length ≤ n) (hm : ∀ l ∈ ls, l ≤ m) : t.fits n m = true := by
  simp only [Tree.fits, Bool.and_eq_true, decide_eq_true_eq]
  exact ⟨symsBelow_mono hn (symsBelow_of_buildTable h), (depth_of_buildTable h).trans (maxLength_le hm)⟩

/-- One decode reads at most as many bits as the tree is deep (R157). -/
theorem decodeSym_reads_le {t : Tree} {c c' : Cursor} {sym : Nat} (h : decodeSym t c = some (sym, c')) :
    c'.pos ≤ c.pos + t.depth := by
  induction t generalizing c with
  | leaf s => simp only [decodeSym, Option.some.injEq, Prod.mk.injEq] at h; rw [h.2]; exact Nat.le_add_right _ _
  | node zero one i0 i1 =>
    simp only [decodeSym] at h
    simp only [Tree.depth]
    split at h
    · cases h
    · split at h
      · have := i1 h; simp only at this; omega
      · have := i0 h; simp only at this; omega

/-- Decoding returns a leaf. -/
theorem decodeSym_lt {n : Nat} {t : Tree} (ht : t.symsBelow n = true) {c c' : Cursor} {sym : Nat}
    (h : decodeSym t c = some (sym, c')) : sym < n := by
  induction t generalizing c with
  | leaf s =>
    simp only [decodeSym, Option.some.injEq, Prod.mk.injEq] at h
    simpa [Tree.symsBelow, h.1] using ht
  | node zero one i0 i1 =>
    simp only [Tree.symsBelow, Bool.and_eq_true] at ht
    simp only [decodeSym] at h
    split at h
    · cases h
    · next b rest hb =>
      split at h
      · exact i1 ht.2 h
      · exact i0 ht.1 h

/-- A symbol read with a tree that fits (R33, R157). -/
theorem decodeSym_lt_of_fits {n m : Nat} {t : Tree} (ht : t.fits n m = true) {c c' : Cursor} {sym : Nat}
    (h : decodeSym t c = some (sym, c')) : sym < n ∧ c'.pos ≤ c.pos + m := by
  simp only [Tree.fits, Bool.and_eq_true, decide_eq_true_eq] at ht
  exact ⟨decodeSym_lt ht.1 h, (decodeSym_reads_le h).trans (Nat.add_le_add_left ht.2 _)⟩

theorem completeTree_symsBelow (d base : Nat) : (completeTree d base).symsBelow (base + 2 ^ d) = true := by
  induction d generalizing base with
  | zero => simp [completeTree, Tree.symsBelow]
  | succ d ih =>
    simp only [completeTree, Tree.symsBelow, Bool.and_eq_true]
    refine ⟨symsBelow_mono ?_ (ih base), symsBelow_mono ?_ (ih (base + 2 ^ d))⟩ <;> rw [Nat.pow_succ] <;> omega

theorem fixedDistTree_symsBelow : fixedDistTree.symsBelow Config.nDist = true := by decide

theorem fixedLitlenTree_symsBelow : fixedLitlenTree.symsBelow Config.nLitlen = true := by decide +kernel

theorem completeTree_depth (d base : Nat) : (completeTree d base).depth = d := by
  induction d generalizing base with
  | zero => rfl
  | succ d ih => simp [completeTree, Tree.depth, ih]

theorem fixedDistTree_fits : fixedDistTree.fits Config.nDist Config.maxBits = true := by
  have hd : fixedDistTree.depth = 5 := completeTree_depth 5 0
  simp only [Tree.fits, fixedDistTree_symsBelow, hd, Bool.true_and, decide_eq_true_eq]; decide

theorem fixedLitlenTree_fits : fixedLitlenTree.fits Config.nLitlen Config.maxBits = true := by
  have hd : fixedLitlenTree.depth = 9 := by simp [fixedLitlenTree, Tree.depth, completeTree_depth]
  simp only [Tree.fits, fixedLitlenTree_symsBelow, hd, Bool.true_and, decide_eq_true_eq]; decide

end Sys2Proof
end

