-- ==== Sys2Proof/Laws/Decode.lean ====
section
/-! SUPPORT. Reading from a cursor: each primitive reads exactly its bits, and reads back what was written (R131 to R135, R155). -/

namespace Sys2Proof

/-- A reader that looks at the bits it consumes and at no other (R136). -/
def Exact {α : Type} (f : Cursor → Option (α × Cursor)) : Prop :=
  ∀ (c c' : Cursor) (a : α), f c = some (a, c') →
    ∃ used, c.bits = used ++ c'.bits ∧ c'.pos = c.pos + used.length ∧
      (∀ rest, f ⟨c.pos, used ++ rest⟩ = some (a, ⟨c.pos + used.length, rest⟩)) ∧
      ∀ n, n < used.length → f ⟨c.pos, used.take n⟩ = none

theorem Exact.pure {α : Type} (a : α) : Exact (fun c => some (a, c)) := by
  intro c c' b h
  simp only [Option.some.injEq, Prod.mk.injEq] at h
  obtain ⟨rfl, rfl⟩ := h
  exact ⟨[], by simp, by simp, by simp, by simp⟩

theorem Exact.bind {α β : Type} {f : Cursor → Option (α × Cursor)} {g : α → Cursor → Option (β × Cursor)}
    (hf : Exact f) (hg : ∀ a, Exact (g a)) : Exact (fun c => (f c).bind fun r => g r.1 r.2) := by
  intro c c' b h
  obtain ⟨⟨a, c1⟩, h1, h2⟩ := Option.bind_eq_some_iff.1 h
  obtain ⟨u1, b1, p1, r1, n1⟩ := hf _ _ _ h1
  obtain ⟨u2, b2, p2, r2, n2⟩ := hg a _ _ _ h2
  simp only at b2 p2 r2 n2
  refine ⟨u1 ++ u2, by rw [b1, b2, List.append_assoc], by rw [p2, p1, List.length_append]; omega, fun rest => ?_, fun n hn => ?_⟩
  · rw [p1] at r2
    beta_reduce
    rw [List.append_assoc, r1, Option.bind_some, r2, List.length_append, Nat.add_assoc]
  · beta_reduce
    by_cases h : n < u1.length
    · rw [List.take_append_of_le_length (by omega), n1 n h]; rfl
    · rw [p1] at n2
      rw [List.take_append, List.take_of_length_le (by omega), r1, Option.bind_some]
      exact n2 _ (by rw [List.length_append] at hn; omega)

theorem Exact.congr {α : Type} {f g : Cursor → Option (α × Cursor)} (h : ∀ c, f c = g c) (hg : Exact g) : Exact f := by
  rwa [show f = g from funext h]

theorem Exact.map {α β : Type} {f : Cursor → Option (α × Cursor)} (hf : Exact f) (k : α → β) :
    Exact (fun c => (f c).bind fun r => some (k r.1, r.2)) :=
  hf.bind fun a => Exact.pure (k a)

theorem exact_readBit : Exact readBit := by
  intro c c' b h
  obtain ⟨pos, bits⟩ := c
  cases bits with
  | nil => simp [readBit] at h
  | cons x rest =>
    simp only [readBit, Option.some.injEq, Prod.mk.injEq] at h
    obtain ⟨rfl, rfl⟩ := h
    exact ⟨[x], by simp, by simp, by simp [readBit], fun n hn => by
      obtain rfl : n = 0 := by simpa using hn
      simp [readBit]⟩

theorem takeBits_succ (k : Nat) (c : Cursor) :
    takeBits (k + 1) c = (readBit c).bind fun r => (takeBits k r.2).bind fun q => some (r.1.toNat + 2 * q.1, q.2) := by
  rw [takeBits]
  cases readBit c with
  | none => rfl
  | some r => obtain ⟨b, c1⟩ := r; simp only [Option.bind_some]; cases takeBits k c1 <;> rfl

theorem exact_takeBits (k : Nat) : Exact (takeBits k) := by
  induction k with
  | zero => exact Exact.congr (fun c => by simp [takeBits]) (Exact.pure 0)
  | succ k ih =>
    refine Exact.congr (takeBits_succ k) (Exact.bind (g := fun b c => (takeBits k c).bind fun q => some (b.toNat + 2 * q.1, q.2))
      exact_readBit fun b => ih.map fun v => b.toNat + 2 * v)

/-- Within `FIELD_MAX`, `read_bits` is its loop (R132). -/
theorem readBits_of_le {k : Nat} (h : k ≤ Config.fieldMax) : readBits k = takeBits k := funext fun _ => if_pos h

/-- The extra fields have at most 13 bits (R132): far below `FIELD_MAX`. -/
theorem lengthExtraOf_le (sym : Nat) : lengthExtraOf sym ≤ 13 := by
  have h : ∀ x ∈ Config.lengthExtra, x ≤ 13 := by decide
  unfold lengthExtraOf
  split
  · omega
  · rw [List.getD_eq_getElem?_getD]
    cases e : Config.lengthExtra[sym - 257]? with
    | none => simp
    | some x => exact h x (List.mem_of_getElem? e)

theorem distExtraOf_le (ds : Nat) : distExtraOf ds ≤ 13 := by
  have h : ∀ x ∈ Config.distExtra, x ≤ 13 := by decide
  unfold distExtraOf
  rw [List.getD_eq_getElem?_getD]
  cases e : Config.distExtra[ds]? with
  | none => simp
  | some x => exact h x (List.mem_of_getElem? e)

theorem clExtraOf_le (sym : Nat) (prev : Option Nat) : clExtraOf sym prev ≤ 13 := by
  unfold clExtraOf
  repeat' split
  all_goals omega

/-- Beyond `FIELD_MAX` there is no value (entry 26). -/
theorem readBits_of_gt {k : Nat} (h : Config.fieldMax < k) (c : Cursor) : readBits k c = none := if_neg (by omega)

/-- A value that `read_bits` gives is its loop's, and within `FIELD_MAX`. -/
theorem readBits_some {k : Nat} {c : Cursor} {r : Nat × Cursor} (h : readBits k c = some r) :
    k ≤ Config.fieldMax ∧ takeBits k c = some r := by
  unfold readBits at h
  split at h
  · next hk => exact ⟨hk, h⟩
  · cases h

theorem exact_readBits (k : Nat) : Exact (readBits k) := by
  intro c c' a h
  obtain ⟨hk, h⟩ := readBits_some h
  rw [readBits_of_le hk]
  exact exact_takeBits k c c' a h

theorem readByte_eq (c : Cursor) : readByte c = (readBits 8 c).bind fun r => some (BitVec.ofNat 8 r.1, r.2) := by
  rw [readByte]; cases readBits 8 c <;> rfl

theorem exact_readByte : Exact readByte := Exact.congr readByte_eq ((exact_readBits 8).map _)

theorem readU16le_eq (c : Cursor) :
    readU16le c = (readByte c).bind fun r => (readByte r.2).bind fun q => some (q.1 ++ r.1, q.2) := by
  rw [readU16le]
  cases readByte c with
  | none => rfl
  | some r => obtain ⟨b, c1⟩ := r; simp only [Option.bind_some]; cases readByte c1 <;> rfl

theorem exact_readU16le : Exact readU16le :=
  Exact.congr readU16le_eq (Exact.bind (g := fun lo c => (readByte c).bind fun q => some (q.1 ++ lo, q.2))
    exact_readByte fun lo => exact_readByte.map fun hi => hi ++ lo)

theorem readFields_succ (k n : Nat) (c : Cursor) :
    readFields k (n + 1) c = (readBits k c).bind fun r => (readFields k n r.2).bind fun q => some (r.1 :: q.1, q.2) := by
  rw [readFields]
  cases readBits k c with
  | none => rfl
  | some r => obtain ⟨b, c1⟩ := r; simp only [Option.bind_some]; cases readFields k n c1 <;> rfl

theorem exact_readFields (k n : Nat) : Exact (readFields k n) := by
  induction n with
  | zero => exact Exact.congr (fun c => by simp [readFields]) (Exact.pure [])
  | succ n ih =>
    exact Exact.congr (readFields_succ k n) (Exact.bind (g := fun v c => (readFields k n c).bind fun q => some (v :: q.1, q.2))
      (exact_readBits k) fun v => ih.map fun vs => v :: vs)

theorem exact_decodeSym (t : Tree) : Exact (decodeSym t) := by
  induction t with
  | leaf s => exact Exact.congr (fun c => by simp [decodeSym]) (Exact.pure s)
  | node zero one i0 i1 =>
    refine Exact.congr (g := fun c => (readBit c).bind fun r => decodeSym (if r.1 then one else zero) r.2) (fun c => ?_)
      (exact_readBit.bind (g := fun b => decodeSym (if b then one else zero)) fun b => by cases b <;> simpa)
    obtain ⟨pos, bits⟩ := c
    cases bits with
    | nil => rfl
    | cons b rest => cases b <;> rfl

theorem align_pos (c : Cursor) : (align c).pos = c.pos + padCount c.pos := by simp only [align, padCount]; omega

theorem align_bits (c : Cursor) : (align c).bits = c.bits.drop (padCount c.pos) := rfl

theorem readU16le_nil (pos : Nat) : readU16le ⟨pos, []⟩ = none := rfl

/-- `align()` then a read: the padding counts as read, its values do not matter. -/
theorem exact_align_readU16le : Exact (fun c => readU16le (align c)) := by
  intro c c' a h
  simp only at h
  obtain ⟨u, hb, hp, hr, hn⟩ := exact_readU16le _ _ _ h
  rw [align_bits] at hb
  rw [align_pos] at hp hr hn
  have hlen : padCount c.pos ≤ c.bits.length := by
    by_contra hc
    rw [show align c = ⟨(align c).pos, []⟩ by simp [align, List.drop_of_length_le (show c.bits.length ≤ padCount c.pos by omega)],
      readU16le_nil] at h
    cases h
  have htake : (c.bits.take (padCount c.pos)).length = padCount c.pos := by simp [hlen]
  have hal : ∀ l : List Bool, align ⟨c.pos, c.bits.take (padCount c.pos) ++ l⟩ = ⟨c.pos + padCount c.pos, l⟩ := fun l => by
    have hpos := align_pos ⟨c.pos, c.bits.take (padCount c.pos) ++ l⟩
    have hbits := align_bits ⟨c.pos, c.bits.take (padCount c.pos) ++ l⟩
    rw [show List.drop (padCount c.pos) (c.bits.take (padCount c.pos) ++ l) = l by
      rw [List.drop_append_of_le_length (by omega), List.drop_of_length_le (by omega), List.nil_append]] at hbits
    cases hh : align ⟨c.pos, c.bits.take (padCount c.pos) ++ l⟩
    simp_all
  refine ⟨c.bits.take (padCount c.pos) ++ u, by rw [List.append_assoc, ← hb, List.take_append_drop], by simp [htake]; omega,
    fun rest => ?_, fun n hlt => ?_⟩
  · beta_reduce
    rw [List.append_assoc, hal, hr, List.length_append, htake, Nat.add_assoc]
  · beta_reduce
    by_cases hle : n ≤ padCount c.pos
    · rw [List.take_append_of_le_length (by omega)]
      simp only [align]
      rw [List.drop_of_length_le (by simp; try omega), readU16le_nil]
    · rw [List.take_append, List.take_of_length_le (by omega), hal]
      exact hn _ (by simp [htake] at hlt; omega)

/-! ### Reading back what was written -/

theorem natBits_length (k v : Nat) : (natBits k v).length = k := by
  induction k generalizing v with
  | zero => rfl
  | succ k ih => simp [natBits, ih]

theorem takeBits_natBits (k v pos : Nat) (rest : List Bool) (h : v < 2 ^ k) :
    takeBits k ⟨pos, natBits k v ++ rest⟩ = some (v, ⟨pos + k, rest⟩) := by
  induction k generalizing v pos with
  | zero => obtain rfl : v = 0 := by simpa using h
            rfl
  | succ k ih =>
    rw [Nat.pow_succ] at h
    have := ih (v / 2) (pos + 1) (by omega)
    rw [takeBits_succ]
    simp only [natBits, List.cons_append, readBit, Option.bind_some, this, Option.some.injEq, Prod.mk.injEq, Cursor.mk.injEq,
      and_true]
    constructor
    · rcases Nat.mod_two_eq_zero_or_one v with h0 | h0 <;> simp [h0] <;> omega
    · omega

theorem readBits_natBits (k v pos : Nat) (rest : List Bool) (hk : k ≤ Config.fieldMax) (h : v < 2 ^ k) :
    readBits k ⟨pos, natBits k v ++ rest⟩ = some (v, ⟨pos + k, rest⟩) := by
  rw [readBits_of_le hk, takeBits_natBits k v pos rest h]

theorem takeBits_lt {k v : Nat} {c c' : Cursor} (h : takeBits k c = some (v, c')) : v < 2 ^ k := by
  induction k generalizing c v with
  | zero => simp [takeBits] at h; omega
  | succ k ih =>
    rw [takeBits_succ] at h
    obtain ⟨⟨b, c1⟩, -, h⟩ := Option.bind_eq_some_iff.1 h
    obtain ⟨⟨w, c2⟩, h2, h⟩ := Option.bind_eq_some_iff.1 h
    simp only [Option.some.injEq, Prod.mk.injEq] at h
    obtain ⟨rfl, rfl⟩ := h
    have := ih h2
    rw [Nat.pow_succ]
    cases b <;> simp <;> omega

theorem readBits_lt {k v : Nat} {c c' : Cursor} (h : readBits k c = some (v, c')) : v < 2 ^ k := takeBits_lt (readBits_some h).2

theorem takeBits_pos {k v : Nat} {c c' : Cursor} (h : takeBits k c = some (v, c')) : c'.pos = c.pos + k := by
  induction k generalizing c v with
  | zero => simp [takeBits] at h; simp [h.2]
  | succ k ih =>
    rw [takeBits_succ] at h
    obtain ⟨⟨b, c1⟩, h1, h⟩ := Option.bind_eq_some_iff.1 h
    obtain ⟨⟨w, c2⟩, h2, h⟩ := Option.bind_eq_some_iff.1 h
    simp only [Option.some.injEq, Prod.mk.injEq] at h
    obtain ⟨-, rfl⟩ := h
    have := ih h2
    obtain ⟨pos, bits⟩ := c
    cases bits with
    | nil => simp [readBit] at h1
    | cons x rest =>
      simp only [readBit, Option.some.injEq, Prod.mk.injEq] at h1
      rw [this, ← h1.2]; simp only; omega

theorem readBits_pos {k v : Nat} {c c' : Cursor} (h : readBits k c = some (v, c')) : c'.pos = c.pos + k :=
  takeBits_pos (readBits_some h).2

theorem readByte_pos {b : Byte} {c c' : Cursor} (h : readByte c = some (b, c')) : c'.pos = c.pos + 8 := by
  rw [readByte_eq] at h
  obtain ⟨⟨w, c2⟩, h2, h⟩ := Option.bind_eq_some_iff.1 h
  simp only [Option.some.injEq, Prod.mk.injEq] at h
  rw [← h.2]; exact readBits_pos h2

theorem readU16le_pos {v : BitVec 16} {c c' : Cursor} (h : readU16le c = some (v, c')) : c'.pos = c.pos + 16 := by
  rw [readU16le_eq] at h
  obtain ⟨⟨b, c1⟩, h1, h⟩ := Option.bind_eq_some_iff.1 h
  obtain ⟨⟨w, c2⟩, h2, h⟩ := Option.bind_eq_some_iff.1 h
  simp only [Option.some.injEq, Prod.mk.injEq] at h
  rw [← h.2, readByte_pos h2, readByte_pos h1, Nat.add_assoc]

theorem readFields_spec {k n : Nat} {c c' : Cursor} {vs : List Nat} (h : readFields k n c = some (vs, c')) :
    vs.length = n ∧ ∀ v ∈ vs, v < 2 ^ k := by
  induction n generalizing c vs with
  | zero => simp [readFields] at h; simp [h.1]
  | succ n ih =>
    rw [readFields_succ] at h
    obtain ⟨⟨v, c1⟩, h1, h⟩ := Option.bind_eq_some_iff.1 h
    obtain ⟨⟨ws, c2⟩, h2, h⟩ := Option.bind_eq_some_iff.1 h
    simp only [Option.some.injEq, Prod.mk.injEq] at h
    obtain ⟨rfl, rfl⟩ := h
    obtain ⟨h3, h4⟩ := ih h2
    exact ⟨by simp [h3], by simpa using ⟨readBits_lt h1, h4⟩⟩

theorem readFields_natBits (k : Nat) (vs : List Nat) (pos : Nat) (rest : List Bool) (hk : k ≤ Config.fieldMax) (h : ∀ v ∈ vs, v < 2 ^ k) :
    readFields k vs.length ⟨pos, vs.flatMap (natBits k) ++ rest⟩ = some (vs, ⟨pos + k * vs.length, rest⟩) := by
  induction vs generalizing pos with
  | nil => simp [readFields]
  | cons v vs ih =>
    have := ih (pos + k) fun v hv => h v (by simp [hv])
    rw [List.length_cons, readFields_succ, List.flatMap_cons, List.append_assoc, readBits_natBits _ _ _ _ hk (h v (by simp)),
      Option.bind_some, this]
    simp only [Option.bind_some, Option.some.injEq, Prod.mk.injEq, Cursor.mk.injEq, true_and, and_true]
    rw [Nat.mul_add]; omega

theorem decodeSym_path (t : Tree) (sym pos : Nat) (p rest : List Bool) (h : t.path sym = some p) :
    decodeSym t ⟨pos, p ++ rest⟩ = some (sym, ⟨pos + p.length, rest⟩) := by
  induction t generalizing p pos with
  | leaf s =>
    simp only [Tree.path] at h
    split at h
    · next e => simp only [Option.some.injEq] at h; subst h; simp [decodeSym, e]
    · cases h
  | node zero one i0 i1 =>
    simp only [Tree.path] at h
    split at h
    · next q e =>
      simp only [Option.some.injEq] at h; subst h
      have := i0 (pos + 1) q e
      simp only [List.cons_append, decodeSym, Bool.false_eq_true, if_false, this, List.length_cons]
      simp only [Option.some.injEq, Prod.mk.injEq, Cursor.mk.injEq, true_and, and_true]; omega
    · split at h
      · next q e =>
        simp only [Option.some.injEq] at h; subst h
        have := i1 (pos + 1) q e
        simp only [List.cons_append, decodeSym, if_true, this, List.length_cons]
        simp only [Option.some.injEq, Prod.mk.injEq, Cursor.mk.injEq, true_and, and_true]; omega
      · cases h

/-- The three header bits (R91, R176). -/
theorem decodeHeader_bits (pos : Nat) (f b0 b1 : Bool) (rest : List Bool) :
    decodeHeader ⟨pos, f :: b0 :: b1 :: rest⟩ =
      match b0, b1 with
      | false, false => decodeStored f ⟨pos + 3, rest⟩
      | true, false => .instr (.blkFixed f) ⟨pos + 3, rest⟩
      | false, true => decodeDynamic f ⟨pos + 3, rest⟩
      | true, true => .instr (.blkReserved f) ⟨pos + 3, rest⟩ := by
  cases b0 <;> cases b1 <;> rfl

/-! ### The rows -/

/-- A literal/length row is found again by its symbol and extra value. -/
theorem litlenRow_tableValue (i : Instr) (sym e : Nat) (hw : i.WellFormed) (h : i.tableValue = (.litlen, sym, e)) :
    litlenRow sym e = some i ∧ e < 2 ^ lengthExtraOf sym := by
  cases i <;> simp only [Instr.tableValue, Prod.mk.injEq, reduceCtorEq, false_and, true_and] at h <;>
    obtain ⟨rfl, rfl⟩ := h <;> first
    | (rename_i b; exact ⟨by have := b.isLt; simp [litlenRow, this], by simp⟩)
    | exact ⟨rfl, by decide⟩
    | exact ⟨rfl, of_decide_eq_true hw⟩

theorem distRow_tableValue (i : Instr) (sym e : Nat) (hw : i.WellFormed) (h : i.tableValue = (.dist, sym, e)) :
    distRow sym e = some i ∧ e < 2 ^ distExtraOf sym := by
  cases i <;> simp only [Instr.tableValue, Prod.mk.injEq, reduceCtorEq, false_and, true_and] at h <;>
    obtain ⟨rfl, rfl⟩ := h <;> first
    | exact ⟨rfl, by decide⟩
    | exact ⟨rfl, of_decide_eq_true hw⟩

theorem clRow_tableValue (i : Instr) (sym e : Nat) (hw : i.WellFormed) (h : i.tableValue = (.clsym, sym, e)) :
    clRow sym e = some i ∧ e < 2 ^ clExtraOf sym (some 0) := by
  cases i <;> simp only [Instr.tableValue, Prod.mk.injEq, reduceCtorEq, false_and, true_and] at h <;>
    obtain ⟨rfl, rfl⟩ := h <;> first
    | (have hv := of_decide_eq_true hw; exact ⟨by simp [clRow, hv], by simp⟩)
    | exact ⟨rfl, of_decide_eq_true hw⟩

/-! ### Every decoded element is well-formed, and reading it is exact -/

/-- A block header as one reader. -/
def headerReader (c : Cursor) : Option (Instr × Cursor) :=
  (readBit c).bind fun r => (readBits 2 r.2).bind fun q =>
    if q.1 = 0 then
      (readU16le (align q.2)).bind fun l => (readU16le l.2).bind fun n => some (Instr.blkStored r.1 l.1 n.1, n.2)
    else if q.1 = 1 then some (.blkFixed r.1, q.2)
    else if q.1 = 2 then
      (readBits 5 q.2).bind fun a => (readBits 5 a.2).bind fun b => (readBits 4 b.2).bind fun d =>
        (readFields 3 (hclenOf d.1) d.2).bind fun v => some (.blkDynamic r.1 a.1 b.1 v.1, v.2)
    else some (.blkReserved r.1, q.2)

/-- A reader's answer as `Decoded`. -/
def toDecoded (o : Option (Instr × Cursor)) : Decoded := match o with | none => .short | some r => .instr r.1 r.2

theorem header_eq (c : Cursor) : decode .header c = toDecoded (headerReader c) := by
  simp only [decode, decodeHeader, headerReader]
  cases readBit c with
  | none => rfl
  | some r =>
    obtain ⟨f, c1⟩ := r
    simp only [Option.bind_some]
    cases readBits 2 c1 with
    | none => rfl
    | some q =>
      obtain ⟨t, c2⟩ := q
      simp only [Option.bind_some]
      split
      · simp only [decodeStored]
        cases readU16le (align c2) with
        | none => rfl
        | some l => obtain ⟨l, c3⟩ := l; simp only [Option.bind_some]; cases readU16le c3 <;> rfl
      · split
        · rfl
        · split
          · simp only [decodeDynamic]
            cases readBits 5 c2 with
            | none => rfl
            | some a =>
              obtain ⟨a, c3⟩ := a
              simp only [Option.bind_some]
              cases readBits 5 c3 with
              | none => rfl
              | some b =>
                obtain ⟨b, c4⟩ := b
                simp only [Option.bind_some]
                cases readBits 4 c4 with
                | none => rfl
                | some d => obtain ⟨d, c5⟩ := d; simp only [Option.bind_some]; cases readFields 3 (hclenOf d) c5 <;> rfl
          · rfl

theorem exact_header : Exact headerReader := by
  refine Exact.bind (g := fun f c => (readBits 2 c).bind fun q =>
    if q.1 = 0 then
      (readU16le (align q.2)).bind fun l => (readU16le l.2).bind fun n => some (Instr.blkStored f l.1 n.1, n.2)
    else if q.1 = 1 then some (.blkFixed f, q.2)
    else if q.1 = 2 then
      (readBits 5 q.2).bind fun a => (readBits 5 a.2).bind fun b => (readBits 4 b.2).bind fun d =>
        (readFields 3 (hclenOf d.1) d.2).bind fun v => some (.blkDynamic f a.1 b.1 v.1, v.2)
    else some (.blkReserved f, q.2)) exact_readBit fun f => ?_
  refine Exact.bind (g := fun t c =>
    if t = 0 then
      (readU16le (align c)).bind fun l => (readU16le l.2).bind fun n => some (Instr.blkStored f l.1 n.1, n.2)
    else if t = 1 then some (.blkFixed f, c)
    else if t = 2 then
      (readBits 5 c).bind fun a => (readBits 5 a.2).bind fun b => (readBits 4 b.2).bind fun d =>
        (readFields 3 (hclenOf d.1) d.2).bind fun v => some (.blkDynamic f a.1 b.1 v.1, v.2)
    else some (.blkReserved f, c)) (exact_readBits 2) fun t => ?_
  split
  · exact Exact.bind (g := fun l c => (readU16le c).bind fun n => some (Instr.blkStored f l n.1, n.2)) exact_align_readU16le fun l =>
      exact_readU16le.map _
  · split
    · exact Exact.pure _
    · split
      · refine Exact.bind (g := fun a c => (readBits 5 c).bind fun b => (readBits 4 b.2).bind fun d =>
          (readFields 3 (hclenOf d.1) d.2).bind fun v => some (Instr.blkDynamic f a b.1 v.1, v.2)) (exact_readBits 5) fun a => ?_
        refine Exact.bind (g := fun b c => (readBits 4 c).bind fun d =>
          (readFields 3 (hclenOf d.1) d.2).bind fun v => some (Instr.blkDynamic f a b v.1, v.2)) (exact_readBits 5) fun b => ?_
        refine Exact.bind (g := fun d c =>
          (readFields 3 (hclenOf d) c).bind fun v => some (Instr.blkDynamic f a b v.1, v.2)) (exact_readBits 4) fun d => ?_
        exact (exact_readFields 3 _).map _
      · exact Exact.pure _

theorem header_wf {c c' : Cursor} {i : Instr} (h : headerReader c = some (i, c')) : i.WellFormed := by
  obtain ⟨⟨f, c1⟩, h1, h⟩ := Option.bind_eq_some_iff.1 h
  obtain ⟨⟨t, c2⟩, h2, h⟩ := Option.bind_eq_some_iff.1 h
  simp only at h h2
  split at h
  · obtain ⟨⟨l, c3⟩, h3, h⟩ := Option.bind_eq_some_iff.1 h
    obtain ⟨⟨n, c4⟩, h4, h⟩ := Option.bind_eq_some_iff.1 h
    simp only [Option.some.injEq, Prod.mk.injEq] at h
    rw [← h.1]; rfl
  · split at h
    · simp only [Option.some.injEq, Prod.mk.injEq] at h; rw [← h.1]; rfl
    · split at h
      · obtain ⟨⟨a, c3⟩, h3, h⟩ := Option.bind_eq_some_iff.1 h
        obtain ⟨⟨b, c4⟩, h4, h⟩ := Option.bind_eq_some_iff.1 h
        obtain ⟨⟨d, c5⟩, h5, h⟩ := Option.bind_eq_some_iff.1 h
        obtain ⟨⟨v, c6⟩, h6, h⟩ := Option.bind_eq_some_iff.1 h
        simp only [Option.some.injEq, Prod.mk.injEq] at h
        obtain ⟨h7, h8⟩ := readFields_spec h6
        have := readBits_lt h3
        have := readBits_lt h4
        have := readBits_lt h5
        rw [← h.1]
        simp only [Instr.WellFormed, Instr.wf, Bool.and_eq_true, decide_eq_true_eq, List.all_eq_true, h7, hclenOf]
        exact ⟨⟨⟨⟨by assumption, by assumption⟩, by omega⟩, by omega⟩, h8⟩
      · simp only [Option.some.injEq, Prod.mk.injEq] at h; rw [← h.1]; rfl

theorem litlenRow_wf {sym e : Nat} {i : Instr} (h : litlenRow sym e = some i) (he : e < 2 ^ lengthExtraOf sym) : i.WellFormed := by
  simp only [litlenRow] at h
  split at h
  · simp at h; rw [← h]; rfl
  · split at h
    · simp at h; rw [← h]; rfl
    · split at h
      · have h1 : 257 ≤ sym := by omega
        have h2 : sym ≤ 285 := by omega
        interval_cases sym <;> (simp [lenRows, lenRowsLow, lenRowsHigh] at h; rw [← h]; first | rfl | exact decide_eq_true he)
      · split at h
        · simp at h; rw [← h]; rfl
        · split at h
          · simp at h; rw [← h]; rfl
          · cases h

theorem distRow_wf {sym e : Nat} {i : Instr} (h : distRow sym e = some i) (he : e < 2 ^ distExtraOf sym) : i.WellFormed := by
  have h1 : sym < 32 := by
    by_contra hc
    simp [distRow, distRows, distRowsLow, distRowsHigh, show 32 ≤ sym by omega] at h
  interval_cases sym <;> (simp [distRow, distRows, distRowsLow, distRowsHigh] at h; rw [← h]; first | rfl | exact decide_eq_true he)

theorem clRow_wf {sym e : Nat} {p : Option Nat} {i : Instr} (h : clRow sym e = some i) (he : e < 2 ^ clExtraOf sym p) : i.WellFormed := by
  simp only [clRow] at h
  split at h
  · next hs => simp at h; rw [← h]; exact decide_eq_true hs
  · split at h
    · next hs => 
      subst hs; simp at h; rw [← h]
      refine decide_eq_true (lt_of_lt_of_le he ?_)
      cases p <;> simp [clExtraOf]
    · split at h
      · next hs => subst hs; simp at h; rw [← h]; exact decide_eq_true he
      · split at h
        · next hs => subst hs; simp at h; rw [← h]; exact decide_eq_true he
        · cases h

theorem symbol_exact (t : Tree) (w : Nat → Nat) (row : Nat → Nat → Option Instr) (hwf : ∀ sym e i, row sym e = some i → e < 2 ^ w sym → i.WellFormed)
    {c c' : Cursor} {i : Instr} (h : decodeSymbol t w row c = .instr i c') :
    i.WellFormed ∧
    ∃ used, c.bits = used ++ c'.bits ∧ c'.pos = c.pos + used.length ∧
      (∀ rest, decodeSymbol t w row ⟨c.pos, used ++ rest⟩ = .instr i ⟨c.pos + used.length, rest⟩) ∧
      ∀ n, n < used.length → decodeSymbol t w row ⟨c.pos, used.take n⟩ = .short := by
  let f : Cursor → Option ((Nat × Nat) × Cursor) := fun c => (decodeSym t c).bind fun r => (readBits (w r.1) r.2).bind fun q => some ((r.1, q.1), q.2)
  have hf : Exact f := Exact.bind (g := fun s c => (readBits (w s) c).bind fun q => some ((s, q.1), q.2)) (exact_decodeSym t) fun s => (exact_readBits _).map _
  have heq : ∀ c, decodeSymbol t w row c = match f c with
      | none => .short
      | some ((s, e), c2) => match row s e with | none => .noRow s c2 | some i => .instr i c2 := by
    intro c
    simp only [decodeSymbol, f]
    cases decodeSym t c with
    | none => rfl
    | some r => obtain ⟨s, c1⟩ := r; simp only [Option.bind_some]; cases readBits (w s) c1 <;> rfl
  have hlt : ∀ c s e c2, f c = some ((s, e), c2) → e < 2 ^ w s := by
    intro c s e c2 h
    obtain ⟨⟨s', c1⟩, h1, h⟩ := Option.bind_eq_some_iff.1 h
    obtain ⟨⟨e', c2⟩, h2, h⟩ := Option.bind_eq_some_iff.1 h
    simp only [Option.some.injEq, Prod.mk.injEq] at h
    obtain ⟨⟨rfl, rfl⟩, rfl⟩ := h
    exact readBits_lt h2
  rw [heq] at h
  split at h
  · cases h
  · next s e c2 hfc =>
    split at h
    · cases h
    · next i' hr =>
      simp only [Decoded.instr.injEq] at h
      obtain ⟨rfl, rfl⟩ := h
      obtain ⟨used, h1, h2, h3, h4⟩ := hf _ _ _ hfc
      refine ⟨hwf _ _ _ hr (hlt _ _ _ _ hfc), used, h1, h2, fun rest => ?_, fun n hn => ?_⟩
      · rw [heq, h3]; simp [hr]
      · rw [heq, h4 n hn]

end Sys2Proof
end

