-- ==== Sys2Proof/Laws/State.lean ====
section
/-! SUPPORT. One lemma per field per named update of State. -/

namespace Sys2Proof.Machine

/-! ### `advance` -/
@[simp] theorem State.advance_blk (p : Nat) (s : State) : (s.advance p).blk = s.blk := by unfold State.advance; split <;> rfl
@[simp] theorem State.advance_bitpos (p : Nat) (s : State) : (s.advance p).bitpos = p := by unfold State.advance; split <;> rfl
@[simp] theorem State.advance_err (p : Nat) (s : State) : (s.advance p).err = s.err := by unfold State.advance; split <;> rfl
@[simp] theorem State.advance_window (p : Nat) (s : State) : (s.advance p).window = s.window := by unfold State.advance; split <;> rfl
@[simp] theorem State.advance_out (p : Nat) (s : State) : (s.advance p).out = s.out := by unfold State.advance; split <;> rfl
@[simp] theorem State.advance_src (p : Nat) (s : State) : (s.advance p).src = s.src := by unfold State.advance; split <;> rfl
@[simp] theorem State.advance_inStep (p : Nat) (s : State) : (s.advance p).inStep = s.inStep := by
  unfold State.advance; split <;> simp_all
@[simp] theorem State.advance_cur (p : Nat) (s : State) : (s.advance p).cur = s.cur := by unfold State.advance; split <;> rfl
@[simp] theorem State.advance_cmds (p : Nat) (s : State) : (s.advance p).cmds = s.cmds := by unfold State.advance; split <;> rfl
@[simp] theorem State.advance_resp (p : Nat) (s : State) : (s.advance p).resp = s.resp := by unfold State.advance; split <;> rfl
@[simp] theorem State.advance_params (p : Nat) (s : State) : (s.advance p).params = s.params := by
  unfold State.advance; split <;> rfl
@[simp] theorem State.advance_freeCtr (p : Nat) (s : State) : (s.advance p).freeCtr = s.freeCtr := by
  unfold State.advance; split <;> rfl

@[simp] theorem State.advance_fetchedAtErr (p : Nat) (s : State) : (s.advance p).fetchedAtErr = s.fetchedAtErr := by
  unfold State.advance; split <;> rfl

/-- Reading moves the place to which a hold would return nowhere. -/
theorem State.advance_ckpt (p : Nat) (s : State) : (s.advance p).ckpt = s.settled := by
  unfold State.advance State.settled; cases s.inStep <;> rfl

theorem State.advance_eq (p : Nat) (s : State) : s.advance p = { s with bitpos := p, ckpt := s.settled } := by
  unfold State.advance State.settled; cases s.inStep <;> rfl

/-! ### `respond` -/
@[simp] theorem State.respond_blk (r : Response) (s : State) : (s.respond r).blk = s.blk := rfl
@[simp] theorem State.respond_bitpos (r : Response) (s : State) : (s.respond r).bitpos = s.bitpos := rfl
@[simp] theorem State.respond_err (r : Response) (s : State) : (s.respond r).err = s.err := rfl
@[simp] theorem State.respond_window (r : Response) (s : State) : (s.respond r).window = s.window := rfl
@[simp] theorem State.respond_out (r : Response) (s : State) : (s.respond r).out = s.out := rfl
@[simp] theorem State.respond_src (r : Response) (s : State) : (s.respond r).src = s.src := rfl
@[simp] theorem State.respond_inStep (r : Response) (s : State) : (s.respond r).inStep = s.inStep := rfl
@[simp] theorem State.respond_ckpt (r : Response) (s : State) : (s.respond r).ckpt = s.ckpt := rfl
@[simp] theorem State.respond_cur (r : Response) (s : State) : (s.respond r).cur = .idle := rfl
@[simp] theorem State.respond_cmds (r : Response) (s : State) : (s.respond r).cmds = s.cmds := rfl
@[simp] theorem State.respond_resp (r : Response) (s : State) : (s.respond r).resp = s.resp ++ [r] := rfl
@[simp] theorem State.respond_params (r : Response) (s : State) : (s.respond r).params = s.params := rfl
@[simp] theorem State.respond_freeCtr (r : Response) (s : State) : (s.respond r).freeCtr = s.freeCtr := rfl
@[simp] theorem State.respond_fetchedAtErr (r : Response) (s : State) : (s.respond r).fetchedAtErr = s.fetchedAtErr := rfl

/-! ### `raise`: nothing is said of `blk` and `bitpos`, which are free values -/
@[simp] theorem State.raise_err (k : ErrorKind) (s : State) : (s.raise k).err = some k := by
  unfold State.raise; split <;> rfl
@[simp] theorem State.raise_window (k : ErrorKind) (s : State) : (s.raise k).window = s.window := by
  unfold State.raise; split <;> rfl
@[simp] theorem State.raise_out (k : ErrorKind) (s : State) : (s.raise k).out = s.out := by
  unfold State.raise; split <;> rfl
@[simp] theorem State.raise_src (k : ErrorKind) (s : State) : (s.raise k).src = s.src := by
  unfold State.raise; split <;> rfl
@[simp] theorem State.raise_inStep (k : ErrorKind) (s : State) : (s.raise k).inStep = .nothing := by
  unfold State.raise; split <;> rfl
@[simp] theorem State.raise_ckpt (k : ErrorKind) (s : State) : (s.raise k).ckpt = s.ckpt := by
  unfold State.raise; split <;> rfl
@[simp] theorem State.raise_cmds (k : ErrorKind) (s : State) : (s.raise k).cmds = s.cmds := by
  unfold State.raise; split <;> rfl
@[simp] theorem State.raise_params (k : ErrorKind) (s : State) : (s.raise k).params = s.params := by
  unfold State.raise; split <;> rfl
@[simp] theorem State.raise_freeCtr (k : ErrorKind) (s : State) : (s.raise k).freeCtr = s.freeCtr + 1 := by
  unfold State.raise; split <;> rfl

@[simp] theorem State.raise_fetchedAtErr (k : ErrorKind) (s : State) : (s.raise k).fetchedAtErr = s.fetched := by
  unfold State.raise; split <;> rfl

/-- Raising changes the source's count of the bytes it has handed over nowhere. -/
@[simp] theorem State.raise_fetched (k : ErrorKind) (s : State) : (s.raise k).fetched = s.fetched := by
  rw [State.fetched, State.raise_err]; exact State.raise_fetchedAtErr k s

theorem State.raise_makeAvail {k : ErrorKind} {s : State} {n : Nat} (h : s.cur = .makeAvail n) :
    (s.raise k).cur = .idle ∧ (s.raise k).resp = s.resp ++ [.err k] := by
  unfold State.raise; simp [h]

theorem State.raise_read {k : ErrorKind} {s : State} {m : Nat} {got : List Byte} (h : s.cur = .read m got) :
    (s.raise k).cur = s.cur ∧ (s.raise k).resp = s.resp := by
  unfold State.raise; simp [h]

theorem State.raise_idle {k : ErrorKind} {s : State} (h : s.cur = .idle) :
    (s.raise k).cur = s.cur ∧ (s.raise k).resp = s.resp := by
  unfold State.raise; simp [h]

/-! ### `resetStep` -/
@[simp] theorem State.resetStep_blk (s : State) : s.resetStep.blk = .header := rfl
@[simp] theorem State.resetStep_bitpos (s : State) : s.resetStep.bitpos = 0 := rfl
@[simp] theorem State.resetStep_err (s : State) : s.resetStep.err = none := rfl
@[simp] theorem State.resetStep_window (s : State) : s.resetStep.window = Window.empty := rfl
@[simp] theorem State.resetStep_out (s : State) : s.resetStep.out = [] := rfl
@[simp] theorem State.resetStep_src (s : State) :
    s.resetStep.src = { s.src with base := s.src.base + s.fetched } := rfl
@[simp] theorem State.resetStep_inStep (s : State) : s.resetStep.inStep = .nothing := rfl
@[simp] theorem State.resetStep_ckpt (s : State) : s.resetStep.ckpt = 0 := rfl
@[simp] theorem State.resetStep_cur (s : State) : s.resetStep.cur = .idle := rfl
@[simp] theorem State.resetStep_cmds (s : State) : s.resetStep.cmds = s.cmds := rfl
@[simp] theorem State.resetStep_resp (s : State) : s.resetStep.resp = s.resp := rfl
@[simp] theorem State.resetStep_params (s : State) : s.resetStep.params = s.params := rfl
@[simp] theorem State.resetStep_freeCtr (s : State) : s.resetStep.freeCtr = s.freeCtr := rfl
@[simp] theorem State.resetStep_fetchedAtErr (s : State) : s.resetStep.fetchedAtErr = 0 := rfl

/-! ### `fetched` -/
theorem State.fetched_of_none {s : State} (h : s.err = none) : s.fetched = (s.bitpos + 7) / 8 := by
  unfold State.fetched; rw [h]

theorem State.fetched_of_some {s : State} {k : ErrorKind} (h : s.err = some k) : s.fetched = s.fetchedAtErr := by
  unfold State.fetched; rw [h]

/-! ### `rollback` and `hold` -/
theorem State.rollback_eq (s : State) : s.rollback = { s with bitpos := s.settled, inStep := .nothing } := by
  obtain ⟨_, _, _, _, _, _, i, _, _, _, _, _, _, _⟩ := s
  cases i <;> rfl

@[simp] theorem State.hold_blk (s : State) : s.hold.blk = s.blk := by simp [State.hold, State.rollback_eq]
@[simp] theorem State.hold_bitpos (s : State) : s.hold.bitpos = s.settled := by simp [State.hold, State.rollback_eq]
@[simp] theorem State.hold_err (s : State) : s.hold.err = s.err := by simp [State.hold, State.rollback_eq]
@[simp] theorem State.hold_window (s : State) : s.hold.window = s.window := by simp [State.hold, State.rollback_eq]
@[simp] theorem State.hold_out (s : State) : s.hold.out = s.out := by simp [State.hold, State.rollback_eq]
@[simp] theorem State.hold_src (s : State) : s.hold.src = s.src.deliver := rfl
@[simp] theorem State.hold_inStep (s : State) : s.hold.inStep = .nothing := by simp [State.hold, State.rollback_eq]
@[simp] theorem State.hold_ckpt (s : State) : s.hold.ckpt = s.ckpt := by simp [State.hold, State.rollback_eq]
@[simp] theorem State.hold_cur (s : State) : s.hold.cur = s.cur := by simp [State.hold, State.rollback_eq]
@[simp] theorem State.hold_cmds (s : State) : s.hold.cmds = s.cmds := by simp [State.hold, State.rollback_eq]
@[simp] theorem State.hold_resp (s : State) : s.hold.resp = s.resp := by simp [State.hold, State.rollback_eq]
@[simp] theorem State.hold_params (s : State) : s.hold.params = s.params := by simp [State.hold, State.rollback_eq]
@[simp] theorem State.hold_freeCtr (s : State) : s.hold.freeCtr = s.freeCtr := by simp [State.hold, State.rollback_eq]
@[simp] theorem State.hold_fetchedAtErr (s : State) : s.hold.fetchedAtErr = s.fetchedAtErr := by
  simp [State.hold, State.rollback_eq]

/-! ### `Window.put` and `Source.deliver` -/
@[simp] theorem Window.put_wpos (cap : Nat) (b : Byte) (w : Window) : (w.put cap b).wpos = (w.wpos + 1) % cap := rfl
@[simp] theorem Window.put_written (cap : Nat) (b : Byte) (w : Window) :
    (w.put cap b).written = min (w.written + 1) cap := rfl
@[simp] theorem Window.put_avail (cap : Nat) (b : Byte) (w : Window) : (w.put cap b).avail = w.avail + 1 := rfl
@[simp] theorem Window.put_cells (cap : Nat) (b : Byte) (w : Window) :
    (w.put cap b).cells = w.cells.write w.wpos b := rfl

@[simp] theorem Source.deliver_base (x : Source) : x.deliver.base = x.base := by unfold Source.deliver; split <;> rfl

/-- The source only appends, and nothing once it has ended (R40). -/
theorem Source.deliver_bytes (x : Source) :
    ∃ new, x.deliver.bytes = x.bytes ++ new ∧ (x.ended = true → new = [] ∧ x.deliver.ended = true) := by
  obtain ⟨bytes, ended, base, incoming⟩ := x
  cases ended
  · cases incoming with
    | nil => exact ⟨[], by simp [Source.deliver]⟩
    | cons ev rest =>
      cases ev with
      | byte b => exact ⟨[b], by simp [Source.deliver]⟩
      | stop => exact ⟨[], by simp [Source.deliver]⟩
  · exact ⟨[], by simp [Source.deliver]⟩

end Sys2Proof.Machine
end

