-- ==== Sys2Proof/Laws/Window.lean ====
section
/-! SUPPORT. Memory and SlidingWindow: read after write, the canonical form, the invariant of R36, the byte `d` back. -/

namespace Sys2Proof.Machine

/-! ### Memory -/

@[simp] theorem Memory.read_nil (a : Nat) : Memory.read [] a = none := rfl

theorem Memory.read_write_same (m : Memory) (a : Nat) (v : Byte) : (m.write a v).read a = some v := by
  induction m with
  | nil => simp [Memory.write, Memory.read]
  | cons c rest ih =>
    obtain ⟨k, x⟩ := c
    simp only [Memory.write]
    split
    · simp [Memory.read]
    · split
      · simp [Memory.read]
      · next h => simp [Memory.read, Ne.symm h, ih]

theorem Memory.read_write_other (m : Memory) (a b : Nat) (v : Byte) (hab : b ≠ a) : (m.write a v).read b = m.read b := by
  induction m with
  | nil => simp [Memory.write, Memory.read, Ne.symm hab]
  | cons c rest ih =>
    obtain ⟨k, x⟩ := c
    simp only [Memory.write]
    split
    · simp [Memory.read, Ne.symm hab]
    · split
      · next h => subst h; simp [Memory.read, Ne.symm hab]
      · simp [Memory.read, ih]

theorem Memory.write_mem_fst {m : Memory} {a k : Nat} {v : Byte} (h : k ∈ (m.write a v).map Prod.fst) :
    k = a ∨ k ∈ m.map Prod.fst := by
  induction m with
  | nil => simpa [Memory.write] using h
  | cons c rest ih =>
    obtain ⟨k', x⟩ := c
    simp only [Memory.write] at h
    split at h
    · simpa using h
    · split at h
      · next hk => subst hk; simpa using h
      · simp only [List.map_cons, List.mem_cons] at h ⊢
        rcases h with h | h
        · exact .inr (.inl h)
        · rcases ih h with h | h
          · exact .inl h
          · exact .inr (.inr h)

/-- A write keeps the canonical form. -/
theorem Memory.write_wf (m : Memory) (a : Nat) (v : Byte) (h : m.wf) : (m.write a v).wf := by
  induction m with
  | nil => simp [Memory.wf, Memory.write]
  | cons c rest ih =>
    obtain ⟨k, x⟩ := c
    simp only [Memory.wf, List.map_cons, List.pairwise_cons] at h
    simp only [Memory.write]
    split
    · next hlt =>
      simp only [Memory.wf, List.map_cons, List.pairwise_cons, List.mem_cons]
      exact ⟨fun y hy => hy.elim (fun e => e ▸ hlt) (fun e => Nat.lt_trans hlt (h.1 y e)), h.1, h.2⟩
    · split
      · next _ heq => subst heq; simpa [Memory.wf] using h
      · next hlt hne =>
        simp only [Memory.wf, List.map_cons, List.pairwise_cons]
        refine ⟨fun y hy => ?_, ih h.2⟩
        rcases Memory.write_mem_fst hy with e | e
        · omega
        · exact h.1 y e

/-- The memory of the reset window is in canonical form. -/
theorem Memory.reset_wf : State.reset.window.cells.wf := by simp [Memory.wf, State.reset, Window.empty]

theorem Memory.read_isSome {m : Memory} {a : Nat} : (m.read a).isSome ↔ a ∈ m.map Prod.fst := by
  induction m with
  | nil => simp
  | cons c rest ih =>
    obtain ⟨k, x⟩ := c
    simp only [Memory.read, List.map_cons, List.mem_cons]
    split
    · next h => simp [h]
    · next h => rw [ih]; simp [Ne.symm h]

theorem Memory.write_keys_range' (m : Memory) (st n a : Nat) (v : Byte) (hm : m.map Prod.fst = List.range' st n)
    (h1 : st ≤ a) (h2 : a ≤ st + n) : (m.write a v).map Prod.fst = List.range' st (max n (a + 1 - st)) := by
  induction m generalizing st n with
  | nil =>
    cases n with
    | succ n => simp [List.range'_succ] at hm
    | zero =>
      obtain rfl : a = st := by omega
      simp [Memory.write]
  | cons c rest ih =>
    obtain ⟨k, x⟩ := c
    cases n with
    | zero => simp at hm
    | succ n =>
      simp only [List.map_cons, List.range'_succ, List.cons.injEq] at hm
      obtain ⟨rfl, hr⟩ := hm
      simp only [Memory.write]
      rw [if_neg (by omega)]
      by_cases hk : a = k
      · subst hk
        simp only [if_true, List.map_cons, hr]
        rw [show max (n + 1) (a + 1 - a) = n + 1 by omega, List.range'_succ]
      · rw [if_neg hk, List.map_cons, ih (k + 1) n hr (by omega) (by omega)]
        rw [show max (n + 1) (a + 1 - k) = max n (a + 1 - (k + 1)) + 1 by omega, List.range'_succ]

theorem Memory.write_keys (m : Memory) (n a : Nat) (v : Byte) (hm : m.map Prod.fst = List.range n) (h : a ≤ n) :
    (m.write a v).map Prod.fst = List.range (max n (a + 1)) := by
  rw [List.range_eq_range'] at hm ⊢
  simpa using Memory.write_keys_range' m 0 n a v hm (by omega) (by omega)

/-! ### The invariant of the window -/

/-- `Window.inv` as propositions. -/
theorem Window.inv_iff {cap : Nat} {w : Window} :
    w.inv cap = true ↔
      w.avail ≤ w.written ∧ w.written ≤ cap ∧ w.wpos < cap ∧ (w.written < cap → w.wpos = w.written) ∧
        w.cells.map Prod.fst = List.range w.written := by
  simp only [Window.inv, Bool.and_eq_true, Bool.or_eq_true, decide_eq_true_eq]
  constructor
  · rintro ⟨⟨⟨⟨h1, h2⟩, h3⟩, h4⟩, h5⟩
    exact ⟨h1, h2, h3, fun h => h4.resolve_left (by omega), h5⟩
  · rintro ⟨h1, h2, h3, h4, h5⟩
    exact ⟨⟨⟨⟨h1, h2⟩, h3⟩, by
      by_cases h : cap ≤ w.written
      · exact .inl h
      · exact .inr (h4 (by omega))⟩, h5⟩

/-- The invariant contains the canonical form of the memory. -/
theorem Window.inv_cells_wf {cap : Nat} {w : Window} (h : w.inv cap = true) : w.cells.wf := by
  rw [Memory.wf, (Window.inv_iff.1 h).2.2.2.2]
  exact List.pairwise_lt_range

theorem Window.empty_inv {cap : Nat} (h : 0 < cap) : Window.empty.inv cap = true := by
  rw [Window.inv_iff]; simp [Window.empty, h]

/-- The cell at a ring index below `WRITTEN` holds a value, and no other does. -/
theorem Window.read_isSome {cap : Nat} {w : Window} (h : w.inv cap = true) (a : Nat) :
    (w.cells.read a).isSome ↔ a < w.written := by
  rw [Memory.read_isSome, (Window.inv_iff.1 h).2.2.2.2, List.mem_range]

/-- `d` bytes back is a cell that was written, for every `d` up to `WRITTEN` (R164, R168). -/
theorem Window.back_lt_written {cap d : Nat} {w : Window} (h : w.inv cap = true) (h1 : 1 ≤ d) (h2 : d ≤ w.written) :
    w.back cap d < w.written := by
  obtain ⟨_, hc, hp, hr, _⟩ := Window.inv_iff.1 h
  unfold Window.back
  by_cases hw : w.written < cap
  · have := hr hw
    rw [show w.wpos + cap - d = (w.wpos - d) + cap by omega, Nat.add_mod_right, Nat.mod_eq_of_lt (by omega)]
    omega
  · have : w.written = cap := by omega
    exact this ▸ Nat.mod_lt _ (by omega)

theorem Window.byteBack_isSome {cap d : Nat} {w : Window} (h : w.inv cap = true) (h1 : 1 ≤ d) (h2 : d ≤ w.written) :
    ∃ b, w.byteBack cap d = some b :=
  Option.isSome_iff_exists.1 ((Window.read_isSome h _).2 (Window.back_lt_written h h1 h2))

/-- `win_put` keeps the invariant (R161). -/
theorem Window.put_inv {cap : Nat} {w : Window} (b : Byte) (h : w.inv cap = true) (ha : w.avail < cap) :
    (w.put cap b).inv cap = true := by
  obtain ⟨h1, h2, h3, h4, h5⟩ := Window.inv_iff.1 h
  have hle : w.wpos ≤ w.written := by
    by_cases hw : w.written < cap
    · exact (h4 hw).le
    · omega
  rw [Window.inv_iff]
  simp only [Window.put_avail, Window.put_written, Window.put_wpos, Window.put_cells]
  refine ⟨by omega, by omega, Nat.mod_lt _ (by omega), fun hlt => ?_, ?_⟩
  · have := h4 (by omega)
    rw [Nat.mod_eq_of_lt (by omega)]; omega
  · rw [Memory.write_keys _ _ _ _ h5 hle]
    congr 1
    by_cases hw : w.written < cap
    · have := h4 hw; omega
    · omega

/-! ### The byte `d` back -/

theorem Window.back_one {cap : Nat} {w : Window} (b : Byte) (h : w.wpos < cap) : (w.put cap b).back cap 1 = w.wpos := by
  simp only [Window.back, Window.put_wpos]
  by_cases hc : w.wpos + 1 = cap
  · rw [hc, Nat.mod_self, Nat.mod_eq_of_lt (by omega)]; omega
  · rw [Nat.mod_eq_of_lt (show w.wpos + 1 < cap by omega), show w.wpos + 1 + cap - 1 = w.wpos + cap by omega,
      Nat.add_mod_right, Nat.mod_eq_of_lt h]

theorem Window.back_succ {cap d : Nat} {w : Window} (b : Byte) (h : w.wpos < cap) (hd : d + 1 ≤ cap) :
    (w.put cap b).back cap (d + 1) = w.back cap d := by
  simp only [Window.back, Window.put_wpos]
  by_cases hc : w.wpos + 1 = cap
  · rw [hc, Nat.mod_self]
    rw [show w.wpos + cap - d = (cap - (d + 1)) + cap by omega, Nat.add_mod_right]
    congr 1; omega
  · rw [Nat.mod_eq_of_lt (show w.wpos + 1 < cap by omega)]
    congr 1; omega

theorem Window.back_ne_wpos {cap d : Nat} {w : Window} (h : w.wpos < cap) (h1 : 1 ≤ d) (h2 : d < cap) :
    w.back cap d ≠ w.wpos := by
  unfold Window.back
  by_cases hd : d ≤ w.wpos
  · rw [show w.wpos + cap - d = (w.wpos - d) + cap by omega, Nat.add_mod_right, Nat.mod_eq_of_lt (by omega)]
    omega
  · rw [Nat.mod_eq_of_lt (by omega)]; omega

/-- The byte just put is one back. -/
theorem Window.byteBack_put_one {cap : Nat} {w : Window} (b : Byte) (h : w.wpos < cap) :
    (w.put cap b).byteBack cap 1 = some b := by
  unfold Window.byteBack
  rw [Window.back_one b h]
  exact Memory.read_write_same _ _ _

/-- What was `d` back is one further back after a put. -/
theorem Window.byteBack_put_succ {cap d : Nat} {w : Window} (b : Byte) (h : w.wpos < cap) (h1 : 1 ≤ d) (h2 : d + 1 ≤ cap) :
    (w.put cap b).byteBack cap (d + 1) = w.byteBack cap d := by
  unfold Window.byteBack
  rw [Window.back_succ b h h2]
  exact Memory.read_write_other _ _ _ _ (Window.back_ne_wpos h h1 (by omega))

/-! ### Self-copy -/

/-- Under the invariant a copied byte is always there, and putting it is the copy (R164). -/
theorem Window.selfCopyByte_eq {cap d : Nat} {w : Window} (h : w.inv cap = true) (h1 : 1 ≤ d) (h2 : d ≤ w.written) :
    ∃ b, w.byteBack cap d = some b ∧ w.selfCopyByte cap d = some (w.put cap b) := by
  obtain ⟨b, hb⟩ := Window.byteBack_isSome h h1 h2
  have hb' : w.cells.read (w.back cap d) = some b := hb
  exact ⟨b, hb, by simp [Window.selfCopyByte, hb', Nat.ne_of_gt h1]⟩

/-- The run exists under the invariant; the counters move by its length (R165, R204). -/
theorem Window.selfCopyRun_exists {cap d : Nat} (len : Nat) {w : Window} (h : w.inv cap = true) (h1 : 1 ≤ d)
    (h2 : d ≤ w.written) (h3 : w.avail + len ≤ cap) :
    ∃ w', w.selfCopyRun cap d len = some w' ∧ w'.inv cap = true ∧ w'.avail = w.avail + len ∧
      w'.written = min (w.written + len) cap ∧ w'.wpos = (w.wpos + len) % cap := by
  induction len generalizing w with
  | zero =>
    obtain ⟨_, hc, hp, _⟩ := Window.inv_iff.1 h
    exact ⟨w, rfl, h, rfl, by omega, by rw [Nat.add_zero, Nat.mod_eq_of_lt hp]⟩
  | succ k ih =>
    obtain ⟨b, -, hcopy⟩ := Window.selfCopyByte_eq h h1 h2
    obtain ⟨_, hc, _⟩ := Window.inv_iff.1 h
    obtain ⟨w', e, hi, ha, hw, hp⟩ := ih (Window.put_inv b h (by omega)) (by simp; omega) (by simp; omega)
    refine ⟨w', by simp [Window.selfCopyRun, hcopy, e], hi, ?_, ?_, ?_⟩
    · simp at ha; omega
    · simp at hw; omega
    · rw [hp, Window.put_wpos, Nat.mod_add_mod]; congr 1; omega

/-! ### Copy-out -/

theorem Window.readRun_length {cap : Nat} {w : Window} {k start : Nat} {bs : List Byte}
    (h : w.readRun cap start k = some bs) : bs.length = k := by
  induction k generalizing start bs with
  | zero => simp only [Window.readRun, Option.some.injEq] at h; subst h; rfl
  | succ k ih =>
    simp only [Window.readRun] at h
    split at h
    · cases h
    · split at h
      · cases h
      · next _ bs' hbs => simp only [Option.some.injEq] at h; subst h; simp [ih hbs]

theorem Window.readRun_exists {cap : Nat} {w : Window} (k start : Nat)
    (h : ∀ i, i < k → (w.cells.read ((start + i) % cap)).isSome) :
    ∃ bs, w.readRun cap start k = some bs ∧ ∀ i, i < k → bs[i]? = w.cells.read ((start + i) % cap) := by
  induction k generalizing start with
  | zero => exact ⟨[], rfl, by simp⟩
  | succ k ih =>
    obtain ⟨b, hb⟩ := Option.isSome_iff_exists.1 (h 0 (by omega))
    obtain ⟨bs, hbs, hg⟩ := ih (start + 1) fun i hi => by
      have := h (i + 1) (by omega)
      rwa [show start + 1 + i = start + (i + 1) by omega]
    rw [Nat.add_zero] at hb
    refine ⟨b :: bs, by simp [Window.readRun, hb, hbs], fun i hi => ?_⟩
    cases i with
    | zero => simp [hb]
    | succ i =>
      rw [List.getElem?_cons_succ, hg i (by omega)]
      congr 2; omega

/-- The ring index of the `i`-th undelivered byte is `AVAIL - i` back (R29). -/
theorem Window.oldest_index {cap : Nat} {w : Window} (h : w.inv cap = true) {i : Nat} (hi : i < w.avail) :
    ((w.wpos + cap - w.avail) % cap + i) % cap = w.back cap (w.avail - i) := by
  obtain ⟨h1, h2, h3, -, -⟩ := Window.inv_iff.1 h
  rw [Nat.mod_add_mod]
  unfold Window.back
  congr 1; omega

/-- Under the invariant `win_copy_out(k)` delivers, and delivers the oldest bytes (R166). -/
theorem Window.copyOut_exists {cap k : Nat} {w : Window} (h : w.inv cap = true) (hk : k ≤ w.avail) :
    ∃ bs, w.copyOut cap k = some (bs, { w with avail := w.avail - k }) ∧ bs.length = k ∧ w.Oldest cap bs := by
  obtain ⟨h1, h2, h3, -, -⟩ := Window.inv_iff.1 h
  obtain ⟨bs, e, hg⟩ := Window.readRun_exists (w := w) (cap := cap) k ((w.wpos + cap - w.avail) % cap) fun i hi => by
    rw [Window.oldest_index h (by omega), Window.read_isSome h]
    exact Window.back_lt_written h (by omega) (by omega)
  have hl := Window.readRun_length e
  refine ⟨bs, by simp [Window.copyOut, e], hl, fun i hi => ?_⟩
  rw [hg i (by omega), Window.oldest_index h (by omega)]
  rfl

/-- What `win_copy_out` changes: `AVAIL` alone. -/
theorem Window.copyOut_window {cap k : Nat} {w w' : Window} {bs : List Byte} (h : w.copyOut cap k = some (bs, w')) :
    w' = { w with avail := w.avail - k } ∧ bs.length = k := by
  simp only [Window.copyOut] at h
  split at h
  · cases h
  · next _ hr => simp only [Option.some.injEq, Prod.mk.injEq] at h; exact ⟨h.2.symm, h.1 ▸ Window.readRun_length hr⟩

theorem Window.inv_take {cap k : Nat} {w : Window} (h : w.inv cap = true) :
    ({ w with avail := w.avail - k } : Window).inv cap = true := by
  rw [Window.inv_iff] at h ⊢
  exact ⟨by simp only; omega, h.2.1, h.2.2.1, h.2.2.2.1, h.2.2.2.2⟩

end Sys2Proof.Machine
end

