-- ==== Sys2Proof/Laws/Ops.lean ====
section
/-! SUPPORT. One lemma per shared operation: where its case runs, and everything it can answer. -/

namespace Sys2Proof.Machine

/-! ### The code-length slots (R181) -/

theorem fillClLen_length (cls : List Nat) : (fillClLen cls).length = Config.nCl := by
  have key : ∀ (l : List (Nat × Nat)) (acc : List Nat), (l.foldl (fun acc p => acc.set p.1 p.2) acc).length = acc.length := by
    intro l
    induction l with
    | nil => exact fun _ => rfl
    | cons a l ih => intro acc; rw [List.foldl_cons, ih, List.length_set]
  rw [fillClLen, key, List.length_replicate]

/-- Every slot holds one of the values or 0, so it is a 3-bit number where they are (R181; `MAXBITS_CL` of R7). -/
theorem fillClLen_le {m : Nat} {cls : List Nat} (h : ∀ v ∈ cls, v ≤ m) : ∀ l ∈ fillClLen cls, l ≤ m := by
  have key : ∀ (ps : List (Nat × Nat)) (acc : List Nat), (∀ p ∈ ps, p.2 ≤ m) → (∀ l ∈ acc, l ≤ m) →
      ∀ l ∈ ps.foldl (fun acc p => acc.set p.1 p.2) acc, l ≤ m := by
    intro ps
    induction ps with
    | nil => exact fun acc _ ha => ha
    | cons a ps ih =>
      intro acc hp ha
      refine ih _ (fun p hm => hp p (by simp [hm])) fun l hl => ?_
      rcases List.mem_or_eq_of_mem_set hl with hl | rfl
      · exact ha l hl
      · exact hp a (by simp)
  exact key _ _ (fun p hp => h p.2 (List.of_mem_zip hp).2) fun l hl => by rw [List.eq_of_mem_replicate hl]; exact Nat.zero_le _

/-! ### Where an element is due -/

theorem State.onHeader_at {s : State} (h : s.AtHeader) (r : Result) : s.onHeader r = r := by
  obtain ⟨h1, h2, h3⟩ := h
  simp [State.onHeader, h1, h2, h3]

theorem State.onHeader_next {s t : State} {r : Result} (h : s.onHeader r = .next t) : s.AtHeader ∧ r = .next t := by
  unfold State.onHeader at h
  split at h
  · next h1 h2 h3 => exact ⟨⟨h1, h2, h3⟩, h⟩
  · cases h

theorem State.onLengths_at {s : State} {d : DynHdr} (h : s.AtLengths d) (k : DynHdr → Result) : s.onLengths k = k d := by
  obtain ⟨h1, h2, h3, h4⟩ := h
  simp [State.onLengths, h1, h2, h3, h4]

theorem State.onLengths_next {s t : State} {k : DynHdr → Result} (h : s.onLengths k = .next t) :
    ∃ d, s.AtLengths d ∧ k d = .next t := by
  unfold State.onLengths at h
  split at h
  · next d h1 h2 h3 =>
    split at h
    · next h4 => exact ⟨d, ⟨h1, h2, h3, h4⟩, h⟩
    · cases h
  · cases h

theorem State.onSymbol_at {s : State} {lt dt : Tree} {o : Option Nat} {f : Bool} (h : s.AtSymbol lt dt o f)
    (k : Bool → Result) : s.onSymbol k = k f := by
  obtain ⟨h1, h2, h3⟩ := h
  simp [State.onSymbol, h1, h2, h3]

theorem State.onSymbol_next {s t : State} {k : Bool → Result} (h : s.onSymbol k = .next t) :
    ∃ lt dt o f, s.AtSymbol lt dt o f ∧ k f = .next t := by
  unfold State.onSymbol at h
  split at h
  · next lt dt o f h1 h2 h3 => exact ⟨lt, dt, o, f, ⟨h1, h2, h3⟩, h⟩
  · cases h

theorem State.onDistance_at {s : State} {len : Nat} {lt dt : Tree} {o : Option Nat} {f : Bool}
    (h : s.AtDistance len lt dt o f) (k : Nat → Tree → Tree → Bool → Result) : s.onDistance k = k len lt dt f := by
  obtain ⟨h1, h2, h3⟩ := h
  simp [State.onDistance, h1, h2, h3]

theorem State.onDistance_next {s t : State} {k : Nat → Tree → Tree → Bool → Result} (h : s.onDistance k = .next t) :
    ∃ len lt dt o f, s.AtDistance len lt dt o f ∧ k len lt dt f = .next t := by
  unfold State.onDistance at h
  split at h
  · next lt dt o f len h1 h2 h3 => exact ⟨len, lt, dt, o, f, ⟨h1, h2, h3⟩, h⟩
  · cases h

/-- Reading moves neither the demand nor the place. -/
@[simp] theorem State.advance_demanded (p : Nat) (s : State) : (s.advance p).demanded = s.demanded := by
  rw [State.advance_eq]; rfl

theorem State.demanded_iff {s : State} : s.demanded = true ↔ s.err = none ∧ s.window.avail < s.target := by
  simp [State.demanded, State.errLatched]

theorem State.cur_of_demanded {s : State} (h : s.demanded = true) : s.cur ≠ .idle := by
  intro hc
  have := (State.demanded_iff.1 h).2
  simp [State.target, hc] at this

/-! ### `raise` after reading -/

/-- A raise leaves no trace of what was read but the source's count and the note of where the step began. -/
theorem State.raise_advance (k : ErrorKind) (p : Nat) (s : State) :
    (s.advance p).raise k = { State.raise k { s with bitpos := p } with ckpt := s.settled } := by
  rw [State.advance_eq]
  obtain ⟨_, _, _, _, _, _, i, _, c, _, _, _, _, _⟩ := s
  cases c <;> rfl

/-! ### What an element's meaning can do -/

/-- Everything the meaning of a stream element can answer (R177 to R187, R205 to R207, R237, R238, R250, R281 to R284). -/
inductive ElementEffect (i : Instr) (s : State) : State → Prop
  | stored (r : Nat) (f : Bool) (hs : s.AtHeader) (hr : r < 65536) (hi : ∃ len nlen, i = .blkStored f len nlen) :
      ElementEffect i s { s with blk := .uncompressed r f }
  | fixed (f : Bool) (hs : s.AtHeader) :
      ElementEffect i s { s with blk := .huffman fixedLitlenTree fixedDistTree 0 none f }
  | dynamic (f : Bool) (hlit hdist : Nat) (cls : List Nat) (t : Tree) (hs : s.AtHeader)
      (hi : i = .blkDynamic f hlit hdist cls) (ht : buildTable s.params.singleCode (fillClLen cls) = .ok t) :
      ElementEffect i s { s with inStep := .dynHdr ⟨f, hlit + 257, hdist + 1, t, [], none⟩ }
  | lengths (h : DynHdr) (r v : Nat) (prev : Option Nat) (hs : s.AtLengths h) (hr : h.lens.length + r ≤ h.total)
      (hv : v = 0 ∨ h.prev = some v ∨ i = .clLen v)
      (hp : prev = none ∨ prev = some v ∨ prev = h.prev) :
      ElementEffect i s { s with inStep := .dynHdr { h with lens := h.lens ++ List.replicate r v, prev := prev } }
  | literal (b : Byte) (lt dt : Tree) (o : Option Nat) (f : Bool) (hs : s.AtSymbol lt dt o f) :
      ElementEffect i s { s with window := s.window.put Config.cap b }
  | eob (lt dt : Tree) (o : Option Nat) (f : Bool) (hs : s.AtSymbol lt dt o f) :
      ElementEffect i s { s with blk := afterBlock f }
  | length (idx e : Nat) (lt dt : Tree) (o : Option Nat) (f : Bool) (hs : s.AtSymbol lt dt o f)
      (hl : i.WellFormed → 3 ≤ lenOf idx e ∧ lenOf idx e ≤ 258) :
      ElementEffect i s { s with inStep := .awaitDist (lenOf idx e) }
  | distance (ds e len : Nat) (lt dt : Tree) (o : Option Nat) (f : Bool) (hs : s.AtDistance len lt dt o f)
      (h1 : 1 ≤ distOf ds e) (h2 : distOf ds e ≤ s.window.written) :
      ElementEffect i s { s with blk := .huffman lt dt len (some (distOf ds e)) f, inStep := .nothing }
  | raised (k : ErrorKind) (hd : s.demanded = true) : ElementEffect i s (s.raise k)

theorem lengthCode_effect {i : Instr} {idx e : Nat} {s t : State} (h : lengthCode idx e s = .next t)
    (hl : i.WellFormed → 3 ≤ lenOf idx e ∧ lenOf idx e ≤ 258) : ElementEffect i s t := by
  obtain ⟨lt, dt, o, f, hs, h⟩ := State.onSymbol_next h
  cases h
  exact .length idx e lt dt o f hs hl

theorem distanceCode_effect {i : Instr} {ds e : Nat} {s t : State} (h : distanceCode ds e s = .next t)
    (h1 : 1 ≤ distOf ds e) : ElementEffect i s t := by
  obtain ⟨len, lt, dt, o, f, hs, h⟩ := State.onDistance_next h
  split at h
  · next h2 => cases h; exact .distance ds e len lt dt o f hs h1 (by simpa [Window.distanceOk] using h2)
  · cases h; exact .raised _ hs.1

theorem appendRun_effect {i : Instr} {h : DynHdr} {r v : Nat} {prev : Option Nat} {s : State} (hs : s.AtLengths h)
    (hv : v = 0 ∨ h.prev = some v ∨ i = .clLen v) (hp : prev = none ∨ prev = some v ∨ prev = h.prev) :
    ElementEffect i s (appendRun h r v prev s) := by
  unfold appendRun
  split
  · exact .raised _ hs.1
  · exact .lengths h r v prev hs (by omega) hv hp

theorem prevAfterZeroRun_cases (p : Rep16Policy) (prev : Option Nat) :
    prevAfterZeroRun p prev = none ∨ prevAfterZeroRun p prev = some 0 ∨ prevAfterZeroRun p prev = prev := by
  cases p <;> simp [prevAfterZeroRun]

/-- The inversion lemma of a stream element's meaning. -/
theorem exec_element {i : Instr} {s t : State} (hi : i.tableValue.1 ≠ .hostcmd) (h : exec i s = .next t) :
    ElementEffect i s t := by
  cases i
  case blkStored f len nlen =>
    obtain ⟨hs, h⟩ := State.onHeader_next h
    split at h
    · cases h; exact .stored _ _ hs len.isLt ⟨len, nlen, rfl⟩
    · cases h; exact .raised _ hs.1
  case blkFixed f => obtain ⟨hs, h⟩ := State.onHeader_next h; cases h; exact .fixed f hs
  case blkDynamic f hlit hdist cls =>
    obtain ⟨hs, h⟩ := State.onHeader_next h
    split at h
    · cases h; exact .raised _ hs.1
    · next ct hct => cases h; exact .dynamic f hlit hdist cls ct hs rfl hct
  case blkReserved f => obtain ⟨hs, h⟩ := State.onHeader_next h; cases h; exact .raised _ hs.1
  case clLen v =>
    obtain ⟨d, hs, h⟩ := State.onLengths_next h
    cases h
    exact .lengths d 1 v (some v) hs hs.2.2.2 (.inr (.inr rfl)) (.inr (.inl rfl))
  case clRep16 e =>
    obtain ⟨d, hs, h⟩ := State.onLengths_next h
    split at h
    · cases h; exact .raised _ hs.1
    · next p hp => cases h; exact appendRun_effect hs (.inr (.inl hp)) (.inr (.inl rfl))
  case clZero17 e =>
    obtain ⟨d, hs, h⟩ := State.onLengths_next h
    cases h; exact appendRun_effect hs (.inl rfl) (prevAfterZeroRun_cases _ _)
  case clZero18 e =>
    obtain ⟨d, hs, h⟩ := State.onLengths_next h
    cases h; exact appendRun_effect hs (.inl rfl) (prevAfterZeroRun_cases _ _)
  case literal b => obtain ⟨lt, dt, o, f, hs, h⟩ := State.onSymbol_next h; cases h; exact .literal b lt dt o f hs
  case eob => obtain ⟨lt, dt, o, f, hs, h⟩ := State.onSymbol_next h; cases h; exact .eob lt dt o f hs
  case llInvalid286 => obtain ⟨lt, dt, o, f, hs, h⟩ := State.onSymbol_next h; cases h; exact .raised _ hs.1
  case llInvalid287 => obtain ⟨lt, dt, o, f, hs, h⟩ := State.onSymbol_next h; cases h; exact .raised _ hs.1
  case distInvalid30 => obtain ⟨len, lt, dt, o, f, hs, h⟩ := State.onDistance_next h; cases h; exact .raised _ hs.1
  case distInvalid31 => obtain ⟨len, lt, dt, o, f, hs, h⟩ := State.onDistance_next h; cases h; exact .raised _ hs.1
  case makeAvailable n => exact absurd rfl hi
  case copyOut n => exact absurd rfl hi
  case read n => exact absurd rfl hi
  case reset => exact absurd rfl hi
  all_goals first
    | (refine lengthCode_effect h fun hw => ?_
       first
         | decide
         | (have := of_decide_eq_true hw; simp only [lenOf, Config.lengthBase, List.cons_append, List.nil_append, List.getD_cons_succ, List.getD_cons_zero]; omega))
    | (refine distanceCode_effect h ?_
       simp only [distOf, Config.distBase, List.cons_append, List.nil_append, List.getD_cons_succ, List.getD_cons_zero]; omega)

/-! ### What a command, or the loop of one, can do -/

/-- What every command but RESET, and the loop of a running one, leaves: bytes delivered, responses given, the command that then
runs; nothing else (R301, R304, R305). -/
structure ServeEffect (s t : State) : Prop where
  ex : ∃ bs rs c,
    t = { s with window := { s.window with avail := s.window.avail - bs.length }, out := s.out ++ bs, cur := c,
                 resp := s.resp ++ rs } ∧
    bs.length ≤ s.window.avail ∧ rs.length ≤ 1 ∧
    (c = .idle ∨ (∃ n, c = .makeAvail n ∧ s.err = none ∧ s.window.avail < n ∧ s.isComplete = false ∧
      (s.cur = .makeAvail n ∨ n ≤ Config.cap)) ∨ ∃ m got, c = .read m got ∧ got.length ≤ m)

theorem ServeEffect.respond (s : State) (r : Response) : ServeEffect s (s.respond r) :=
  ⟨[], [r], .idle, by simp [State.respond], by simp, by simp, .inl rfl⟩

theorem serveMakeAvail_effect {n : Nat} {s : State} (h : s.cur = .makeAvail n ∨ n ≤ Config.cap) :
    ServeEffect s (serveMakeAvail n s) := by
  unfold serveMakeAvail
  split
  · exact .respond _ _
  · split
    · exact .respond _ _
    · next he =>
      split
      · exact .respond _ _
      · next hc =>
        exact ⟨[], [], .makeAvail n, by simp, by simp, by simp, .inr (.inl ⟨n, rfl, he, by omega, by simpa using hc, h⟩)⟩

theorem serveRead_effect {m : Nat} {got : List Byte} {s t : State} (h : serveRead m got s = .next t) : ServeEffect s t := by
  unfold serveRead at h
  split at h
  · cases h; exact .respond _ _
  · next hm =>
    simp only at h
    split at h
    · split at h
      · cases h
      · next bs w hw =>
        obtain ⟨rfl, hl⟩ := Window.copyOut_window hw
        have hba : bs.length ≤ s.window.avail := by omega
        rw [← hl] at h
        split at h
        · cases h
          exact ⟨bs, [readResponse m (got ++ bs) s.err], .idle, by simp [State.respond], hba, by simp, .inl rfl⟩
        · cases h
          exact ⟨bs, [], .read m (got ++ bs), by simp, hba, by simp, .inr (.inr ⟨m, _, rfl, by simp; omega⟩)⟩
    · cases h
      exact ⟨[], [], .read m got, by simp, by simp, by simp, .inr (.inr ⟨m, _, rfl, by omega⟩)⟩

theorem State.onIdle_next {s t : State} {r : Result} (h : s.onIdle r = .next t) : s.cur = .idle ∧ r = .next t := by
  unfold State.onIdle at h
  split at h
  · next hc => exact ⟨hc, h⟩
  · cases h

/-- The inversion lemma of a host command. -/
theorem exec_command {w : CmdWord} {s t : State} (h : exec (decodeCmd w) s = .next t) :
    s.cur = .idle ∧ ((w.code = 3 ∧ t = s.resetStep) ∨ (w.code ≠ 3 ∧ ServeEffect s t)) := by
  unfold decodeCmd at h
  split at h
  · next hc =>
    obtain ⟨hi, h⟩ := State.onIdle_next h
    split at h
    · cases h
    · cases h; exact ⟨hi, .inr ⟨by simp [hc], serveMakeAvail_effect (.inr (Nat.le_of_not_lt (by assumption)))⟩⟩
  · split at h
    · next hc =>
      obtain ⟨hi, h⟩ := State.onIdle_next h
      refine ⟨hi, .inr ⟨by simp [hc], ?_⟩⟩
      split at h
      · cases h
      · next hk =>
        split at h
        · cases h
        · next bs w' hw =>
          obtain ⟨rfl, hl⟩ := Window.copyOut_window hw
          cases h
          exact ⟨bs, [.bytes bs], .idle, by simp [State.respond, hl], by omega, by simp, .inl rfl⟩
    · split at h
      · next hc =>
        obtain ⟨hi, h⟩ := State.onIdle_next h
        exact ⟨hi, .inr ⟨by simp [hc], serveRead_effect h⟩⟩
      · next h0 h1 h2 =>
        obtain ⟨hi, h⟩ := State.onIdle_next h
        cases h
        refine ⟨hi, .inl ⟨?_, rfl⟩⟩
        have : ∀ c : BitVec 2, c ≠ 0 → c ≠ 1 → c ≠ 2 → c = 3 := by decide
        exact this _ h0 h1 h2

end Sys2Proof.Machine
end

