-- ==== Sys2Proof/Laws/Step.lean ====
section
/-! SUPPORT. Everything one step can do, said once: `step_effect`. -/

namespace Sys2Proof.Machine

/-! ### Decoding inside the machine -/

theorem decode_wf_pos {ctx : Ctx} {c c' : Cursor} {i : Instr} (h : decode ctx c = .instr i c') :
    i.WellFormed ∧ c.pos ≤ c'.pos := by
  cases ctx with
  | header =>
    rw [header_eq] at h
    cases hr : headerReader c with
    | none => rw [hr] at h; cases h
    | some r =>
      rw [hr] at h
      simp only [toDecoded, Decoded.instr.injEq] at h
      obtain ⟨rfl, rfl⟩ := h
      obtain ⟨used, -, hp, -⟩ := exact_header c r.2 r.1 hr
      exact ⟨header_wf hr, by omega⟩
  | clsym t prev =>
    obtain ⟨hw, used, -, hp, -⟩ := symbol_exact t _ clRow (fun _ _ _ h he => clRow_wf h he) h
    exact ⟨hw, by omega⟩
  | litlen t =>
    obtain ⟨hw, used, -, hp, -⟩ := symbol_exact t _ litlenRow (fun _ _ _ h he => litlenRow_wf h he) h
    exact ⟨hw, by omega⟩
  | dist t =>
    obtain ⟨hw, used, -, hp, -⟩ := symbol_exact t _ distRow (fun _ _ _ h he => distRow_wf h he) h
    exact ⟨hw, by omega⟩

/-- A stored head ends at a byte boundary (R65, R177). -/
theorem decode_stored_aligned {c c' : Cursor} {f : Bool} {len nlen : BitVec 16}
    (h : decode .header c = .instr (.blkStored f len nlen) c') : c'.pos % 8 = 0 := by
  rw [header_eq] at h
  cases hr : headerReader c with
  | none => rw [hr] at h; cases h
  | some r =>
    rw [hr] at h
    simp only [toDecoded, Decoded.instr.injEq] at h
    obtain ⟨hi, rfl⟩ := h
    obtain ⟨⟨f', c1⟩, h1, h⟩ := Option.bind_eq_some_iff.1 hr
    obtain ⟨⟨t, c2⟩, h2, h⟩ := Option.bind_eq_some_iff.1 h
    simp only at h
    split at h
    · obtain ⟨⟨l, c3⟩, h3, h⟩ := Option.bind_eq_some_iff.1 h
      obtain ⟨⟨n, c4⟩, h4, h⟩ := Option.bind_eq_some_iff.1 h
      simp only [Option.some.injEq] at h
      rw [← h]
      have e3 := readU16le_pos h3
      have e4 := readU16le_pos h4
      simp only [align] at e3 e4 ⊢
      omega
    · split at h
      · simp only [Option.some.injEq] at h; rw [← h] at hi; cases hi
      · split at h
        · obtain ⟨⟨a, c3⟩, h3, h⟩ := Option.bind_eq_some_iff.1 h
          obtain ⟨⟨b, c4⟩, h4, h⟩ := Option.bind_eq_some_iff.1 h
          obtain ⟨⟨d, c5⟩, h5, h⟩ := Option.bind_eq_some_iff.1 h
          obtain ⟨⟨v, c6⟩, h6, h⟩ := Option.bind_eq_some_iff.1 h
          simp only [Option.some.injEq] at h; rw [← h] at hi; cases hi
        · simp only [Option.some.injEq] at h; rw [← h] at hi; cases hi

/-- The kind of element a context reads (R114). -/
def ctxFormat : Ctx → Format
  | .header => .blkhdr
  | .clsym _ _ => .clsym
  | .litlen _ => .litlen
  | .dist _ => .dist

/-- The decoder gives elements of the kind its context reads. -/
theorem decode_format {ctx : Ctx} {c c' : Cursor} {i : Instr} (h : decode ctx c = .instr i c') :
    i.tableValue.1 = ctxFormat ctx := by
  have key : ∀ (t : Tree) (w : Nat → Nat) (row : Nat → Nat → Option Instr) (f : Format),
      (∀ s e i, row s e = some i → i.tableValue.1 = f) → decodeSymbol t w row c = .instr i c' →
      i.tableValue.1 = f := by
    intro t w row f hrow h
    unfold decodeSymbol at h
    split at h
    · cases h
    · split at h
      · cases h
      · split at h
        · cases h
        · next hr =>
          simp only [Decoded.instr.injEq] at h
          exact h.1 ▸ hrow _ _ _ hr
  cases ctx with
  | header =>
    rw [header_eq] at h
    cases hr : headerReader c with
    | none => rw [hr] at h; cases h
    | some r =>
      rw [hr] at h
      simp only [toDecoded, Decoded.instr.injEq] at h
      obtain ⟨rfl, -⟩ := h
      obtain ⟨⟨f', c1⟩, h1, h⟩ := Option.bind_eq_some_iff.1 hr
      obtain ⟨⟨t, c2⟩, h2, h⟩ := Option.bind_eq_some_iff.1 h
      simp only at h
      split at h
      · obtain ⟨⟨l, c3⟩, h3, h⟩ := Option.bind_eq_some_iff.1 h
        obtain ⟨⟨n, c4⟩, h4, h⟩ := Option.bind_eq_some_iff.1 h
        simp only [Option.some.injEq] at h; rw [← h]; simp [Instr.tableValue, ctxFormat]
      · split at h
        · simp only [Option.some.injEq] at h; rw [← h]; simp [Instr.tableValue, ctxFormat]
        · split at h
          · obtain ⟨⟨a, c3⟩, h3, h⟩ := Option.bind_eq_some_iff.1 h
            obtain ⟨⟨b, c4⟩, h4, h⟩ := Option.bind_eq_some_iff.1 h
            obtain ⟨⟨d, c5⟩, h5, h⟩ := Option.bind_eq_some_iff.1 h
            obtain ⟨⟨v, c6⟩, h6, h⟩ := Option.bind_eq_some_iff.1 h
            simp only [Option.some.injEq] at h; rw [← h]; simp [Instr.tableValue, ctxFormat]
          · simp only [Option.some.injEq] at h; rw [← h]; simp [Instr.tableValue, ctxFormat]
  | clsym t prev => exact key t _ clRow .clsym (fun s e i h => by
      simp only [clRow] at h
      repeat' split at h
      all_goals simp only [Option.some.injEq, reduceCtorEq] at h
      all_goals (rw [← h]; simp [Instr.tableValue])) h
  | litlen t => exact key t _ litlenRow .litlen (fun s e i h => by
      simp only [litlenRow] at h
      split at h
      · simp only [Option.some.injEq] at h; rw [← h]; simp [Instr.tableValue]
      · split at h
        · simp only [Option.some.injEq] at h; rw [← h]; simp [Instr.tableValue]
        · split at h
          · have h1 : 257 ≤ s := by omega
            have h2 : s ≤ 285 := by omega
            interval_cases s <;> (simp [lenRows, lenRowsLow, lenRowsHigh] at h; rw [← h]; simp [Instr.tableValue])
          · split at h
            · simp only [Option.some.injEq] at h; rw [← h]; simp [Instr.tableValue]
            · split at h
              · simp only [Option.some.injEq] at h; rw [← h]; simp [Instr.tableValue]
              · cases h) h
  | dist t => exact key t _ distRow .dist (fun s e i h => by
      have h1 : s < 32 := by
        by_contra hc
        simp [distRow, distRows, distRowsLow, distRowsHigh, show 32 ≤ s by omega] at h
      interval_cases s <;>
        (simp [distRow, distRows, distRowsLow, distRowsHigh] at h; rw [← h]; simp [Instr.tableValue])) h

/-- The decoder gives stream elements only. -/
theorem decode_not_command {ctx : Ctx} {c c' : Cursor} {i : Instr} (h : decode ctx c = .instr i c') :
    i.tableValue.1 ≠ .hostcmd := by
  rw [decode_format h]; cases ctx <;> simp [ctxFormat]

/-- A symbol outside the alphabet has been read. -/
theorem decode_noRow_pos {ctx : Ctx} {c c' : Cursor} {sym : Nat} (h : decode ctx c = .noRow sym c') : c.pos ≤ c'.pos := by
  have key : ∀ (t : Tree) (w : Nat → Nat) (row : Nat → Nat → Option Instr), decodeSymbol t w row c = .noRow sym c' → c.pos ≤ c'.pos := by
    intro t w row h
    unfold decodeSymbol at h
    split at h
    · cases h
    · next hd =>
      obtain ⟨used, -, hp, -⟩ := exact_decodeSym t _ _ _ hd
      split at h
      · cases h
      · next hb =>
        have := readBits_pos hb
        split at h
        · cases h; omega
        · cases h
  cases ctx with
  | header =>
    rw [header_eq] at h
    cases hr : headerReader c <;> rw [hr] at h <;> cases h
  | clsym t prev => exact key _ _ _ h
  | litlen t => exact key _ _ _ h
  | dist t => exact key _ _ _ h

/-! ### One decoder step -/

/-- Everything a decoder step can answer. -/
inductive DecoderEffect (s : State) : State → Prop
  | held (he : s.src.ended = false) : DecoderEffect s s.hold
  | raised (k : ErrorKind) (p c : Nat) (hp : s.bitpos ≤ p) : DecoderEffect s { State.raise k { s with bitpos := p } with ckpt := c }
  | element (ctx : Ctx) (i : Instr) (c : Cursor) (t : State) (hc : s.ctx = some ctx) (hd : decode ctx s.cursor = .instr i c)
      (ht : ElementEffect i (s.advance c.pos) t) : DecoderEffect s t
  | headerDone (h : DynHdr) (lt dt : Tree) (hs : s.inStep = .dynHdr h) (hl : h.total ≤ h.lens.length)
      (e1 : buildTable s.params.singleCode (h.lens.take h.hlit) = .ok lt)
      (e2 : buildTable s.params.singleCode ((h.lens.drop h.hlit).take h.hdist) = .ok dt) :
      DecoderEffect s { s with blk := .huffman lt dt 0 none h.final, inStep := .nothing }
  | storedDone (f : Bool) (hs : s.inStep = .nothing) (hb : s.blk = .uncompressed 0 f) :
      DecoderEffect s { s with blk := afterBlock f }
  | storedByte (r : Nat) (f : Bool) (b : Byte) (c : Cursor) (hs : s.inStep = .nothing)
      (hb : s.blk = .uncompressed (r + 1) f) (hr : readByte s.cursor = some (b, c)) :
      DecoderEffect s { s with
        window := s.window.put Config.cap b, blk := .uncompressed r f, bitpos := c.pos, ckpt := s.bitpos }
  | copied (lt dt : Tree) (p d : Nat) (f : Bool) (w : Window) (hs : s.inStep = .nothing)
      (hb : s.blk = .huffman lt dt (p + 1) (some d) f) (hd : d ≠ 0)
      (hw : s.window.selfCopyRun Config.cap d (min (p + 1) s.need) = some w) :
      DecoderEffect s { s with
        window := w
        blk := .huffman lt dt (p + 1 - min (p + 1) s.need)
          (if p + 1 - min (p + 1) s.need = 0 then none else some d) f }

theorem DecoderEffect.raise (s : State) (k : ErrorKind) : DecoderEffect s (s.raise k) :=
  DecoderEffect.raised (s := s) k s.bitpos (s.raise k).ckpt le_rfl

theorem DecoderEffect.starve (s : State) : DecoderEffect s s.starve := by
  unfold State.starve
  split
  · exact .raised (s := s) .unexpectedEndOfInput s.readOut.bitpos (s.readOut.raise .unexpectedEndOfInput).ckpt (Nat.le_add_right _ _)
  · next h => exact .held (by simpa using h)

theorem element_effect {ctx : Ctx} {s t : State} (hc : s.ctx = some ctx) (h : element ctx s = .next t) :
    DecoderEffect s t := by
  unfold element at h
  split at h
  · next i c hd => exact .element ctx i c t hc hd (exec_element (decode_not_command hd) h)
  · cases h; exact .starve s
  · next c hd =>
    have hr : DecoderEffect s ((s.advance c.pos).raise .invalidHuffmanCodes) := by
      rw [State.raise_advance]; exact .raised _ _ _ (decode_noRow_pos hd)
    split at h
    · cases h; exact hr
    · cases h; exact hr
    · cases h

theorem decoderStep_effect {s t : State} (h : decoderStep s = .next t) : DecoderEffect s t := by
  unfold decoderStep at h
  split at h
  · next d hs =>
    split at h
    · next hl => exact element_effect (by simp [State.ctx, hs, hl]) h
    · next hl =>
      cases h
      unfold finishHeader
      split
      · next lt dt e1 e2 => exact .headerDone d lt dt hs (by omega) e1 e2
      · exact .raise _ _
      · exact .raise _ _
  · next hs =>
    split at h
    · next hb => exact element_effect (by simp [State.ctx, hs, hb]) h
    · cases h
  · next hs =>
    split at h
    · next hb => exact element_effect (by simp [State.ctx, hs, hb]) h
    · next hb => cases h; exact .storedDone _ hs hb
    · next r f hb =>
      cases h
      unfold storedByte
      split
      · exact .starve s
      · next b c hr =>
        have := DecoderEffect.storedByte r f b c hs hb hr
        rw [State.advance_eq]
        simpa [State.settled, hs] using this
    · next hb => exact element_effect (by simp [State.ctx, hs, hb]) h
    · next lt dt p o f hb =>
      unfold pendingCopy at h
      simp only at h
      split at h
      · cases h
      · next d =>
        split at h
        · cases h
        · next hd =>
          split at h
          · cases h
          · next w hw =>
            cases h
            exact .copied lt dt p d f w hs hb hd hw
    · cases h

/-! ### One step -/

/-- Everything one step can answer. -/
inductive StepEffect (s : State) : State → Prop
  | idle (hc : s.cur = .idle) (hq : s.cmds = []) : StepEffect s s
  | reset (w : CmdWord) (rest : List CmdWord) (hc : s.cur = .idle) (hq : s.cmds = w :: rest) (h3 : w.code = 3) :
      StepEffect s (State.resetStep { s with cmds := rest })
  | command (w : CmdWord) (rest : List CmdWord) (t : State) (hc : s.cur = .idle) (hq : s.cmds = w :: rest) (h3 : w.code ≠ 3)
      (h : ServeEffect { s with cmds := rest } t) : StepEffect s t
  | serve (t : State) (hc : s.cur ≠ .idle) (hd : s.stepDue = false) (h : ServeEffect s t) : StepEffect s t
  | decoder (t : State) (hd : s.stepDue = true) (h : DecoderEffect s t) : StepEffect s t

theorem serve_effect {s t : State} (hc : s.cur ≠ .idle) (h : serve s = .next t) : ServeEffect s t := by
  unfold serve at h
  split at h
  · next hi => exact absurd hi hc
  · next n hi => cases h; exact serveMakeAvail_effect (.inl hi)
  · exact serveRead_effect h

/-- The inversion lemma of the machine's step. -/
theorem step_effect {s t : State} (h : step s = .next t) : StepEffect s t := by
  unfold step engineStep at h
  split at h
  · next hc =>
    unfold takeCommand at h
    split at h
    · next hq => cases h; exact .idle hc hq
    · next w rest hq =>
      obtain ⟨-, ⟨h3, rfl⟩ | ⟨h3, he⟩⟩ := exec_command h
      · exact .reset w rest hc hq h3
      · exact .command w rest t hc hq h3 he
  · next hc =>
    split at h
    · next hd => exact .decoder t hd (decoderStep_effect h)
    · next hd => exact .serve t (by intro hi; exact hc hi) (by simpa [State.stepDue] using hd) (serve_effect (by intro hi; exact hc hi) h)

/-- A step that is not due is the command's loop; one that is due is the decoder's. -/
theorem step_of_due {s : State} (h : s.stepDue = true) : step s = decoderStep s := by
  have hd : s.demanded = true := by simp only [State.stepDue, Bool.and_eq_true] at h; exact h.1
  have hc := State.cur_of_demanded hd
  unfold State.stepDue at h
  unfold step engineStep
  split
  · next hi => exact absurd hi hc
  · simp [h]

theorem step_of_not_due {s : State} (hc : s.cur ≠ .idle) (h : s.stepDue = false) : step s = serve s := by
  unfold State.stepDue at h
  unfold step engineStep
  split
  · next hi => exact absurd hi hc
  · simp [h]

theorem step_of_idle {s : State} (hc : s.cur = .idle) : step s = takeCommand s := by
  unfold step engineStep
  simp [hc]

theorem takesReset_iff {s : State} {w : CmdWord} {rest : List CmdWord} (hc : s.cur = .idle) (hq : s.cmds = w :: rest) :
    s.takesReset = true ↔ w.code = 3 := by
  simp [State.takesReset, hc, hq]

theorem decoderStep_of_ctx {s : State} {ctx : Ctx} (h : s.ctx = some ctx) : decoderStep s = element ctx s := by
  unfold State.ctx at h
  unfold decoderStep
  split at h
  · next d hs =>
    split at h
    · next hl => simp only [Option.some.injEq] at h; subst h; simp [hs, hl]
    · cases h
  · next hs hb => simp only [Option.some.injEq] at h; subst h; simp [hs, hb]
  · next hs hb => simp only [Option.some.injEq] at h; subst h; simp [hs, hb]
  · next hs hb => simp only [Option.some.injEq] at h; subst h; simp [hs, hb]
  · cases h

end Sys2Proof.Machine
end

