-- ==== Sys2Proof/Laws/Inv.lean ====
section
/-! SUPPORT. What the invariant says (R36), clause by clause, and what follows from it where a decoder step is due. -/

namespace Sys2Proof.Machine

/-- A decoder step is due: a byte is wanted, and the stream has not ended. -/
theorem due_facts {s : State} (hd : s.stepDue = true) : s.demanded = true ∧ s.isComplete = false := by
  simpa [State.stepDue] using hd

/-- The invariant as the conjunction it is. -/
theorem State.inv_iff {s : State} : s.Inv ↔
    s.window.inv Config.cap = true ∧ (s.err = none → blockInv s.window.written s.bitpos s.blk = true) ∧
    s.inStepInv = true ∧
    (match s.cur with
    | .idle => s.inStep = .nothing
    | .makeAvail t => t ≤ Config.cap ∧ s.err = none
    | .read m got => got.length ≤ m) := by
  simp only [State.Inv, State.inv, Bool.and_eq_true, Bool.or_eq_true, State.errLatched]
  rw [and_assoc, and_assoc]
  refine and_congr_right fun _ => and_congr ?_ (and_congr_right fun _ => ?_)
  · cases s.err <;> simp
  · cases s.cur <;> simp

/-- No command wants more than the window holds (R301, R305). -/
theorem State.target_le {s : State} (h : s.Inv) : s.target ≤ Config.cap := by
  have := (State.inv_iff.1 h).2.2.2
  unfold State.target
  cases hc : s.cur with
  | idle => simp
  | makeAvail t => simp only [hc] at this; exact this.1
  | read m got => simp only; omega

/-- A larger `WRITTEN` keeps the invariant of the block. -/
theorem blockInv_mono {w w' p : Nat} {b : BlockState} (h : blockInv w p b = true) (hw : w ≤ w') :
    blockInv w' p b = true := by
  cases b with
  | header => rfl
  | complete => rfl
  | uncompressed r f => exact h
  | huffman lt dt l d f =>
    cases d with
    | none => exact h
    | some d =>
      simp only [blockInv, Bool.and_eq_true, decide_eq_true_eq] at h ⊢
      exact ⟨h.1, h.2.1, by omega⟩

/-- The machine is inside an atomic step only where a decoder step is due. -/
theorem inStep_of_not_due {s : State} (h : s.Inv) (hd : s.stepDue = false) : s.inStep = .nothing := by
  obtain ⟨h1, h2, h3, h4⟩ := State.inv_iff.1 h
  unfold State.inStepInv at h3
  unfold State.stepDue at hd
  split at h3
  · assumption
  · next h' hb => simp only [Bool.and_eq_true] at h3; simp [h3, State.isComplete, hb] at hd
  · next h' hb => simp only [Bool.and_eq_true] at h3; simp [h3, State.isComplete, hb] at hd
  · cases h3

/-- The start of a step does not lie behind the reading place. -/
theorem settled_le {s : State} (h : s.Inv) : s.settled ≤ s.bitpos := by
  obtain ⟨h1, h2, h3, h4⟩ := State.inv_iff.1 h
  unfold State.settled
  unfold State.inStepInv at h3
  split at h3
  · simp_all
  · next hs _ => simp only [Bool.and_eq_true, decide_eq_true_eq] at h3; simp [hs]; omega
  · next hs _ => simp only [Bool.and_eq_true, decide_eq_true_eq] at h3; simp [hs]; omega
  · cases h3

/-- The element that is read is of the kind its meaning runs for. -/
theorem expects_of_ctx {s : State} {ctx : Ctx} (h : s.Inv) (hd : s.stepDue = true) (hc : s.ctx = some ctx) :
    s.expects = some (ctxFormat ctx) := by
  have hdem : s.demanded = true := (due_facts hd).1
  have h3 := (State.inv_iff.1 h).2.2.1
  unfold State.ctx at hc
  unfold State.inStepInv at h3
  unfold State.expects
  rw [hdem]
  split at hc
  · next d hs =>
    split at hc
    · next hl =>
      cases hc
      split at h3
      · simp_all
      · next hb => simp_all [ctxFormat]
      · simp_all
      · cases h3
    · cases hc
  · next len lt dt p d f hs hb =>
    cases hc
    split at h3
    · simp_all
    · simp_all
    · next hb' => simp [hs, hb', ctxFormat]
    · cases h3
  · next hs hb => cases hc; simp [hs, hb, ctxFormat]
  · next hs hb => cases hc; simp [hs, hb, ctxFormat]
  · cases hc

/-- Reading does not change which kind is due. -/
theorem expects_advance (s : State) (p : Nat) : (s.advance p).expects = s.expects := by
  unfold State.expects; simp

end Sys2Proof.Machine
end

