-- ==== Sys2Proof/Laws/Kraft.lean ====
section
/-! SUPPORT. Kraft sums (R14, R153): the weight of a list of codes against the tree it builds, and when every bit string is covered. -/

namespace Sys2Proof

/-- The Kraft sum of a list of codes, in units of `2^-M`. -/
def weight (M : Nat) (cs : List SymCode) : Nat := (cs.map fun sc => 2 ^ (M - sc.2.1)).sum

/-- The first bit splits the weight. -/
theorem weight_branch (M : Nat) (cs : List SymCode) (hM : ∀ sc ∈ cs, 1 ≤ sc.2.1 ∧ sc.2.1 ≤ M + 1) :
    weight (M+1) cs = weight M (branch false cs) + weight M (branch true cs) := by
  induction cs with
  | nil => rfl
  | cons a cs ih =>
    have ih := ih fun sc h => hM sc (by simp [h])
    have ha := hM a (by simp)
    simp only [weight, branch, List.map_cons, List.sum_cons, List.map_map] at ih ⊢
    rw [ih]
    cases hb : firstBit a <;> simp [hb, restOf] <;> rw [show M - (a.2.1 - 1) = M + 1 - a.2.1 by omega] <;> omega

/-- A list that builds has weight 1. -/
theorem weight_of_build {fuel : Nat} {cs : List SymCode} {t : Tree} (h : build fuel cs = .ok t) (M : Nat)
    (hM : ∀ sc ∈ cs, sc.2.1 ≤ M) : weight M cs = 2 ^ M := by
  induction fuel generalizing cs t M with
  | zero =>
    obtain ⟨s, code, rfl, rfl⟩ | ⟨f, _, _, hf, _⟩ := build_ok h
    · simp [weight]
    · omega
  | succ fuel ih =>
    obtain ⟨s, code, rfl, rfl⟩ | ⟨f, zero, one, hf, hnz, rfl, e0, e1⟩ := build_ok h
    · simp [weight]
    · obtain rfl : f = fuel := by omega
      cases M with
      | zero =>
        cases cs with
        | nil => simp [branch] at e0; cases f <;> simp [build] at e0
        | cons a cs => have := hM a (by simp); have := hnz a (by simp); omega
      | succ M =>
        have hb : ∀ b, ∀ sc ∈ branch b cs, sc.2.1 ≤ M := fun b sc hsc => by
          obtain ⟨sc', hm, -, rfl⟩ := mem_branch.1 hsc
          have := hM sc' hm
          simp [restOf]; omega
        rw [weight_branch M cs fun sc hsc => ⟨Nat.pos_of_ne_zero (hnz sc hsc), hM sc hsc⟩, ih e0 M (hb false), ih e1 M (hb true)]
        rw [Nat.pow_succ]; omega

/-- `kraftSum` is the sum over the used symbols. -/
theorem kraft_eq (M : Nat) (sym : Nat) (ls : List Nat) :
    kraftSum M ls = ((usedSymbols sym ls).map fun s => 2 ^ (M - ls.getD (s - sym) 0)).sum := by
  induction ls generalizing sym with
  | nil => rfl
  | cons L ls ih =>
    simp only [kraftSum, usedSymbols]
    have : ((usedSymbols (sym+1) ls).map fun s => 2 ^ (M - ls.getD (s - (sym+1)) 0)) =
       ((usedSymbols (sym+1) ls).map fun s => 2 ^ (M - (L::ls).getD (s - sym) 0)) := by
      refine List.map_congr_left fun s hs => ?_
      have := (usedSymbols_ge hs).1
      obtain ⟨d, rfl⟩ : ∃ d, s = sym + 1 + d := ⟨s - (sym + 1), by omega⟩
      rw [show sym + 1 + d - (sym + 1) = d by omega, show sym + 1 + d - sym = d + 1 by omega]
      simp
    split
    · next h => rw [ih (sym+1), this]; simp
    · next h => rw [ih (sym+1), this]; simp

/-- The code of `sc` begins the `M`-bit string of value `x`. -/
def covers (M x : Nat) (sc : SymCode) : Bool := decide (sc.2.1 ≤ M) && decide (x / 2 ^ (M - sc.2.1) = sc.2.2 % 2 ^ sc.2.1)

theorem covers_succ (M x : Nat) (b : Bool) (sc : SymCode) (hx : x < 2 ^ M) (h1 : 1 ≤ sc.2.1) (h2 : sc.2.1 ≤ M + 1) :
    covers (M + 1) (b.toNat * 2 ^ M + x) sc = (firstBit sc == b && covers M x (restOf sc)) := by
  obtain ⟨s, L, c⟩ := sc
  obtain ⟨l, rfl⟩ : ∃ l, L = l + 1 := ⟨L - 1, by simp at h1; omega⟩
  simp only at h1 h2
  obtain ⟨k, rfl⟩ : ∃ k, M = l + k := ⟨M - l, by omega⟩
  simp only [covers, firstBit, restOf, Nat.add_sub_cancel]
  rw [show l + k + 1 - (l + 1) = k by omega, show l + k - l = k by omega]
  have hdiv : (b.toNat * 2 ^ (l + k) + x) / 2 ^ k = b.toNat * 2 ^ l + x / 2 ^ k := by
    rw [Nat.pow_add, ← Nat.mul_assoc, Nat.add_comm, Nat.add_mul_div_right _ _ (Nat.two_pow_pos k), Nat.add_comm]
  have hlt : x / 2 ^ k < 2 ^ l := by
    rw [Nat.div_lt_iff_lt_mul (Nat.two_pow_pos k), ← Nat.pow_add]; exact hx
  have hc : c % 2 ^ (l + 1) = (c.testBit l).toNat * 2 ^ l + c % 2 ^ l := by
    rw [Nat.mod_pow_succ, Nat.testBit_eq_decide_div_mod_eq]
    have h2 : c / 2 ^ l % 2 = 0 ∨ c / 2 ^ l % 2 = 1 := by omega
    rcases h2 with h | h <;> simp [h, Nat.add_comm]
  have hml : c % 2 ^ l < 2 ^ l := Nat.mod_lt _ (Nat.two_pow_pos l)
  have hmm : c % 2 ^ l % 2 ^ l = c % 2 ^ l := Nat.mod_eq_of_lt hml
  simp only [hdiv, hc, hmm]
  simp only [show l + 1 ≤ l + k + 1 by omega, show l ≤ l + k by omega, decide_true, Bool.true_and]
  clear hdiv hc hmm
  generalize x / 2 ^ k = q at *
  generalize c % 2 ^ l = r at *
  generalize 2 ^ l = P at *
  cases b <;> cases c.testBit l <;> simp <;> omega

theorem cover_branch (M x : Nat) (b : Bool) (cs : List SymCode) (hx : x < 2 ^ M)
    (hL : ∀ sc ∈ cs, 1 ≤ sc.2.1 ∧ sc.2.1 ≤ M + 1) :
    ((branch b cs).filter (covers M x)).length = (cs.filter (covers (M + 1) (b.toNat * 2 ^ M + x))).length := by
  simp only [branch, List.filter_map, List.length_map, List.filter_filter]
  congr 1
  refine List.filter_congr fun sc hsc => ?_
  rw [covers_succ M x b sc hx (hL sc hsc).1 (hL sc hsc).2, Bool.and_comm]
  rfl

/-- Where every `M`-bit string begins with exactly one of the codes, the tree builds. -/
theorem build_of_cover (fuel M : Nat) (hf : M ≤ fuel) (cs : List SymCode) (hL : ∀ sc ∈ cs, sc.2.1 ≤ M)
    (h : ∀ x, x < 2 ^ M → (cs.filter (covers M x)).length = 1) : ∃ t, build fuel cs = .ok t := by
  induction fuel generalizing M cs with
  | zero =>
    obtain rfl : M = 0 := by omega
    have h0 := h 0 (by simp)
    have hall : cs.filter (covers 0 0) = cs := by
      rw [List.filter_eq_self]
      intro sc hsc
      have := hL sc hsc
      have h0 : sc.2.1 = 0 := by omega
      simp [covers, h0, Nat.mod_one]
    rw [hall] at h0
    match cs, h0 with
    | [(s, (L, c))], _ =>
      have := hL (s, (L, c)) (by simp)
      obtain rfl : L = 0 := by simpa using this
      exact ⟨.leaf s, by simp [build]⟩
  | succ fuel ih =>
    match cs with
    | [] => have := h 0 (Nat.two_pow_pos M); simp at this
    | [(s, (L, c))] =>
      by_cases hL0 : L = 0
      · subst hL0; exact ⟨.leaf s, by simp [build]⟩
      · exfalso
        -- only half of the points are covered
        have hLM := hL (s, (L, c)) (by simp)
        simp only at hLM
        have h0 := h 0 (Nat.two_pow_pos M)
        have h1 := h (2 ^ M - 1) (by have := Nat.two_pow_pos M; omega)
        have c0 : covers M 0 (s, (L, c)) = true := by
          by_contra hc; simp [hc] at h0
        have c1 : covers M (2 ^ M - 1) (s, (L, c)) = true := by
          by_contra hc; simp [hc] at h1
        simp only [covers, Bool.and_eq_true, decide_eq_true_eq, Nat.zero_div] at c0 c1
        have h2 := c0.2.symm ▸ c1.2
        have h3 : 2 ^ M - 1 < 2 ^ (M - L) := by
          have := Nat.div_eq_zero_iff.1 h2
          rcases this with h | h
          · have := Nat.two_pow_pos (M-L); omega
          · exact h
        have h4 : 2 ^ (M - L) < 2 ^ M := Nat.pow_lt_pow_right (by omega) (by omega)
        omega
    | a :: b :: rest =>
      generalize hcs : a :: b :: rest = cs at *
      have hnz : ∀ sc ∈ cs, sc.2.1 ≠ 0 := by
        intro sc hsc h0
        have hcov0 : ∀ x, x < 2 ^ M → covers M x sc = true := fun x hx => by
          simp only [covers, h0, Nat.zero_le, decide_true, Nat.sub_zero, Nat.pow_zero, Nat.mod_one, Bool.true_and,
            decide_eq_true_eq]
          exact Nat.div_eq_of_lt hx
        -- another code
        have : ∃ sc' , ∃ x, x < 2 ^ M ∧ covers M x sc' = true ∧ List.Sublist [sc, sc'] cs ∨ ∃ x, x < 2^M ∧ covers M x sc' = true ∧ List.Sublist [sc', sc] cs := by
          obtain ⟨l1, l2, rfl⟩ := List.append_of_mem hsc
          have hpt : ∀ sc' ∈ l1 ++ sc :: l2, ∃ x, x < 2 ^ M ∧ covers M x sc' = true := fun sc' h' => by
            have hl := hL sc' h'
            refine ⟨sc'.2.2 % 2 ^ sc'.2.1 * 2 ^ (M - sc'.2.1), ?_, ?_⟩
            · calc _ < 2 ^ sc'.2.1 * 2 ^ (M - sc'.2.1) :=
                    Nat.mul_lt_mul_of_pos_right (Nat.mod_lt _ (Nat.two_pow_pos _)) (Nat.two_pow_pos _)
                _ = 2 ^ M := by rw [← Nat.pow_add]; congr 1; omega
            · simp [covers, hl]
          cases l1 with
          | nil =>
            cases l2 with
            | nil => simp at hcs
            | cons c l2 =>
              obtain ⟨x, hx, hc⟩ := hpt c (by simp)
              exact ⟨c, x, .inl ⟨hx, hc, by simp⟩⟩
          | cons c l1 =>
            obtain ⟨x, hx, hc⟩ := hpt c (by simp)
            exact ⟨c, x, .inr ⟨x, hx, hc, by simp⟩⟩
        obtain ⟨sc', x, ⟨hx, hc, hsub⟩ | ⟨x, hx, hc, hsub⟩⟩ := this
        · have := (hsub.filter (covers M x)).length_le
          simp [hcov0 x hx, hc] at this
          have := h x hx
          omega
        · have := (hsub.filter (covers M x)).length_le
          simp [hcov0 x hx, hc] at this
          have := h x hx
          omega
      cases M with
      | zero => exact absurd (Nat.le_zero.1 (hL a (by simp [← hcs]))) (hnz a (by simp [← hcs]))
      | succ M =>
        have hLb : ∀ sc ∈ cs, 1 ≤ sc.2.1 ∧ sc.2.1 ≤ M + 1 := fun sc h => ⟨Nat.pos_of_ne_zero (hnz sc h), hL sc h⟩
        have hb : ∀ bb, ∃ t, build fuel (branch bb cs) = .ok t := fun bb => by
          refine ih M (by omega) (branch bb cs) (fun sc hsc => ?_) (fun x hx => ?_)
          · obtain ⟨sc', hm, -, rfl⟩ := mem_branch.1 hsc
            have := hL sc' hm
            simp [restOf]; omega
          · rw [cover_branch M x bb cs hx hLb]
            refine h _ ?_
            cases bb <;> simp [Nat.pow_succ] <;> omega
        obtain ⟨t0, e0⟩ := hb false
        obtain ⟨t1, e1⟩ := hb true
        refine ⟨.node t0 t1, ?_⟩
        subst hcs
        rw [build]
        rw [if_neg (by
          intro hany
          obtain ⟨sc, hm, h0⟩ := List.any_eq_true.1 hany
          exact hnz sc hm (by simpa using h0)), e0, e1]

theorem firstCode_succ (ls : List Nat) (L : Nat) (h : 0 < L) : firstCode ls (L+1) = 2 * (firstCode ls L + ls.count L) := by
  rw [firstCode, countLength, if_neg (by omega), Nat.shiftLeft_eq]; omega

/-- The Kraft sum, length by length. -/
theorem kraft_partial (M : Nat) (ls : List Nat) (hM : ∀ l ∈ ls, l ≤ M) :
    kraftSum M ls = ((List.range M).map fun l => ls.count (l + 1) * 2 ^ (M - (l + 1))).sum := by
  induction ls with
  | nil => simp [kraftSum]
  | cons a ls ih =>
    rw [kraftSum, ih fun l h => hM l (by simp [h])]
    have ha := hM a (by simp)
    have key : ∀ n, n ≤ M → ((List.range n).map fun l => (a :: ls).count (l + 1) * 2 ^ (M - (l + 1))).sum =
        (if a = 0 ∨ n < a then 0 else 2 ^ (M - a)) + ((List.range n).map fun l => ls.count (l + 1) * 2 ^ (M - (l + 1))).sum := by
      intro n hn
      induction n with
      | zero => by_cases h : a = 0 <;> simp [h]
      | succ n ihn =>
        rw [List.range_succ, List.map_append, List.map_append, List.sum_append, List.sum_append, ihn (by omega)]
        simp only [List.map_cons, List.map_nil, List.sum_cons, List.sum_nil, List.count_cons, beq_iff_eq]
        by_cases h : a = n + 1
        · subst h; simp [Nat.add_mul]; try omega
        · rw [if_neg h]
          by_cases h2 : a = 0
          · simp [h2]
          · by_cases h3 : n < a
            · rw [if_pos (Or.inr h3), if_pos (Or.inr (by omega))]; simp
            · rw [if_neg (by omega), if_neg (by omega)]; simp; omega
    rw [key M le_rfl]
    congr 1
    by_cases h : a = 0
    · simp [h]
    · rw [if_neg h, if_neg (by omega)]

/-- The `j`-th symbol of length `L`. -/
theorem nth_occurrence (ls : List Nat) (L j : Nat) (h : j < ls.count L) :
    ∃ s, s < ls.length ∧ ls.getD s 0 = L ∧ (ls.take s).count L = j := by
  induction ls generalizing j with
  | nil => simp at h
  | cons a ls ih =>
    by_cases ha : a = L
    · subst ha
      cases j with
      | zero => exact ⟨0, by simp, by simp, by simp⟩
      | succ j =>
        obtain ⟨s, h1, h2, h3⟩ := ih j (by simp at h; omega)
        exact ⟨s + 1, by simp; omega, by simpa using h2, by simp [h3]⟩
    · obtain ⟨s, h1, h2, h3⟩ := ih j (by simpa [List.count_cons, ha] using h)
      exact ⟨s + 1, by simp; omega, by simpa using h2, by simp [ha, h3]⟩

theorem take_count_lt (ls : List Nat) (s : Nat) (hs : s < ls.length) : (ls.take s).count (ls.getD s 0) < ls.count (ls.getD s 0) := by
  have h : ls.count (ls.getD s 0) = (ls.take s).count (ls.getD s 0) + (ls.drop s).count (ls.getD s 0) := by
    rw [← List.count_append, List.take_append_drop]
  rw [h, List.drop_eq_getElem_cons hs, List.getD_eq_getElem _ _ hs, List.count_cons_self]
  omega

theorem take_count_inj (ls : List Nat) (s s' : Nat) (hs : s < ls.length) (hs' : s' < ls.length)
    (hl : ls.getD s 0 = ls.getD s' 0) (hc : (ls.take s).count (ls.getD s 0) = (ls.take s').count (ls.getD s' 0)) : s = s' := by
  have key : ∀ a b, a < b → b < ls.length → ls.getD a 0 = ls.getD b 0 →
      (ls.take a).count (ls.getD a 0) < (ls.take b).count (ls.getD b 0) := by
    intro a b hab hb hl
    rw [← hl]
    have := take_count_lt (ls.take b) a (by simp; omega)
    have e : (ls.take b).getD a 0 = ls.getD a 0 := by
      simp [List.getD_eq_getElem?_getD, hab]
    rwa [e, List.take_take, Nat.min_eq_left (by omega)] at this
  rcases Nat.lt_trichotomy s s' with h | h | h
  · have := key s s' h hs' hl; omega
  · exact h
  · have := key s' s h hs hl.symm; omega

end Sys2Proof
end

