-- ==== Sys2Proof/Tests/Slice0.lean ====
section
/-! SUPPORT. Small tests by evaluation. Expected results are the spec's own worked examples (rule or vector named), or hand calculation
from the cited rule; the last part has a witness for the hypotheses of each statement. -/

open Sys2Proof Sys2Proof.Machine

namespace Sys2Proof.Tests

/-! ### Helpers -/

/-- Bits in stream order, written as the spec writes them. -/
def bs (l : List Nat) : List Bool := l.map (fun n => n == 1)

/-- The result is a next state with `p`. -/
def nextWith (r : Result) (p : State → Bool) : Bool :=
  match r with
  | .next t => p t
  | _ => false

/-- The state after, where there is one. -/
def after (s : State) : State :=
  match step s with
  | .next t => t
  | _ => s

theorem step_after {s : State} (h : nextWith (step s) (fun _ => true) = true) : step s = .next (after s) := by
  unfold after
  cases hs : step s with
  | next t => rfl
  | fault f => rw [hs] at h; cases h
  | refused r => rw [hs] at h; cases h

theorem exec_next {i : Instr} {s : State} (h : nextWith (exec i s) (fun _ => true) = true) : ∃ t, exec i s = .next t := by
  cases hs : exec i s with
  | next t => exact ⟨t, rfl⟩
  | fault f => rw [hs] at h; cases h
  | refused r => rw [hs] at h; cases h

/-- A machine that wants one byte, in block state `b`, with these bytes and no more. -/
def at_ (b : BlockState) (bytes : List Byte) : State :=
  { State.reset with blk := b, src := ⟨bytes, true, 0, []⟩, cur := .makeAvail 1 }

/-- The same, with input still to come. -/
def waiting (b : BlockState) (bytes : List Byte) : State :=
  { State.reset with blk := b, src := ⟨bytes, false, 0, [.byte 0x2A, .stop]⟩, cur := .makeAvail 1 }

/-- A fixed block, nothing pending. -/
def fixedBlock (f : Bool) : BlockState := .huffman fixedLitlenTree fixedDistTree 0 none f

/-- A literal/length symbol is due. -/
def symState : State := at_ (fixedBlock false) []

/-- A distance symbol is due after length `len`; `written` bytes were written. -/
def distState (len written : Nat) : State :=
  { at_ (fixedBlock false) [] with inStep := .awaitDist len, window := ⟨[], 0, written, 0⟩ }

/-- The code-length tree of the rule vectors' code K (spec/95_test_vectors.md, 2.6): 0:`00`, 18:`01`, 1:`100`, 3:`101`, 16:`110`,
17:`111`. -/
def treeK : Tree := .node (.node (.leaf 0) (.leaf 18)) (.node (.node (.leaf 1) (.leaf 3)) (.node (.leaf 16) (.leaf 17)))

/-- A code-length symbol is due, `lens` read so far. -/
def lenState (lens : List Nat) (prev : Option Nat) : State :=
  { at_ .header [] with inStep := .dynHdr ⟨true, 257, 2, treeK, lens, prev⟩ }

/-- The same with room for 6 lengths only. -/
def lenState6 (lens : List Nat) : State :=
  { at_ .header [] with inStep := .dynHdr ⟨true, 4, 2, treeK, lens, some 1⟩ }

/-- A code-length symbol was read: the lengths and `PREV` after it. -/
def lensAre (lens : List Nat) (prev : Option Nat) (t : State) : Bool :=
  match t.inStep with
  | .dynHdr h => h.lens == lens && h.prev == prev
  | _ => false

/-- The pending registers (R23). -/
def pendingIs (len dist : Nat) (t : State) : Bool :=
  t.blk == .huffman fixedLitlenTree fixedDistTree len (some dist) false && t.inStep == .nothing && t.err == none

/-- A machine between commands with three undelivered bytes. -/
def idle3 : State := { State.reset with window := ⟨[(0, 1), (1, 2), (2, 3)], 3, 3, 3⟩ }

/-! ### WellFormed refuses an operand that its field cannot hold -/

theorem test_wf_dynamic_fields :
    Instr.wf (.blkDynamic true 32 0 [0, 0, 0, 0]) = false ∧ Instr.wf (.blkDynamic true 0 32 [0, 0, 0, 0]) = false ∧
    Instr.wf (.blkDynamic true 0 0 [0, 0, 0]) = false ∧ Instr.wf (.blkDynamic true 0 0 (List.replicate 20 0)) = false ∧
    Instr.wf (.blkDynamic true 0 0 [0, 8, 0, 0]) = false ∧ Instr.wf (.blkDynamic true 31 31 (List.replicate 19 7)) = true := by decide

theorem test_wf_field_0 :
    Instr.wf (.clLen 16) = false ∧ Instr.wf (.clLen 15) = true ∧
    Instr.wf (.clRep16 4) = false ∧ Instr.wf (.clRep16 3) = true ∧
    Instr.wf (.clZero17 8) = false ∧ Instr.wf (.clZero17 7) = true ∧
    Instr.wf (.clZero18 128) = false ∧ Instr.wf (.clZero18 127) = true ∧
    Instr.wf (.len265 2) = false ∧ Instr.wf (.len265 1) = true ∧
    Instr.wf (.len266 2) = false ∧ Instr.wf (.len266 1) = true ∧
    Instr.wf (.len267 2) = false ∧ Instr.wf (.len267 1) = true ∧
    Instr.wf (.len268 2) = false ∧ Instr.wf (.len268 1) = true ∧
    Instr.wf (.len269 4) = false ∧ Instr.wf (.len269 3) = true ∧
    Instr.wf (.len270 4) = false ∧ Instr.wf (.len270 3) = true ∧
    Instr.wf (.len271 4) = false ∧ Instr.wf (.len271 3) = true ∧
    Instr.wf (.len272 4) = false ∧ Instr.wf (.len272 3) = true ∧
    Instr.wf (.len273 8) = false ∧ Instr.wf (.len273 7) = true ∧
    Instr.wf (.len274 8) = false ∧ Instr.wf (.len274 7) = true ∧
    Instr.wf (.len275 8) = false ∧ Instr.wf (.len275 7) = true := by decide

theorem test_wf_field_1 :
    Instr.wf (.len276 8) = false ∧ Instr.wf (.len276 7) = true ∧
    Instr.wf (.len277 16) = false ∧ Instr.wf (.len277 15) = true ∧
    Instr.wf (.len278 16) = false ∧ Instr.wf (.len278 15) = true ∧
    Instr.wf (.len279 16) = false ∧ Instr.wf (.len279 15) = true ∧
    Instr.wf (.len280 16) = false ∧ Instr.wf (.len280 15) = true ∧
    Instr.wf (.len281 32) = false ∧ Instr.wf (.len281 31) = true ∧
    Instr.wf (.len282 32) = false ∧ Instr.wf (.len282 31) = true ∧
    Instr.wf (.len283 32) = false ∧ Instr.wf (.len283 31) = true ∧
    Instr.wf (.len284 32) = false ∧ Instr.wf (.len284 31) = true ∧
    Instr.wf (.dist4 2) = false ∧ Instr.wf (.dist4 1) = true ∧
    Instr.wf (.dist5 2) = false ∧ Instr.wf (.dist5 1) = true ∧
    Instr.wf (.dist6 4) = false ∧ Instr.wf (.dist6 3) = true ∧
    Instr.wf (.dist7 4) = false ∧ Instr.wf (.dist7 3) = true ∧
    Instr.wf (.dist8 8) = false ∧ Instr.wf (.dist8 7) = true ∧
    Instr.wf (.dist9 8) = false ∧ Instr.wf (.dist9 7) = true := by decide

theorem test_wf_field_2 :
    Instr.wf (.dist10 16) = false ∧ Instr.wf (.dist10 15) = true ∧
    Instr.wf (.dist11 16) = false ∧ Instr.wf (.dist11 15) = true ∧
    Instr.wf (.dist12 32) = false ∧ Instr.wf (.dist12 31) = true ∧
    Instr.wf (.dist13 32) = false ∧ Instr.wf (.dist13 31) = true ∧
    Instr.wf (.dist14 64) = false ∧ Instr.wf (.dist14 63) = true ∧
    Instr.wf (.dist15 64) = false ∧ Instr.wf (.dist15 63) = true ∧
    Instr.wf (.dist16 128) = false ∧ Instr.wf (.dist16 127) = true ∧
    Instr.wf (.dist17 128) = false ∧ Instr.wf (.dist17 127) = true ∧
    Instr.wf (.dist18 256) = false ∧ Instr.wf (.dist18 255) = true ∧
    Instr.wf (.dist19 256) = false ∧ Instr.wf (.dist19 255) = true ∧
    Instr.wf (.dist20 512) = false ∧ Instr.wf (.dist20 511) = true ∧
    Instr.wf (.dist21 512) = false ∧ Instr.wf (.dist21 511) = true ∧
    Instr.wf (.dist22 1024) = false ∧ Instr.wf (.dist22 1023) = true ∧
    Instr.wf (.dist23 1024) = false ∧ Instr.wf (.dist23 1023) = true ∧
    Instr.wf (.dist24 2048) = false ∧ Instr.wf (.dist24 2047) = true := by decide

theorem test_wf_field_3 :
    Instr.wf (.dist25 2048) = false ∧ Instr.wf (.dist25 2047) = true ∧
    Instr.wf (.dist26 4096) = false ∧ Instr.wf (.dist26 4095) = true ∧
    Instr.wf (.dist27 4096) = false ∧ Instr.wf (.dist27 4095) = true ∧
    Instr.wf (.dist28 8192) = false ∧ Instr.wf (.dist28 8191) = true ∧
    Instr.wf (.dist29 8192) = false ∧ Instr.wf (.dist29 8191) = true ∧
    Instr.wf (.makeAvailable 65536) = false ∧ Instr.wf (.makeAvailable 65535) = true ∧
    Instr.wf (.copyOut 65536) = false ∧ Instr.wf (.copyOut 65535) = true := by decide

/-! ### Decoding: the words the rules R208 to R236 and R251 to R280 give for the fixed codes, bit by bit -/

theorem test_decode_length_0 :
    decode (.litlen fixedLitlenTree) ⟨0, bs [0, 0, 0, 0, 0, 0, 1]⟩ = .instr .len257 ⟨7, []⟩ ∧
    decode (.litlen fixedLitlenTree) ⟨0, bs [0, 0, 0, 0, 0, 1, 0]⟩ = .instr .len258 ⟨7, []⟩ ∧
    decode (.litlen fixedLitlenTree) ⟨0, bs [0, 0, 0, 0, 0, 1, 1]⟩ = .instr .len259 ⟨7, []⟩ ∧
    decode (.litlen fixedLitlenTree) ⟨0, bs [0, 0, 0, 0, 1, 0, 0]⟩ = .instr .len260 ⟨7, []⟩ ∧
    decode (.litlen fixedLitlenTree) ⟨0, bs [0, 0, 0, 0, 1, 0, 1]⟩ = .instr .len261 ⟨7, []⟩ ∧
    decode (.litlen fixedLitlenTree) ⟨0, bs [0, 0, 0, 0, 1, 1, 0]⟩ = .instr .len262 ⟨7, []⟩ ∧
    decode (.litlen fixedLitlenTree) ⟨0, bs [0, 0, 0, 0, 1, 1, 1]⟩ = .instr .len263 ⟨7, []⟩ ∧
    decode (.litlen fixedLitlenTree) ⟨0, bs [0, 0, 0, 1, 0, 0, 0]⟩ = .instr .len264 ⟨7, []⟩ := by decide

theorem test_decode_length_1 :
    decode (.litlen fixedLitlenTree) ⟨0, bs [0, 0, 0, 1, 0, 0, 1, 1]⟩ = .instr (.len265 1) ⟨8, []⟩ ∧
    decode (.litlen fixedLitlenTree) ⟨0, bs [0, 0, 0, 1, 0, 1, 0, 1]⟩ = .instr (.len266 1) ⟨8, []⟩ ∧
    decode (.litlen fixedLitlenTree) ⟨0, bs [0, 0, 0, 1, 0, 1, 1, 1]⟩ = .instr (.len267 1) ⟨8, []⟩ ∧
    decode (.litlen fixedLitlenTree) ⟨0, bs [0, 0, 0, 1, 1, 0, 0, 1]⟩ = .instr (.len268 1) ⟨8, []⟩ ∧
    decode (.litlen fixedLitlenTree) ⟨0, bs [0, 0, 0, 1, 1, 0, 1, 1, 1]⟩ = .instr (.len269 3) ⟨9, []⟩ ∧
    decode (.litlen fixedLitlenTree) ⟨0, bs [0, 0, 0, 1, 1, 1, 0, 1, 0]⟩ = .instr (.len270 1) ⟨9, []⟩ ∧
    decode (.litlen fixedLitlenTree) ⟨0, bs [0, 0, 0, 1, 1, 1, 1, 1, 1]⟩ = .instr (.len271 3) ⟨9, []⟩ ∧
    decode (.litlen fixedLitlenTree) ⟨0, bs [0, 0, 1, 0, 0, 0, 0, 1, 0]⟩ = .instr (.len272 1) ⟨9, []⟩ := by decide

theorem test_decode_length_2 :
    decode (.litlen fixedLitlenTree) ⟨0, bs [0, 0, 1, 0, 0, 0, 1, 1, 1, 1]⟩ = .instr (.len273 7) ⟨10, []⟩ ∧
    decode (.litlen fixedLitlenTree) ⟨0, bs [0, 0, 1, 0, 0, 1, 0, 1, 0, 0]⟩ = .instr (.len274 1) ⟨10, []⟩ ∧
    decode (.litlen fixedLitlenTree) ⟨0, bs [0, 0, 1, 0, 0, 1, 1, 1, 1, 1]⟩ = .instr (.len275 7) ⟨10, []⟩ ∧
    decode (.litlen fixedLitlenTree) ⟨0, bs [0, 0, 1, 0, 1, 0, 0, 1, 0, 0]⟩ = .instr (.len276 1) ⟨10, []⟩ ∧
    decode (.litlen fixedLitlenTree) ⟨0, bs [0, 0, 1, 0, 1, 0, 1, 1, 1, 1, 1]⟩ = .instr (.len277 15) ⟨11, []⟩ ∧
    decode (.litlen fixedLitlenTree) ⟨0, bs [0, 0, 1, 0, 1, 1, 0, 1, 0, 0, 0]⟩ = .instr (.len278 1) ⟨11, []⟩ ∧
    decode (.litlen fixedLitlenTree) ⟨0, bs [0, 0, 1, 0, 1, 1, 1, 1, 1, 1, 1]⟩ = .instr (.len279 15) ⟨11, []⟩ ∧
    decode (.litlen fixedLitlenTree) ⟨0, bs [1, 1, 0, 0, 0, 0, 0, 0, 1, 0, 0, 0]⟩ = .instr (.len280 1) ⟨12, []⟩ := by decide

theorem test_decode_length_3 :
    decode (.litlen fixedLitlenTree) ⟨0, bs [1, 1, 0, 0, 0, 0, 0, 1, 1, 1, 1, 1, 1]⟩ = .instr (.len281 31) ⟨13, []⟩ ∧
    decode (.litlen fixedLitlenTree) ⟨0, bs [1, 1, 0, 0, 0, 0, 1, 0, 1, 0, 0, 0, 0]⟩ = .instr (.len282 1) ⟨13, []⟩ ∧
    decode (.litlen fixedLitlenTree) ⟨0, bs [1, 1, 0, 0, 0, 0, 1, 1, 1, 1, 1, 1, 1]⟩ = .instr (.len283 31) ⟨13, []⟩ ∧
    decode (.litlen fixedLitlenTree) ⟨0, bs [1, 1, 0, 0, 0, 1, 0, 0, 1, 0, 0, 0, 0]⟩ = .instr (.len284 1) ⟨13, []⟩ ∧
    decode (.litlen fixedLitlenTree) ⟨0, bs [1, 1, 0, 0, 0, 1, 0, 1]⟩ = .instr .len285 ⟨8, []⟩ := by decide

theorem test_decode_distance_0 :
    decode (.dist fixedDistTree) ⟨0, bs [0, 0, 0, 0, 0]⟩ = .instr .dist0 ⟨5, []⟩ ∧
    decode (.dist fixedDistTree) ⟨0, bs [0, 0, 0, 0, 1]⟩ = .instr .dist1 ⟨5, []⟩ ∧
    decode (.dist fixedDistTree) ⟨0, bs [0, 0, 0, 1, 0]⟩ = .instr .dist2 ⟨5, []⟩ ∧
    decode (.dist fixedDistTree) ⟨0, bs [0, 0, 0, 1, 1]⟩ = .instr .dist3 ⟨5, []⟩ ∧
    decode (.dist fixedDistTree) ⟨0, bs [0, 0, 1, 0, 0, 1]⟩ = .instr (.dist4 1) ⟨6, []⟩ ∧
    decode (.dist fixedDistTree) ⟨0, bs [0, 0, 1, 0, 1, 1]⟩ = .instr (.dist5 1) ⟨6, []⟩ ∧
    decode (.dist fixedDistTree) ⟨0, bs [0, 0, 1, 1, 0, 1, 0]⟩ = .instr (.dist6 1) ⟨7, []⟩ ∧
    decode (.dist fixedDistTree) ⟨0, bs [0, 0, 1, 1, 1, 1, 1]⟩ = .instr (.dist7 3) ⟨7, []⟩ := by decide

theorem test_decode_distance_1 :
    decode (.dist fixedDistTree) ⟨0, bs [0, 1, 0, 0, 0, 1, 0, 0]⟩ = .instr (.dist8 1) ⟨8, []⟩ ∧
    decode (.dist fixedDistTree) ⟨0, bs [0, 1, 0, 0, 1, 1, 1, 1]⟩ = .instr (.dist9 7) ⟨8, []⟩ ∧
    decode (.dist fixedDistTree) ⟨0, bs [0, 1, 0, 1, 0, 1, 0, 0, 0]⟩ = .instr (.dist10 1) ⟨9, []⟩ ∧
    decode (.dist fixedDistTree) ⟨0, bs [0, 1, 0, 1, 1, 1, 1, 1, 1]⟩ = .instr (.dist11 15) ⟨9, []⟩ ∧
    decode (.dist fixedDistTree) ⟨0, bs [0, 1, 1, 0, 0, 1, 0, 0, 0, 0]⟩ = .instr (.dist12 1) ⟨10, []⟩ ∧
    decode (.dist fixedDistTree) ⟨0, bs [0, 1, 1, 0, 1, 1, 1, 1, 1, 1]⟩ = .instr (.dist13 31) ⟨10, []⟩ ∧
    decode (.dist fixedDistTree) ⟨0, bs [0, 1, 1, 1, 0, 1, 0, 0, 0, 0, 0]⟩ = .instr (.dist14 1) ⟨11, []⟩ ∧
    decode (.dist fixedDistTree) ⟨0, bs [0, 1, 1, 1, 1, 1, 1, 1, 1, 1, 1]⟩ = .instr (.dist15 63) ⟨11, []⟩ := by decide

theorem test_decode_distance_2 :
    decode (.dist fixedDistTree) ⟨0, bs [1, 0, 0, 0, 0, 1, 0, 0, 0, 0, 0, 0]⟩ = .instr (.dist16 1) ⟨12, []⟩ ∧
    decode (.dist fixedDistTree) ⟨0, bs [1, 0, 0, 0, 1, 1, 1, 1, 1, 1, 1, 1]⟩ = .instr (.dist17 127) ⟨12, []⟩ ∧
    decode (.dist fixedDistTree) ⟨0, bs [1, 0, 0, 1, 0, 1, 0, 0, 0, 0, 0, 0, 0]⟩ = .instr (.dist18 1) ⟨13, []⟩ ∧
    decode (.dist fixedDistTree) ⟨0, bs [1, 0, 0, 1, 1, 1, 1, 1, 1, 1, 1, 1, 1]⟩ = .instr (.dist19 255) ⟨13, []⟩ ∧
    decode (.dist fixedDistTree) ⟨0, bs [1, 0, 1, 0, 0, 1, 0, 0, 0, 0, 0, 0, 0, 0]⟩ = .instr (.dist20 1) ⟨14, []⟩ ∧
    decode (.dist fixedDistTree) ⟨0, bs [1, 0, 1, 0, 1, 1, 1, 1, 1, 1, 1, 1, 1, 1]⟩ = .instr (.dist21 511) ⟨14, []⟩ ∧
    decode (.dist fixedDistTree) ⟨0, bs [1, 0, 1, 1, 0, 1, 0, 0, 0, 0, 0, 0, 0, 0, 0]⟩ = .instr (.dist22 1) ⟨15, []⟩ ∧
    decode (.dist fixedDistTree) ⟨0, bs [1, 0, 1, 1, 1, 1, 1, 1, 1, 1, 1, 1, 1, 1, 1]⟩ = .instr (.dist23 1023) ⟨15, []⟩ := by decide

theorem test_decode_distance_3 :
    decode (.dist fixedDistTree) ⟨0, bs [1, 1, 0, 0, 0, 1, 0, 0, 0, 0, 0, 0, 0, 0, 0, 0]⟩ = .instr (.dist24 1) ⟨16, []⟩ ∧
    decode (.dist fixedDistTree) ⟨0, bs [1, 1, 0, 0, 1, 1, 1, 1, 1, 1, 1, 1, 1, 1, 1, 1]⟩ = .instr (.dist25 2047) ⟨16, []⟩ ∧
    decode (.dist fixedDistTree) ⟨0, bs [1, 1, 0, 1, 0, 1, 0, 0, 0, 0, 0, 0, 0, 0, 0, 0, 0]⟩ = .instr (.dist26 1) ⟨17, []⟩ ∧
    decode (.dist fixedDistTree) ⟨0, bs [1, 1, 0, 1, 1, 1, 1, 1, 1, 1, 1, 1, 1, 1, 1, 1, 1]⟩ = .instr (.dist27 4095) ⟨17, []⟩ ∧
    decode (.dist fixedDistTree) ⟨0, bs [1, 1, 1, 0, 0, 1, 0, 0, 0, 0, 0, 0, 0, 0, 0, 0, 0, 0]⟩ = .instr (.dist28 1) ⟨18, []⟩ ∧
    decode (.dist fixedDistTree) ⟨0, bs [1, 1, 1, 0, 1, 1, 1, 1, 1, 1, 1, 1, 1, 1, 1, 1, 1, 1]⟩ = .instr (.dist29 8191) ⟨18, []⟩ := by decide

/-- R100, R237, R238, R281, R282, and S3's codes for 0, 256, 280: literals `0x30 + b` in 8 bits, `0x190 + (b - 144)` in 9. -/
theorem test_decode_fixed_other :
    decode (.litlen fixedLitlenTree) ⟨0, bs [0, 0, 1, 1, 0, 0, 0, 0]⟩ = .instr (.literal 0) ⟨8, []⟩ ∧
    decode (.litlen fixedLitlenTree) ⟨0, bs [1, 0, 1, 1, 1, 1, 1, 1]⟩ = .instr (.literal 143) ⟨8, []⟩ ∧
    decode (.litlen fixedLitlenTree) ⟨0, bs [1, 1, 0, 0, 1, 0, 0, 0, 0]⟩ = .instr (.literal 144) ⟨9, []⟩ ∧
    decode (.litlen fixedLitlenTree) ⟨0, bs [1, 1, 1, 1, 1, 1, 1, 1, 1]⟩ = .instr (.literal 255) ⟨9, []⟩ ∧
    decode (.litlen fixedLitlenTree) ⟨0, bs [0, 0, 0, 0, 0, 0, 0]⟩ = .instr .eob ⟨7, []⟩ ∧
    decode (.litlen fixedLitlenTree) ⟨0, bs [1, 1, 0, 0, 0, 1, 1, 0]⟩ = .instr .llInvalid286 ⟨8, []⟩ ∧
    decode (.litlen fixedLitlenTree) ⟨0, bs [1, 1, 0, 0, 0, 1, 1, 1]⟩ = .instr .llInvalid287 ⟨8, []⟩ ∧
    decode (.dist fixedDistTree) ⟨0, bs [1, 1, 1, 1, 0]⟩ = .instr .distInvalid30 ⟨5, []⟩ ∧
    decode (.dist fixedDistTree) ⟨0, bs [1, 1, 1, 1, 1]⟩ = .instr .distInvalid31 ⟨5, []⟩ := by decide

/-- R96 with the code K: symbol 3, symbol 16 with and without `PREV` (R185), 17, 18; and a symbol cut short. -/
theorem test_decode_code_length :
    decode (.clsym treeK none) ⟨0, bs [1, 0, 1]⟩ = .instr (.clLen 3) ⟨3, []⟩ ∧
    decode (.clsym treeK (some 3)) ⟨0, bs [1, 1, 0, 1, 0]⟩ = .instr (.clRep16 1) ⟨5, []⟩ ∧
    decode (.clsym treeK none) ⟨0, bs [1, 1, 0, 1, 0]⟩ = .instr (.clRep16 0) ⟨3, bs [1, 0]⟩ ∧
    decode (.clsym treeK none) ⟨0, bs [1, 1, 1, 0, 1, 0]⟩ = .instr (.clZero17 2) ⟨6, []⟩ ∧
    decode (.clsym treeK none) ⟨0, bs [0, 1, 0, 1, 0, 1, 0, 1, 1]⟩ = .instr (.clZero18 106) ⟨9, []⟩ ∧
    decode (.clsym treeK none) ⟨0, bs [0, 1, 0, 1, 0, 1, 0, 1]⟩ = .short := by decide

/-- BH1, BH4, BH7, BH8, BH10, BH12: header bytes. -/
theorem test_decode_header :
    decode .header ⟨0, [0x01, 0x01, 0x00, 0xFE, 0xFF].flatMap byteBits⟩ = .instr (.blkStored true 1 0xFFFE) ⟨40, []⟩ ∧
    decode .header ⟨0, [0xF9, 0x01, 0x00, 0xFE, 0xFF].flatMap byteBits⟩ = .instr (.blkStored true 1 0xFFFE) ⟨40, []⟩ ∧
    decode .header ⟨0, bs [1, 1, 1]⟩ = .instr (.blkReserved true) ⟨3, []⟩ ∧
    decode .header ⟨0, bs [0, 1, 1]⟩ = .instr (.blkReserved false) ⟨3, []⟩ ∧
    decode .header ⟨0, [0x01, 0x05, 0x00, 0xFA].flatMap byteBits⟩ = .short ∧
    decode .header ⟨0, bs [1, 1, 0]⟩ = .instr (.blkFixed true) ⟨3, []⟩ := by decide

/-- The head of DH1: `05 C1 37 09 00 00 00 03 B0` is HLIT field 0, HDIST field 1, HCLEN 18 and the 18 values of K, 71 bits. -/
theorem test_decode_dynamic :
    decode .header ⟨0, [0x05, 0xC1, 0x37, 0x09, 0x00, 0x00, 0x00, 0x03, 0x30].flatMap byteBits⟩ =
      .instr (.blkDynamic true 0 1 [3, 3, 2, 2, 0, 0, 0, 0, 0, 0, 0, 0, 0, 3, 0, 0, 0, 3]) ⟨71, [false]⟩ := by decide

/-- R116. -/
theorem test_decode_command :
    decodeCmd ⟨0, 5⟩ = .makeAvailable 5 ∧ decodeCmd ⟨1, 5⟩ = .copyOut 5 ∧ decodeCmd ⟨2, 5⟩ = .read 5 ∧ decodeCmd ⟨3, 5⟩ = .reset := by
  decide

/-- Values of spec/opcode_table.json in each of the spaces (entry 16). -/
theorem test_table_words :
    decodeTableWord 3 0 = some (.blkStored false 0 0) ∧ decodeTableWord 3 3 = some (.blkFixed true) ∧
    decodeTableWord 3 6 = some (.blkReserved false) ∧ decodeTableWord 9 256 = some .eob ∧ decodeTableWord 9 285 = some .len285 ∧
    decodeTableWord 5 30 = some .distInvalid30 ∧ decodeTableWord 18 29 = some (.dist29 0) ∧
    decodeTableWord 2 3 = some .reset ∧ decodeTableWord 9 288 = none ∧ decodeTableWord 5 32 = none := by decide

/-! ### The read primitives: BC1 to BC10 on `ED 01 A5 FF` -/

def bc : List Bool := [0xED, 0x01, 0xA5, 0xFF].flatMap byteBits

theorem test_read_bits :
    (readBit ⟨0, bc⟩).map Prod.fst = some true ∧ (readBits 2 ⟨1, bc.drop 1⟩).map Prod.fst = some 2 ∧
    (readBits 7 ⟨3, bc.drop 3⟩).map Prod.fst = some 61 ∧ (readBits 0 ⟨10, bc.drop 10⟩) = some (0, ⟨10, bc.drop 10⟩) ∧
    align ⟨10, bc.drop 10⟩ = ⟨16, bc.drop 16⟩ ∧ align ⟨16, bc.drop 16⟩ = ⟨16, bc.drop 16⟩ ∧
    readByte ⟨16, bc.drop 16⟩ = some (165, ⟨24, bc.drop 24⟩) ∧ (readBits 5 ⟨24, bc.drop 24⟩).map Prod.fst = some 31 ∧
    (readBits 3 ⟨29, bc.drop 29⟩) = some (7, ⟨32, []⟩) ∧ readBit ⟨32, []⟩ = none := by decide

/-- `05 00 FA FF`: 5 and 65530 (2.1). -/
theorem test_read_u16 :
    readU16le ⟨0, [0x05, 0x00, 0xFA, 0xFF].flatMap byteBits⟩ = some (5, ⟨16, [0xFA, 0xFF].flatMap byteBits⟩) ∧
    readU16le ⟨16, [0xFA, 0xFF].flatMap byteBits⟩ = some (65530, ⟨32, []⟩) := by decide

/-! ### Codes and trees: CC1, CC3, CC7, CC8, CT1, CT5, CT6, CT9, CT12 -/

theorem test_canonical :
    canonical [3, 3, 3, 3, 3, 2, 4, 4] =
      .ok [(0, (3, 2)), (1, (3, 3)), (2, (3, 4)), (3, (3, 5)), (4, (3, 6)), (5, (2, 0)), (6, (4, 14)), (7, (4, 15))] ∧
    canonical [0, 1, 1] = .ok [(1, (1, 0)), (2, (1, 1))] ∧ canonical [] = .error .invalidHuffmanCodes ∧
    canonical [1, 1, 1] = .ok [(0, (1, 0)), (1, (1, 1)), (2, (1, 2))] := by
  refine ⟨rfl, rfl, rfl, rfl⟩

theorem test_build :
    buildReject [2, 1, 3, 3] = .ok (.node (.leaf 1) (.node (.leaf 0) (.node (.leaf 2) (.leaf 3)))) ∧
    buildReject [1, 1, 1] = .error .invalidHuffmanCodes ∧ buildReject [2, 2, 2] = .error .invalidHuffmanCodes ∧
    buildReject [0, 0, 0] = .error .invalidHuffmanCodes ∧ buildReject [1, 0, 0] = .error .invalidHuffmanCodes := by
  refine ⟨rfl, rfl, rfl, rfl, rfl⟩

theorem test_decode_symbol :
    decodeSym (.node (.leaf 1) (.node (.leaf 0) (.node (.leaf 2) (.leaf 3)))) ⟨0, bs [1, 1, 0, 0, 1, 0]⟩ =
      some (2, ⟨3, bs [0, 1, 0]⟩) ∧
    decodeSym (.node (.leaf 1) (.node (.leaf 0) (.node (.leaf 2) (.leaf 3)))) ⟨8, []⟩ = none := by decide

/-! ### The window, `CAP = 8` (R170; S4) -/

def put3 : Window := ((Window.empty.put 8 1).put 8 2).put 8 3

/-- `[1,2,3]`, then distance 3, length 5. -/
theorem test_self_copy :
    put3.selfCopyRun 8 3 5 =
      some ⟨[(0, 1), (1, 2), (2, 3), (3, 1), (4, 2), (5, 3), (6, 1), (7, 2)], 0, 8, 8⟩ := by decide

theorem test_run_of_one_byte :
    (Window.empty.put 8 7).selfCopyRun 8 1 4 = some ⟨[(0, 7), (1, 7), (2, 7), (3, 7), (4, 7)], 5, 5, 5⟩ := by decide

theorem test_underflow : put3.distanceOk 4 = false ∧ put3.distanceOk 3 = true ∧ Window.empty.distanceOk 1 = false := by decide

/-- Row 6: the copy out splits at the wrap, indices 6, 7, 0. -/
theorem test_copy_out_wrap :
    Window.copyOut 8 3 ⟨[(0, 11), (1, 2), (2, 3), (3, 4), (4, 5), (5, 6), (6, 9), (7, 10)], 1, 8, 3⟩ =
      some ([9, 10, 11], ⟨[(0, 11), (1, 2), (2, 3), (3, 4), (4, 5), (5, 6), (6, 9), (7, 10)], 1, 8, 0⟩) := by decide

/-- Memory: a byte written out of order keeps the addresses rising; a second write replaces. -/
theorem test_memory :
    (Memory.write (Memory.write [] 5 1) 3 2) = [(3, 2), (5, 1)] ∧ Memory.write [(3, 2), (5, 1)] 5 9 = [(3, 2), (5, 9)] ∧
    Memory.read [(3, 2), (5, 1)] 4 = none := by decide

/-! ### Meanings -/

/-- BH1: LEN 1. BH5: the high byte of NLEN wrong. -/
theorem test_stored :
    nextWith (exec (.blkStored true 1 0xFFFE) (at_ .header [])) (fun t => t.blk == .uncompressed 1 true) = true ∧
    nextWith (exec (.blkStored true 5 0xFEFA) (at_ .header [])) (fun t => t.err == some .nonMatchingLengthFields) = true := by decide

theorem test_fixed :
    nextWith (exec (.blkFixed true) (at_ .header [])) (fun t => t.blk == fixedBlock true) = true := by decide

/-- BH7, BH8. -/
theorem test_reserved :
    nextWith (exec (.blkReserved true) (at_ .header [])) (fun t =>
      t.err == some .invalidBlockType && t.resp == [.err .invalidBlockType] && t.cur == .idle) = true := by decide

/-- DH1: the head builds K. -/
theorem test_dynamic :
    nextWith (exec (.blkDynamic true 0 1 [3, 3, 2, 2, 0, 0, 0, 0, 0, 0, 0, 0, 0, 3, 0, 0, 0, 3]) (at_ .header []))
      (fun t => t.inStep == .dynHdr ⟨true, 257, 2, treeK, [], none⟩) = true := by decide

/-- DH16, DH19: no code, an incomplete code. -/
theorem test_dynamic_bad :
    nextWith (exec (.blkDynamic true 0 1 [0, 0, 0, 0]) (at_ .header [])) (fun t => t.err == some .invalidHuffmanCodes) = true ∧
    nextWith (exec (.blkDynamic true 0 1 [2, 2, 2, 0]) (at_ .header [])) (fun t => t.err == some .invalidHuffmanCodes) = true := by
  decide

theorem test_cl_len : nextWith (exec (.clLen 3) (lenState [1] (some 1))) (lensAre [1, 3] (some 3)) = true := by decide

/-- S7: after a length 3, the repeat gives further threes; DH6: with no previous length an error. -/
theorem test_rep16 :
    nextWith (exec (.clRep16 2) (lenState [3] (some 3))) (lensAre [3, 3, 3, 3, 3, 3] (some 3)) = true ∧
    nextWith (exec (.clRep16 0) (lenState [] none)) (fun t => t.err == some .invalidHuffmanCodes) = true := by decide

/-- R189 (as DH4, DH11, with `TOTAL` 6): with 4 lengths there a run of 3 is one too many; with 3 it fits. -/
theorem test_overrun :
    nextWith (exec (.clRep16 0) (lenState6 [1, 1, 1, 1])) (fun t => t.err == some .invalidHuffmanCodes) = true ∧
    nextWith (exec (.clZero17 0) (lenState6 [1, 1, 1, 1])) (fun t => t.err == some .invalidHuffmanCodes) = true ∧
    nextWith (exec (.clRep16 0) (lenState6 [1, 1, 1])) (lensAre [1, 1, 1, 1, 1, 1] (some 1)) = true := by decide

/-- R186, R187: `e + 3` and `e + 11` zeros; under the default policy no previous length is left (D12). -/
theorem test_zero_runs :
    nextWith (exec (.clZero17 1) (lenState [1] (some 1))) (lensAre [1, 0, 0, 0, 0] none) = true ∧
    nextWith (exec (.clZero18 1) (lenState [1] (some 1))) (lensAre (1 :: List.replicate 12 0) none) = true := by decide

theorem test_literal :
    nextWith (exec (.literal 0x41) symState) (fun t => t.window == ⟨[(0, 0x41)], 1, 1, 1⟩ && t.blk == symState.blk) = true := by
  decide

theorem test_eob :
    nextWith (exec .eob symState) (fun t => t.blk == .header) = true ∧
    nextWith (exec .eob (at_ (fixedBlock true) [])) (fun t => t.blk == .complete) = true := by decide

/-- The lengths the rules R208 to R236 give in their examples. -/
theorem test_length_0 :
    nextWith (exec .len257 symState) (fun t => t.inStep == .awaitDist 3) = true ∧
    nextWith (exec .len258 symState) (fun t => t.inStep == .awaitDist 4) = true ∧
    nextWith (exec .len259 symState) (fun t => t.inStep == .awaitDist 5) = true ∧
    nextWith (exec .len260 symState) (fun t => t.inStep == .awaitDist 6) = true ∧
    nextWith (exec .len261 symState) (fun t => t.inStep == .awaitDist 7) = true ∧
    nextWith (exec .len262 symState) (fun t => t.inStep == .awaitDist 8) = true ∧
    nextWith (exec .len263 symState) (fun t => t.inStep == .awaitDist 9) = true ∧
    nextWith (exec .len264 symState) (fun t => t.inStep == .awaitDist 10) = true ∧
    nextWith (exec (.len265 1) symState) (fun t => t.inStep == .awaitDist 12) = true ∧
    nextWith (exec (.len266 1) symState) (fun t => t.inStep == .awaitDist 14) = true := by decide

theorem test_length_1 :
    nextWith (exec (.len267 1) symState) (fun t => t.inStep == .awaitDist 16) = true ∧
    nextWith (exec (.len268 1) symState) (fun t => t.inStep == .awaitDist 18) = true ∧
    nextWith (exec (.len269 3) symState) (fun t => t.inStep == .awaitDist 22) = true ∧
    nextWith (exec (.len270 1) symState) (fun t => t.inStep == .awaitDist 24) = true ∧
    nextWith (exec (.len271 3) symState) (fun t => t.inStep == .awaitDist 30) = true ∧
    nextWith (exec (.len272 1) symState) (fun t => t.inStep == .awaitDist 32) = true ∧
    nextWith (exec (.len273 7) symState) (fun t => t.inStep == .awaitDist 42) = true ∧
    nextWith (exec (.len274 1) symState) (fun t => t.inStep == .awaitDist 44) = true ∧
    nextWith (exec (.len275 7) symState) (fun t => t.inStep == .awaitDist 58) = true ∧
    nextWith (exec (.len276 1) symState) (fun t => t.inStep == .awaitDist 60) = true := by decide

theorem test_length_2 :
    nextWith (exec (.len277 15) symState) (fun t => t.inStep == .awaitDist 82) = true ∧
    nextWith (exec (.len278 1) symState) (fun t => t.inStep == .awaitDist 84) = true ∧
    nextWith (exec (.len279 15) symState) (fun t => t.inStep == .awaitDist 114) = true ∧
    nextWith (exec (.len280 1) symState) (fun t => t.inStep == .awaitDist 116) = true ∧
    nextWith (exec (.len281 31) symState) (fun t => t.inStep == .awaitDist 162) = true ∧
    nextWith (exec (.len282 1) symState) (fun t => t.inStep == .awaitDist 164) = true ∧
    nextWith (exec (.len283 31) symState) (fun t => t.inStep == .awaitDist 226) = true ∧
    nextWith (exec (.len284 1) symState) (fun t => t.inStep == .awaitDist 228) = true ∧
    nextWith (exec .len285 symState) (fun t => t.inStep == .awaitDist 258) = true := by decide

/-- The distances the rules R251 to R280 give in their examples; the length waiting was 4. -/
theorem test_distance_0 :
    nextWith (exec .dist0 (distState 4 32768)) (fun t => pendingIs 4 1 t) = true ∧
    nextWith (exec .dist1 (distState 4 32768)) (fun t => pendingIs 4 2 t) = true ∧
    nextWith (exec .dist2 (distState 4 32768)) (fun t => pendingIs 4 3 t) = true ∧
    nextWith (exec .dist3 (distState 4 32768)) (fun t => pendingIs 4 4 t) = true ∧
    nextWith (exec (.dist4 1) (distState 4 32768)) (fun t => pendingIs 4 6 t) = true ∧
    nextWith (exec (.dist5 1) (distState 4 32768)) (fun t => pendingIs 4 8 t) = true ∧
    nextWith (exec (.dist6 1) (distState 4 32768)) (fun t => pendingIs 4 10 t) = true ∧
    nextWith (exec (.dist7 3) (distState 4 32768)) (fun t => pendingIs 4 16 t) = true ∧
    nextWith (exec (.dist8 1) (distState 4 32768)) (fun t => pendingIs 4 18 t) = true ∧
    nextWith (exec (.dist9 7) (distState 4 32768)) (fun t => pendingIs 4 32 t) = true := by decide

theorem test_distance_1 :
    nextWith (exec (.dist10 1) (distState 4 32768)) (fun t => pendingIs 4 34 t) = true ∧
    nextWith (exec (.dist11 15) (distState 4 32768)) (fun t => pendingIs 4 64 t) = true ∧
    nextWith (exec (.dist12 1) (distState 4 32768)) (fun t => pendingIs 4 66 t) = true ∧
    nextWith (exec (.dist13 31) (distState 4 32768)) (fun t => pendingIs 4 128 t) = true ∧
    nextWith (exec (.dist14 1) (distState 4 32768)) (fun t => pendingIs 4 130 t) = true ∧
    nextWith (exec (.dist15 63) (distState 4 32768)) (fun t => pendingIs 4 256 t) = true ∧
    nextWith (exec (.dist16 1) (distState 4 32768)) (fun t => pendingIs 4 258 t) = true ∧
    nextWith (exec (.dist17 127) (distState 4 32768)) (fun t => pendingIs 4 512 t) = true ∧
    nextWith (exec (.dist18 1) (distState 4 32768)) (fun t => pendingIs 4 514 t) = true ∧
    nextWith (exec (.dist19 255) (distState 4 32768)) (fun t => pendingIs 4 1024 t) = true := by decide

theorem test_distance_2 :
    nextWith (exec (.dist20 1) (distState 4 32768)) (fun t => pendingIs 4 1026 t) = true ∧
    nextWith (exec (.dist21 511) (distState 4 32768)) (fun t => pendingIs 4 2048 t) = true ∧
    nextWith (exec (.dist22 1) (distState 4 32768)) (fun t => pendingIs 4 2050 t) = true ∧
    nextWith (exec (.dist23 1023) (distState 4 32768)) (fun t => pendingIs 4 4096 t) = true ∧
    nextWith (exec (.dist24 1) (distState 4 32768)) (fun t => pendingIs 4 4098 t) = true ∧
    nextWith (exec (.dist25 2047) (distState 4 32768)) (fun t => pendingIs 4 8192 t) = true ∧
    nextWith (exec (.dist26 1) (distState 4 32768)) (fun t => pendingIs 4 8194 t) = true ∧
    nextWith (exec (.dist27 4095) (distState 4 32768)) (fun t => pendingIs 4 16384 t) = true ∧
    nextWith (exec (.dist28 1) (distState 4 32768)) (fun t => pendingIs 4 16386 t) = true ∧
    nextWith (exec (.dist29 8191) (distState 4 32768)) (fun t => pendingIs 4 32768 t) = true := by decide

/-- R281, R282, R283, R237, R238: the four invalid symbols; a distance one beyond `WRITTEN`. -/
theorem test_invalid_symbols :
    nextWith (exec .llInvalid286 symState) (fun t => t.err == some .invalidLiteralLengthSymbol) = true ∧
    nextWith (exec .llInvalid287 symState) (fun t => t.err == some .invalidLiteralLengthSymbol) = true ∧
    nextWith (exec .distInvalid30 (distState 3 9)) (fun t => t.err == some .invalidHuffmanCodes) = true ∧
    nextWith (exec .distInvalid31 (distState 3 9)) (fun t => t.err == some .invalidHuffmanCodes) = true ∧
    nextWith (exec .dist3 (distState 3 3)) (fun t => t.err == some .windowUnderflow) = true := by decide

/-- R301: enough already; a request that goes on; above the capacity. -/
theorem test_make_available :
    nextWith (exec (.makeAvailable 3) idle3) (fun t => t.resp == [.okCount 3] && t.cur == .idle) = true ∧
    nextWith (exec (.makeAvailable 4) idle3) (fun t => t.resp == [] && t.cur == .makeAvail 4) = true ∧
    exec (.makeAvailable 32769) idle3 = .refused .requestAboveCapacity := ⟨by decide, by decide, rfl⟩

/-- R304: the two oldest of three. -/
theorem test_copy_out :
    nextWith (exec (.copyOut 2) idle3) (fun t =>
      t.resp == [.bytes [1, 2]] && t.out == [1, 2] && t.window.avail == 1) = true ∧
    exec (.copyOut 4) idle3 = .refused .copyOutAboveAvailable := ⟨by decide, rfl⟩

/-- R305: all there; nothing wanted. -/
theorem test_read :
    nextWith (exec (.read 2) idle3) (fun t => t.resp == [.okBytes [1, 2]] && t.out == [1, 2]) = true ∧
    nextWith (exec (.read 0) idle3) (fun t => t.resp == [.okBytes []] && t.out == []) = true := by decide

/-- R370: the window is forgotten, the source is not. R335: with an error latched `bitpos` is not read. -/
theorem test_reset :
    nextWith (exec .reset { idle3 with src := ⟨[7, 8], true, 0, []⟩, bitpos := 9 }) (fun t =>
      t.err == none && t.window == Window.empty && t.src == ⟨[7, 8], true, 2, []⟩ && t.bitpos == 0) = true ∧
    nextWith (exec .reset { idle3 with
        err := some .windowUnderflow, src := ⟨[7, 8], true, 0, []⟩, bitpos := 900, fetchedAtErr := 1 }) (fun t =>
      t.err == none && t.src == ⟨[7, 8], true, 1, []⟩ && t.bitpos == 0) = true := by decide

/-- R339, R136: BH7 fetches the one byte of its three bits; a stored head cut short (BH11) fetches every byte that is there. -/
theorem test_fetched_at_error :
    nextWith (step (at_ .header [0x07, 0x55])) (fun t => t.err == some .invalidBlockType && t.fetchedAtErr == 1) = true ∧
    nextWith (step (at_ .header [0x01, 0x05, 0x00, 0xFA])) (fun t =>
      t.err == some .unexpectedEndOfInput && t.fetchedAtErr == 4) = true := by decide

/-- R169, D24: no byte is 0 back. -/
theorem test_distance_zero : put3.selfCopyByte 8 0 = none ∧ put3.selfCopy 8 0 5 = .ok none := ⟨rfl, rfl⟩

/-! ### Steps -/

/-- BH3: LEN 0, then the completion step. BH9: no input. BH11: input ends in the header. With more to come the step holds. -/
theorem test_step_header :
    nextWith (step (at_ .header [0x01, 0x00, 0x00, 0xFF, 0xFF])) (fun t => t.blk == .uncompressed 0 true && t.bitpos == 40) = true ∧
    nextWith (step (at_ (.uncompressed 0 true) [])) (fun t => t.blk == .complete) = true ∧
    nextWith (step (at_ .header [])) (fun t => t.err == some .unexpectedEndOfInput) = true ∧
    nextWith (step (at_ .header [0x01])) (fun t => t.err == some .unexpectedEndOfInput) = true ∧
    nextWith (step (waiting .header [0x01])) (fun t => t.blk == .header && t.bitpos == 0 && t.src.bytes == [0x01, 0x2A]) = true := by
  decide

/-- R162: the byte `5A` of BH1. -/
theorem test_step_stored_byte :
    nextWith (step { at_ (.uncompressed 1 true) [0x01, 0x01, 0x00, 0xFE, 0xFF, 0x5A] with bitpos := 40 }) (fun t =>
      t.blk == .uncompressed 0 true && t.bitpos == 48 && t.window == ⟨[(0, 0x5A)], 1, 1, 1⟩) = true := by decide

/-- R204: 3 pending, 1 wanted. -/
theorem test_step_pending :
    nextWith (step { at_ (.huffman fixedLitlenTree fixedDistTree 3 (some 1) false) [] with window := ⟨[(0, 9)], 1, 1, 0⟩ }) (fun t =>
      t.blk == .huffman fixedLitlenTree fixedDistTree 2 (some 1) false && t.window == ⟨[(0, 9), (1, 9)], 2, 2, 1⟩) = true := by
  decide

/-- R132, R7: 32 bits are the most one call returns. -/
theorem test_field_max :
    (readBits 32 ⟨0, List.replicate 40 true⟩).map Prod.fst = some 0xFFFFFFFF ∧ readBits 33 ⟨0, List.replicate 40 true⟩ = none := by
  decide

/-- R33: depth of the fixed trees (R99: longest code 9, and 5). -/
theorem test_fixed_depth : fixedLitlenTree.depth = 9 ∧ fixedDistTree.depth = 5 := by decide

/-! ### Witnesses: states and operands that meet the hypotheses of each statement -/

theorem witness_DecodeEncode :
    Instr.WellFormed (.blkStored true 5 0xFFFA) ∧ (encode .header 6 (.blkStored true 5 0xFFFA)).isSome = true ∧
    Instr.WellFormed (.dist29 8191) ∧ (encode (.dist fixedDistTree) 3 (.dist29 8191)).isSome = true := by decide

theorem witness_EveryInstrEncodes : Instr.WellFormed (.clZero18 127) ∧ Instr.WellFormed (.read 70000) ∧ Instr.WellFormed .eob := by
  decide

theorem witness_DecodeReadsExactly :
    ∃ ctx c c' i, decode ctx c = .instr i c' :=
  ⟨.litlen fixedLitlenTree, ⟨0, bs [0, 0, 0, 0, 0, 0, 0, 1]⟩, ⟨7, [true]⟩, .eob, by decide⟩

theorem witness_PlacedWordRuns :
    (∃ i, decodeTableWord 9 256 = some i) ∧ (∃ i, decodeTableWord 3 4 = some i) ∧ (∃ i, decodeTableWord 2 0 = some i) ∧
    ∃ i, decodeTableWord 5 0 = some i :=
  ⟨⟨.eob, rfl⟩, ⟨.blkDynamic false 0 0 [0, 0, 0, 0], by decide⟩, ⟨.makeAvailable 0, rfl⟩, ⟨.dist0, rfl⟩⟩

/-- A field that is there, one that is not, and the widths on both sides of `FIELD_MAX`. -/
theorem witness_FieldLowBitFirst :
    3 ≤ (Cursor.mk 0 [true, false, true]).bits.length ∧ (Cursor.mk 0 [true, false, true]).bits.length < 4 ∧
    32 ≤ Config.fieldMax ∧ Config.fieldMax < 33 := by decide

theorem witness_trees :
    (∃ codes t, canonical [2, 1, 3, 3] = .ok codes ∧ buildReject [2, 1, 3, 3] = .ok t ∧ (2, (3, 6)) ∈ codes ∧
      decodeSym t ⟨0, [true, true, false]⟩ = some (2, ⟨3, []⟩)) ∧
    kraftSum (maxLength [2, 1, 3, 3]) [2, 1, 3, 3] = 2 ^ maxLength [2, 1, 3, 3] ∧
    2 ≤ (usedSymbols 0 [2, 1, 3, 3]).length :=
  ⟨⟨[(0, (2, 2)), (1, (1, 0)), (2, (3, 6)), (3, (3, 7))], .node (.leaf 1) (.node (.leaf 0) (.node (.leaf 2) (.leaf 3))),
    rfl, rfl, by decide, by decide⟩, by decide, by decide⟩

theorem witness_SingleCodePolicies :
    usedSymbols 0 [0, 0, 2, 0] = [2] ∧ (usedSymbols 0 [0, 0, 2, 0]).length ≤ 1 ∧ usedSymbols 0 [0, 0, 0] = [] ∧
    [0, 0, 0].length ≠ 1 ∧ 2 ≤ (usedSymbols 0 [1, 1]).length ∧ buildTable .zeroBitLeaf [1, 1, 1] = .error .invalidHuffmanCodes :=
  ⟨by decide, by decide, by decide, by decide, by decide, rfl⟩

/-- Distance 3 of 3 written, length 5 up to the capacity; distance 4 is one too far; all 3 undelivered bytes may go. -/
theorem witness_window :
    put3.inv 8 = true ∧ 1 ≤ 3 ∧ 3 ≤ put3.written ∧ put3.avail + 5 ≤ 8 ∧ put3.written < 4 ∧ put3.avail < 8 ∧ 3 ≤ put3.avail ∧
    (put3.selfCopyRun 8 3 5).isSome = true ∧ 1 ≠ put3.wpos := by decide

theorem witness_PaddingIgnored :
    ([true, true] : List Bool).length = (8 - (3 + 3) % 8) % 8 ∧ ([] : List Bool).length = (8 - (5 + 3) % 8) % 8 ∧
    ∃ i c, decode .header ⟨3, true :: false :: false :: ([true, true] ++ ([5, 0, 0xFA, 0xFF] : List Byte).flatMap byteBits)⟩ = .instr i c :=
  ⟨by decide, by decide, .blkStored true 5 0xFFFA, ⟨40, []⟩, by decide⟩

/-- For StoredHeader (both cases), FixedHeader, ReservedHeader and DynamicHeader (both cases). -/
theorem witness_headers :
    (at_ .header []).AtHeader ∧ (0x0005#16).toNat = 0xFFFF - (0xFFFA#16).toNat ∧ (0x0005#16).toNat ≠ 0xFFFF - (0xFFFB#16).toNat ∧
    (∃ t, buildTable (at_ .header []).params.singleCode (fillClLen [1, 2, 2, 0]) = .ok t) ∧
    ∀ t, buildTable (at_ .header []).params.singleCode (fillClLen [1, 1, 1, 0]) ≠ .ok t :=
  ⟨⟨by decide, rfl, rfl⟩, by decide, by decide, ⟨.node (.leaf 16) (.node (.leaf 17) (.leaf 18)), rfl⟩, fun t h => by cases h⟩

theorem witness_ClLenSlots : 18 < 19 := by decide

/-- For CodeLengthSymbols: with and without `PREV`, and each policy. -/
theorem witness_CodeLengthSymbols :
    (∃ h, (lenState [] none).AtLengths h ∧ h.prev = none) ∧ (∃ h, (lenState6 [1, 1, 1]).AtLengths h ∧ h.prev = some 1) ∧
    (lenState [] none).params.rep16 = .fault ∧ ({ lenState [] none with params := ⟨.reject, .keepLiteral⟩ } : State).params.rep16 = .keepLiteral ∧
    ({ lenState [] none with params := ⟨.reject, .zero⟩ } : State).params.rep16 = .zero :=
  ⟨⟨⟨true, 257, 2, treeK, [], none⟩, ⟨by decide, rfl, rfl, by decide⟩, rfl⟩,
   ⟨⟨true, 4, 2, treeK, [1, 1, 1], some 1⟩, ⟨by decide, rfl, rfl, by decide⟩, rfl⟩, rfl, rfl, rfl⟩

/-- For DynamicHeaderEnd: both tables build; the distance table does not. -/
theorem witness_DynamicHeaderEnd :
    (lenState6 [2, 2, 2, 2, 1, 1]).stepDue = true ∧ 4 + 2 ≤ [2, 2, 2, 2, 1, 1].length ∧
    (∃ lt, buildTable .reject ([2, 2, 2, 2, 1, 1].take 4) = .ok lt) ∧
    (∃ dt, buildTable .reject (([2, 2, 2, 2, 1, 1].drop 4).take 2) = .ok dt) ∧
    (∀ dt, buildTable .reject (([2, 2, 2, 2, 1, 0].drop 4).take 2) ≠ .ok dt) :=
  ⟨by decide, by decide, ⟨.node (.node (.leaf 0) (.leaf 1)) (.node (.leaf 2) (.leaf 3)), rfl⟩, ⟨.node (.leaf 0) (.leaf 1), rfl⟩,
   fun dt h => by cases h⟩

/-- For LiteralAndEob (its cases), LengthCodes, InvalidLengthSymbols, InvalidDistanceSymbols. -/
theorem witness_symbols :
    symState.AtSymbol fixedLitlenTree fixedDistTree none false ∧
    (at_ (fixedBlock true) []).AtSymbol fixedLitlenTree fixedDistTree none true ∧
    decodeSym fixedLitlenTree ⟨0, bs [1, 1, 1, 1, 1, 1, 1, 1, 1]⟩ = some (255, ⟨9, []⟩) ∧
    decodeSym fixedLitlenTree ⟨0, bs [0, 0, 0, 0, 0, 0, 0]⟩ = some (256, ⟨7, []⟩) ∧
    decodeSym fixedLitlenTree ⟨0, bs [1, 1, 0, 0, 0, 1, 1, 0]⟩ = some (286, ⟨8, []⟩) ∧
    decodeSym fixedLitlenTree ⟨0, bs [1, 1, 0, 0, 0, 1, 1, 1]⟩ = some (287, ⟨8, []⟩) ∧
    decodeSym fixedDistTree ⟨0, bs [1, 1, 1, 1, 0]⟩ = some (30, ⟨5, []⟩) ∧
    decodeSym fixedDistTree ⟨0, bs [1, 1, 1, 1, 1]⟩ = some (31, ⟨5, []⟩) :=
  ⟨⟨by decide, rfl, rfl⟩, ⟨by decide, rfl, rfl⟩, by decide, by decide, by decide, by decide, by decide, by decide⟩

/-- For DistanceCodes and InvalidDistanceSymbols: the distance just inside `WRITTEN` and just beyond it. -/
theorem witness_DistanceCodes :
    (distState 4 32768).AtDistance 4 fixedLitlenTree fixedDistTree none false ∧ 24577 + 8191 ≤ (distState 4 32768).window.written ∧
    (distState 3 3).AtDistance 3 fixedLitlenTree fixedDistTree none false ∧ ¬ 4 ≤ (distState 3 3).window.written :=
  ⟨⟨by decide, rfl, rfl⟩, by decide, ⟨by decide, rfl, rfl⟩, by decide⟩

/-- For ElementsRunWhereDue: each kind due, and a kind that is not. -/
theorem witness_ElementsRunWhereDue :
    (at_ .header []).expects = some (Instr.tableValue (.blkFixed true)).1 ∧
    (lenState [] none).expects = some (Instr.tableValue (.clLen 1)).1 ∧ symState.expects = some (Instr.tableValue .eob).1 ∧
    (distState 3 3).expects = some (Instr.tableValue .dist0).1 ∧ symState.expects ≠ some (Instr.tableValue .dist0).1 := by decide

theorem witness_ErrorEntry : symState.cur = .makeAvail 1 ∧ ({ symState with cur := .read 5 [1] } : State).cur = .read 5 [1] := ⟨rfl, rfl⟩

/-- A reserved header that is read (BH7), under both commands. -/
def badHeader : State := at_ .header [0x07]

theorem witness_ErrorsPrecise :
    (∃ s t k, step s = .next t ∧ s.err = none ∧ t.err = some k ∧ s.cur = .makeAvail 1) ∧
    ∃ s t k, step s = .next t ∧ s.err = none ∧ t.err = some k ∧ s.cur = .read 5 [] :=
  ⟨⟨badHeader, after badHeader, .invalidBlockType, step_after (by decide), rfl, by decide, rfl⟩,
   ⟨{ badHeader with cur := .read 5 [] }, after { badHeader with cur := .read 5 [] }, .invalidBlockType, step_after (by decide), rfl,
    by decide, rfl⟩⟩

/-- An error is latched and the host asks for a byte. -/
def erred : State := { idle3 with err := some .invalidBlockType, cmds := [⟨0, 4⟩] }

/-- For ErrorSticky and ErrorStateUnread: a step that is no reset, and a reset. -/
theorem witness_ErrorSticky :
    erred.err = some .invalidBlockType ∧ step erred = .next (after erred) ∧ erred.takesReset = false ∧ erred.err.isSome = true ∧
    ({ erred with cmds := [⟨3, 0⟩] } : State).takesReset = true ∧
    step { erred with cmds := [⟨3, 0⟩] } = .next (after { erred with cmds := [⟨3, 0⟩] }) :=
  ⟨rfl, step_after (by decide), by decide, rfl, by decide, step_after (by decide)⟩

/-- For MakeAvailable, every case: `n` just within and just above `AVAIL` and the capacity. -/
theorem witness_MakeAvailable :
    idle3.cur = .idle ∧ Config.cap < 32769 ∧ 32768 ≤ Config.cap ∧ 3 ≤ idle3.window.avail ∧ idle3.window.avail < 4 ∧
    erred.err = some .invalidBlockType ∧ erred.cur = .idle ∧ idle3.err = none ∧ idle3.blk ≠ .complete ∧
    ({ idle3 with blk := .complete } : State).blk = .complete := by decide

theorem witness_MakeAvailableResponds :
    (∃ (s : State) (n : Nat), s.cur = .makeAvail n ∧ s.stepDue = false ∧ n ≤ s.window.avail) ∧
    (∃ (s : State) (n : Nat), s.cur = .makeAvail n ∧ s.stepDue = false ∧ s.window.avail < n ∧ s.err = some .windowUnderflow) ∧
    (∃ (s : State) (n : Nat), s.cur = .makeAvail n ∧ s.stepDue = false ∧ s.window.avail < n ∧ s.err = none) :=
  ⟨⟨{ idle3 with cur := .makeAvail 3 }, 3, rfl, by decide, by decide⟩,
   ⟨{ idle3 with cur := .makeAvail 4, err := some .windowUnderflow }, 4, rfl, by decide, by decide, rfl⟩,
   ⟨{ idle3 with cur := .makeAvail 4, blk := .complete }, 4, rfl, by decide, by decide, rfl⟩⟩

theorem witness_CopyOut : idle3.Inv ∧ idle3.cur = .idle ∧ 3 ≤ idle3.window.avail ∧ idle3.window.avail < 4 := by decide

/-- For ReadLoop and its clauses: taken, and running with 1 byte delivered of 3, of 9 with a step due next, at the end of the
stream. -/
theorem witness_ReadLoop :
    idle3.Inv ∧ idle3.cur = .idle ∧
    (∃ s : State, s.Inv ∧ s.cur = .read 3 [0] ∧ s.stepDue = false) ∧
    (∃ s : State, s.Inv ∧ s.cur = .read 9 [0] ∧ s.stepDue = false ∧ s.isComplete = true) ∧
    (∃ s : State, s.Inv ∧ s.cur = .read 1 [0] ∧ s.stepDue = false) ∧
    (idle3.window.avail < min (9 - 0) Config.cap ∧ idle3.err = none ∧ idle3.isComplete = false) :=
  ⟨by decide, rfl, ⟨{ idle3 with cur := .read 3 [0] }, by decide, rfl, by decide⟩,
   ⟨{ idle3 with cur := .read 9 [0], blk := .complete }, by decide, rfl, by decide, by decide⟩,
   ⟨{ idle3 with cur := .read 1 [0] }, by decide, rfl, by decide⟩, by decide⟩

theorem witness_Reset : idle3.cur = .idle ∧ erred.cur = .idle := ⟨rfl, rfl⟩

theorem witness_CommandWhileRunning : symState.cur ≠ .idle := by decide

theorem witness_StepRunsElement :
    ∃ (s : State) (ctx : Ctx) (i : Instr) (c : Cursor), s.stepDue = true ∧ s.ctx = some ctx ∧ decode ctx s.cursor = .instr i c :=
  ⟨at_ (fixedBlock true) [0x00], .litlen fixedLitlenTree, .eob, ⟨7, [false]⟩, by decide, rfl, by decide⟩

theorem witness_StepTakesCommand : idle3.cur = .idle ∧ idle3.cmds = [] ∧ erred.cur = .idle ∧ erred.cmds = ⟨0, 4⟩ :: [] :=
  ⟨rfl, rfl, rfl, rfl⟩

/-- For InputMissing: an element and a stored byte, the source ended and not. -/
theorem witness_InputMissing :
    (at_ .header [0x01]).stepDue = true ∧ (at_ .header [0x01]).ctx = some .header ∧
    decode .header (at_ .header [0x01]).cursor = .short ∧ (at_ .header [0x01]).src.ended = true ∧
    (waiting .header [0x01]).stepDue = true ∧ decode .header (waiting .header [0x01]).cursor = .short ∧
    (waiting .header [0x01]).src.ended = false ∧ (at_ (.uncompressed 1 true) []).stepDue = true ∧
    (at_ (.uncompressed 1 true) []).cursor.bits.length < 8 ∧ (waiting (.uncompressed 1 true) []).cursor.bits.length < 8 := by decide

/-- A length is read (code `0000001`, then one 0 bit) and its distance is not all there. -/
def inLength : State := waiting (fixedBlock false) [0x40]

theorem witness_HeldStepUndone :
    Within inLength (after inLength) ∧ (after inLength).ctx = some (.dist fixedDistTree) ∧
    decode (.dist fixedDistTree) (after inLength).cursor = .short ∧ (after inLength).src.ended = false :=
  ⟨.first rfl (step_after (by decide)) (by decide), by decide, by decide, by decide⟩

theorem witness_StoredByte :
    (at_ (.uncompressed 1 true) [0x5A]).stepDue = true ∧ (at_ (.uncompressed 1 true) [0x5A]).bitpos % 8 = 0 ∧
    (at_ (.uncompressed 1 true) [0x5A]).src.bytes[0]? = some 0x5A := by decide

theorem witness_StoredDone : (at_ (.uncompressed 0 true) []).stepDue = true ∧ (at_ (.uncompressed 0 false) []).stepDue = true := by decide

/-- Three bytes pending at distance 1, one wanted. -/
def copying : State :=
  { at_ (.huffman fixedLitlenTree fixedDistTree 3 (some 1) false) [] with window := ⟨[(0, 9)], 1, 1, 0⟩ }

theorem witness_PendingCopy : copying.Inv ∧ copying.stepDue = true ∧ copying.inStep = .nothing ∧ 0 < 3 := by decide

theorem witness_StepKeepsInv :
    copying.Inv ∧ step copying = .next (after copying) ∧ inLength.Inv ∧ step inLength = .next (after inLength) ∧
    badHeader.Inv ∧ step badHeader = .next (after badHeader) :=
  ⟨by decide, step_after (by decide), by decide, step_after (by decide), by decide, step_after (by decide)⟩

/-- For NoStopFromInv: the two refusals do occur. -/
theorem witness_NoStopFromInv :
    ({ idle3 with cmds := [⟨0, 32769⟩] } : State).Inv ∧ step { idle3 with cmds := [⟨0, 32769⟩] } = .refused .requestAboveCapacity ∧
    ({ idle3 with cmds := [⟨1, 4⟩] } : State).Inv ∧ step { idle3 with cmds := [⟨1, 4⟩] } = .refused .copyOutAboveAvailable :=
  ⟨by decide, rfl, by decide, rfl⟩

/-- The hypotheses of BlockTransitions, from `s`. -/
def transits (s : State) : Bool :=
  s.inv && s.err.isNone && !s.takesReset && nextWith (step s) (fun t => t.err.isNone && t.blk != s.blk)

/-- For BlockTransitions: each change of `STATE` occurs. -/
theorem witness_BlockTransitions :
    transits (at_ .header [0x01, 0x00, 0x00, 0xFF, 0xFF]) = true ∧ transits (at_ .header [0x03]) = true ∧
    transits (at_ (.uncompressed 1 true) [0x5A]) = true ∧ transits (at_ (.uncompressed 0 false) []) = true ∧
    transits { at_ (fixedBlock false) [0x00] with inStep := .awaitDist 3, window := ⟨[(0, 9)], 1, 1, 0⟩ } = true ∧
    transits copying = true ∧ transits (at_ (fixedBlock true) [0x00]) = true := by decide

theorem witness_CompleteAbsorbing :
    ({ idle3 with blk := .complete, cmds := [⟨2, 2⟩] } : State).Inv ∧
    ({ idle3 with blk := .complete, cmds := [⟨2, 2⟩] } : State).takesReset = false ∧
    step { idle3 with blk := .complete, cmds := [⟨2, 2⟩] } = .next (after { idle3 with blk := .complete, cmds := [⟨2, 2⟩] }) :=
  ⟨by decide, by decide, step_after (by decide)⟩

/-- For StreamsGrow and NoByteTooMany: a decoder step, a command, a source that has ended. -/
theorem witness_StreamsGrow :
    copying.Inv ∧ step copying = .next (after copying) ∧ copying.takesReset = false ∧ copying.stepDue = true ∧
    copying.src.ended = true ∧ (after copying).err = none ∧ erred.Inv ∧ step erred = .next (after erred) ∧ erred.stepDue = false :=
  ⟨by decide, step_after (by decide), by decide, by decide, rfl, by decide, by decide, step_after (by decide), by decide⟩

/-- For InputConsumedOnce: a step that raises, a step with an error latched, a reset out of it. -/
theorem witness_InputConsumedOnce :
    badHeader.Inv ∧ step badHeader = .next (after badHeader) ∧ erred.Inv ∧ step erred = .next (after erred) ∧
    ({ erred with cmds := [⟨3, 0⟩], fetchedAtErr := 1 } : State).Inv ∧
    ({ erred with cmds := [⟨3, 0⟩], fetchedAtErr := 1 } : State).takesReset = true ∧
    step { erred with cmds := [⟨3, 0⟩], fetchedAtErr := 1 } = .next (after { erred with cmds := [⟨3, 0⟩], fetchedAtErr := 1 }) :=
  ⟨by decide, step_after (by decide), by decide, step_after (by decide), by decide, by decide, step_after (by decide)⟩

theorem witness_ArrivalTimeUnseen :
    inLength.src.incoming = .byte 0x2A :: [.stop] ∧ inLength.src.ended = false ∧ step inLength = .next (after inLength) ∧
    (after inLength).src.incoming = inLength.src.incoming :=
  ⟨rfl, rfl, step_after (by decide), by decide⟩

end Sys2Proof.Tests
end

section
/-! PROOF. O7: what the loop of `read_bits` gives (R62, R132). -/

namespace Sys2Proof

/-- Where `k` bits are present the loop reads them all, and bit `j` of the value is the `j`-th bit read. -/
theorem takeBits_low_bit_first (k : Nat) (c : Cursor) (h : k ≤ c.bits.length) :
    ∃ v, takeBits k c = some (v, ⟨c.pos + k, c.bits.drop k⟩) ∧ ∀ j, j < k → c.bits[j]? = some (v.testBit j) := by
  induction k generalizing c with
  | zero => exact ⟨0, rfl, by simp⟩
  | succ k ih =>
    obtain ⟨pos, bits⟩ := c
    cases bits with
    | nil => simp at h
    | cons b rest =>
      obtain ⟨v, htake, hbit⟩ := ih ⟨pos + 1, rest⟩ (by simpa using h)
      refine ⟨b.toNat + 2 * v, ?_, fun j hj => ?_⟩
      · simp only [takeBits, readBit, htake, List.drop_succ_cons, Nat.add_assoc, Nat.add_comm 1 k]
      · cases j with
        | zero => cases b <;> simp [Nat.testBit_zero]
        | succ j =>
          have hhalf : (b.toNat + 2 * v) / 2 = v := by have := b.toNat_le; omega
          rw [Nat.testBit_succ, hhalf, List.getElem?_cons_succ]
          exact hbit j (by omega)

theorem takeBits_short {k : Nat} {c : Cursor} (h : c.bits.length < k) : takeBits k c = none := by
  induction k generalizing c with
  | zero => simp at h
  | succ k ih =>
    obtain ⟨pos, bits⟩ := c
    cases bits with
    | nil => rfl
    | cons b rest => simp only [takeBits, readBit, ih (c := ⟨pos + 1, rest⟩) (by simpa using h)]

/-- Settles O7: the loop's value within `FIELD_MAX`, none beyond it, and the widths of the extra fields. -/
theorem fieldLowBitFirst : Obligations.FieldLowBitFirst := by
  refine ⟨fun k c hk => ⟨fun hlen => ?_, fun hlen => ?_⟩, fun k c hk => readBits_of_gt hk c, rfl,
    lengthExtraOf_le, distExtraOf_le, clExtraOf_le⟩
  · obtain ⟨v, htake, hbit⟩ := takeBits_low_bit_first k c hlen
    rw [readBits_of_le hk]
    exact ⟨v, htake, takeBits_lt htake, hbit⟩
  · rw [readBits_of_le hk]
    exact takeBits_short hlen

end Sys2Proof
end

section
/-! PROOF. O53: every step keeps the invariant, one lemma per kind of effect of `step_effect`. -/

namespace Sys2Proof.Machine

/-! ### The invariant's clauses, as propositions -/

/-- A dynamic header in progress is good (R33, R34, R183): its code-length tree, its counts, the lengths read so far, `PREV`. -/
structure DynHdr.Good (h : DynHdr) : Prop where
  tree   : h.clTree.fits Config.nCl Config.maxBitsCl = true
  hlit   : 257 ≤ h.hlit ∧ h.hlit ≤ 288
  hdist  : 1 ≤ h.hdist ∧ h.hdist ≤ 32
  length : h.lens.length ≤ h.total
  lens   : ∀ l ∈ h.lens, l ≤ Config.maxBits
  prev   : ∀ p, h.prev = some p → p ≤ Config.maxBits

theorem inStepInv_of_nothing {s : State} (h : s.inStep = .nothing) : s.inStepInv = true := by
  simp [State.inStepInv, h]

theorem inStepInv_dynHdr_iff {s : State} {h : DynHdr} (hs : s.inStep = .dynHdr h) :
    s.inStepInv = true ↔ s.blk = .header ∧ s.demanded = true ∧ s.ckpt ≤ s.bitpos ∧ h.Good := by
  cases hb : s.blk <;> simp only [State.inStepInv, hs, hb, reduceCtorEq, Bool.false_eq_true, false_and, true_and]
  simp only [Bool.and_eq_true, decide_eq_true_eq, List.all_eq_true, Option.all_eq_true]
  constructor
  · rintro ⟨⟨⟨⟨⟨⟨⟨⟨⟨hd, hk⟩, ht⟩, l1⟩, l2⟩, d1⟩, d2⟩, hl⟩, ha⟩, hp⟩
    exact ⟨hd, hk, ht, ⟨l1, l2⟩, ⟨d1, d2⟩, hl, ha, hp⟩
  · rintro ⟨hd, hk, ht, ⟨l1, l2⟩, ⟨d1, d2⟩, hl, ha, hp⟩
    exact ⟨⟨⟨⟨⟨⟨⟨⟨⟨hd, hk⟩, ht⟩, l1⟩, l2⟩, d1⟩, d2⟩, hl⟩, ha⟩, hp⟩

theorem inStepInv_awaitDist_iff {s : State} {len : Nat} {lt dt : Tree} {o : Option Nat} {f : Bool}
    (hs : s.inStep = .awaitDist len) (hb : s.blk = .huffman lt dt 0 o f) :
    s.inStepInv = true ↔ s.demanded = true ∧ s.ckpt ≤ s.bitpos ∧ 3 ≤ len ∧ len ≤ 258 := by
  simp only [State.inStepInv, hs, hb, Bool.and_eq_true, decide_eq_true_eq, and_assoc]

/-- A Huffman block with nothing pending (R23). -/
theorem blockInv_huffman_none_iff {w p len : Nat} {lt dt : Tree} {f : Bool} :
    blockInv w p (.huffman lt dt len none f) = true ↔
      lt.fits Config.nLitlen Config.maxBits = true ∧ dt.fits Config.nDist Config.maxBits = true ∧ len = 0 := by
  simp only [blockInv, Bool.and_eq_true, decide_eq_true_eq, and_assoc]
  exact and_congr_right fun _ => and_congr_right fun _ => by omega

/-- A Huffman block with a copy pending (R23). -/
theorem blockInv_huffman_some_iff {w p len d : Nat} {lt dt : Tree} {f : Bool} :
    blockInv w p (.huffman lt dt len (some d) f) = true ↔
      lt.fits Config.nLitlen Config.maxBits = true ∧ dt.fits Config.nDist Config.maxBits = true ∧
        len ≤ 258 ∧ 0 < len ∧ 1 ≤ d ∧ d ≤ w := by
  simp only [blockInv, Bool.and_eq_true, decide_eq_true_eq, and_assoc]

theorem blockInv_huffman_fits {w p len : Nat} {o : Option Nat} {lt dt : Tree} {f : Bool}
    (h : blockInv w p (.huffman lt dt len o f) = true) :
    lt.fits Config.nLitlen Config.maxBits = true ∧ dt.fits Config.nDist Config.maxBits = true := by
  simp only [blockInv, Bool.and_eq_true] at h
  exact h.1.1

/-- A block that ends leaves no payload (R202, R206). -/
theorem blockInv_afterBlock (w p : Nat) (f : Bool) : blockInv w p (afterBlock f) = true := by
  cases f <;> rfl

/-! ### From a state where a decoder step is demanded -/

/-- What a demanded step may use of the invariant: no error, room in the window, the block's clause. -/
theorem State.Inv.of_demanded {s : State} (h : s.Inv) (hd : s.demanded = true) :
    s.err = none ∧ s.window.avail < Config.cap ∧ blockInv s.window.written s.bitpos s.blk = true := by
  obtain ⟨herr, hav⟩ := State.demanded_iff.1 hd
  exact ⟨herr, hav.trans_le (State.target_le h), (State.inv_iff.1 h).2.1 herr⟩

/-- A step of the decoder that latches no error leaves the command running: three clauses remain. -/
theorem State.Inv.of_running {s t : State} (h : s.Inv) (hd : s.demanded = true) (hcur : t.cur = s.cur)
    (herr : t.err = s.err) (hw : t.window.inv Config.cap = true)
    (hb : blockInv t.window.written t.bitpos t.blk = true) (hi : t.inStepInv = true) : t.Inv := by
  refine State.inv_iff.2 ⟨hw, fun _ => hb, hi, ?_⟩
  have hcmd := (State.inv_iff.1 h).2.2.2
  rw [hcur, herr]
  cases hc : s.cur with
  | idle => exact absurd hc (State.cur_of_demanded hd)
  | makeAvail n => simpa only [hc] using hcmd
  | read m got => simpa only [hc] using hcmd

/-- Raising keeps the invariant, wherever reading stood (R335). -/
theorem raise_keeps_inv {s : State} (h : s.Inv) (k : ErrorKind) (p c : Nat) :
    ({ State.raise k { s with bitpos := p } with ckpt := c } : State).Inv := by
  obtain ⟨hw, -, -, hcmd⟩ := State.inv_iff.1 h
  refine State.inv_iff.2 ⟨by simpa using hw, by simp, inStepInv_of_nothing (by simp), ?_⟩
  cases hc : s.cur with
  | idle => simp [State.raise]
  | makeAvail n => simp [State.raise, State.respond]
  | read m got => simpa [State.raise, hc] using hcmd

/-- A held step is back where the atomic step began (R131). -/
theorem hold_keeps_inv {s : State} (h : s.Inv) (hd : s.demanded = true) : s.hold.Inv := by
  obtain ⟨-, -, hb⟩ := h.of_demanded hd
  obtain ⟨hw, -, hi, -⟩ := State.inv_iff.1 h
  refine h.of_running hd (by simp) (by simp) (by simpa using hw) ?_ (inStepInv_of_nothing (by simp))
  simp only [State.hold_window, State.hold_bitpos, State.hold_blk]
  cases hs : s.inStep with
  | nothing => simpa [State.settled, hs] using hb
  | dynHdr d =>
    rw [((inStepInv_dynHdr_iff hs).1 hi).1]
    rfl
  | awaitDist len =>
    unfold State.inStepInv at hi
    split at hi <;> simp_all [blockInv]

/-! ### One stream element -/

/-- The slots of a dynamic head are filled with 3-bit values, and its counts are those of R94. -/
theorem blkDynamic_good {f : Bool} {hlit hdist : Nat} {cls : List Nat} {p : SingleCodePolicy} {t : Tree}
    (hw : (Instr.blkDynamic f hlit hdist cls).WellFormed) (ht : buildTable p (fillClLen cls) = .ok t) :
    DynHdr.Good ⟨f, hlit + 257, hdist + 1, t, [], none⟩ := by
  simp only [Instr.WellFormed, Instr.wf, Bool.and_eq_true, decide_eq_true_eq, List.all_eq_true] at hw
  obtain ⟨⟨⟨⟨h1, h2⟩, -⟩, -⟩, hcls⟩ := hw
  have hslots : ∀ l ∈ fillClLen cls, l ≤ Config.maxBitsCl := fillClLen_le fun v hv => Nat.le_of_lt_succ (hcls v hv)
  exact ⟨fits_of_buildTable ht (fillClLen_length cls).le hslots, ⟨by simp, by simp; omega⟩, ⟨by simp, by simp; omega⟩,
    by simp, by simp, by simp⟩

/-- Appending a run keeps a header good: its value is 0, a length already read, or a code-length symbol below 16. -/
theorem DynHdr.Good.append {h : DynHdr} (hg : h.Good) {i : Instr} (hi : i.WellFormed) {r v : Nat} {prev : Option Nat}
    (hr : h.lens.length + r ≤ h.total) (hv : v = 0 ∨ h.prev = some v ∨ i = .clLen v)
    (hp : prev = none ∨ prev = some v ∨ prev = h.prev) :
    DynHdr.Good { h with lens := h.lens ++ List.replicate r v, prev := prev } := by
  have hv15 : v ≤ Config.maxBits := by
    rcases hv with rfl | hv | rfl
    · exact Nat.zero_le _
    · exact hg.prev v hv
    · exact Nat.le_of_lt_succ (of_decide_eq_true hi)
  refine ⟨hg.tree, hg.hlit, hg.hdist, by rw [List.length_append, List.length_replicate]; exact hr,
    fun l hl => ?_, fun p hpp => ?_⟩
  · rcases List.mem_append.1 hl with hl | hl
    · exact hg.lens l hl
    · rw [List.eq_of_mem_replicate hl]; exact hv15
  · rcases hp with rfl | rfl | rfl
    · cases hpp
    · cases hpp; exact hv15
    · exact hg.prev p hpp

/-- The meaning of a decoded element keeps the invariant. -/
theorem element_keeps_inv {s t : State} {ctx : Ctx} {i : Instr} {c : Cursor} (h : s.Inv) (hdem : s.demanded = true)
    (hc : s.ctx = some ctx) (hd : decode ctx s.cursor = .instr i c) (ht : ElementEffect i (s.advance c.pos) t) :
    t.Inv := by
  obtain ⟨hw, -, hi, -⟩ := State.inv_iff.1 h
  obtain ⟨-, hroom, hblk⟩ := h.of_demanded hdem
  obtain ⟨hwf, hpos⟩ := decode_wf_pos hd
  have hckpt : (s.advance c.pos).ckpt ≤ (s.advance c.pos).bitpos := by
    simpa [State.advance_ckpt] using (settled_le h).trans hpos
  cases ht with
  | raised k _ =>
    rw [State.raise_advance]
    exact raise_keeps_inv h k _ _
  | stored r f hs hr hst =>
    obtain ⟨-, hb, hn⟩ := hs
    simp only [State.advance_blk, State.advance_inStep] at hb hn
    obtain ⟨len, nlen, rfl⟩ := hst
    obtain rfl : ctx = .header := by simpa [State.ctx, hn, hb] using hc.symm
    have halign : c.pos % 8 = 0 := decode_stored_aligned hd
    exact h.of_running hdem (by simp) (by simp) (by simpa using hw) (by simp [blockInv, hr, halign])
      (inStepInv_of_nothing (by simpa using hn))
  | fixed f hs =>
    obtain ⟨-, -, hn⟩ := hs
    exact h.of_running hdem (by simp) (by simp) (by simpa using hw)
      (blockInv_huffman_none_iff.2 ⟨fixedLitlenTree_fits, fixedDistTree_fits, rfl⟩) (inStepInv_of_nothing hn)
  | dynamic f hlit hdist cls ct hs hdyn hct =>
    obtain ⟨hdem', hb, -⟩ := hs
    refine h.of_running hdem (by simp) (by simp) (by simpa using hw) (by simp only [hb]; rfl) ?_
    exact (inStepInv_dynHdr_iff rfl).2 ⟨hb, hdem', hckpt, blkDynamic_good (hdyn ▸ hwf) hct⟩
  | lengths d r v prev hs hr hv hp =>
    obtain ⟨hdem', hb, hn, -⟩ := hs
    rw [State.advance_inStep] at hn
    obtain ⟨-, -, -, hg⟩ := (inStepInv_dynHdr_iff hn).1 hi
    refine h.of_running hdem (by simp) (by simp) (by simpa using hw) (by simp only [hb]; rfl) ?_
    exact (inStepInv_dynHdr_iff rfl).2 ⟨hb, hdem', hckpt, hg.append hwf hr hv hp⟩
  | literal b lt dt o f hs =>
    obtain ⟨-, hb, hn⟩ := hs
    rw [State.advance_blk] at hb
    rw [hb] at hblk
    have hwr := (Window.inv_iff.1 hw).2.1
    refine h.of_running hdem (by simp) (by simp) (by simpa using Window.put_inv b hw hroom) ?_ (inStepInv_of_nothing hn)
    simp only [State.advance_blk, State.advance_window, State.advance_bitpos, Window.put_written, hb]
    exact blockInv_mono (w := s.window.written) hblk (by omega)
  | eob lt dt o f hs =>
    obtain ⟨-, -, hn⟩ := hs
    exact h.of_running hdem (by simp) (by simp) (by simpa using hw) (blockInv_afterBlock _ _ _) (inStepInv_of_nothing hn)
  | length idx e lt dt o f hs hl =>
    obtain ⟨hdem', hb, -⟩ := hs
    refine h.of_running hdem (by simp) (by simp) (by simpa using hw) ?_ ?_
    · rw [← State.advance_blk c.pos s, hb] at hblk
      simp only [hb, State.advance_window]
      exact hblk
    · exact (inStepInv_awaitDist_iff (s := { s.advance c.pos with inStep := .awaitDist (lenOf idx e) }) rfl hb).2
        ⟨hdem', hckpt, hl hwf⟩
  | distance ds e len lt dt o f hs h1 h2 =>
    obtain ⟨-, hb, hn⟩ := hs
    simp only [State.advance_blk, State.advance_inStep] at hb hn
    obtain ⟨flt, fdt⟩ := blockInv_huffman_fits (hb ▸ hblk)
    obtain ⟨-, -, hl3, hl258⟩ := (inStepInv_awaitDist_iff hn hb).1 hi
    exact h.of_running hdem (by simp) (by simp) (by simpa using hw)
      (blockInv_huffman_some_iff.2 ⟨flt, fdt, hl258, by omega, h1, h2⟩) (inStepInv_of_nothing rfl)

/-! ### One decoder step -/

theorem decoder_keeps_inv {s t : State} (h : s.Inv) (hd : s.demanded = true) (ht : DecoderEffect s t) : t.Inv := by
  obtain ⟨hw, -, hi, -⟩ := State.inv_iff.1 h
  obtain ⟨-, hroom, hblk⟩ := h.of_demanded hd
  have hwr := (Window.inv_iff.1 hw).2.1
  cases ht with
  | held _ => exact hold_keeps_inv h hd
  | raised k p c _ => exact raise_keeps_inv h k p c
  | element ctx i c t hc hdec he => exact element_keeps_inv h hd hc hdec he
  | headerDone d lt dt hs _ e1 e2 =>
    obtain ⟨-, -, -, hg⟩ := (inStepInv_dynHdr_iff hs).1 hi
    have flt : lt.fits Config.nLitlen Config.maxBits = true :=
      fits_of_buildTable e1 ((List.length_take_le _ _).trans hg.hlit.2) fun l hl => hg.lens l (List.mem_of_mem_take hl)
    have fdt : dt.fits Config.nDist Config.maxBits = true :=
      fits_of_buildTable e2 ((List.length_take_le _ _).trans hg.hdist.2) fun l hl =>
        hg.lens l (List.mem_of_mem_drop (List.mem_of_mem_take hl))
    exact h.of_running hd rfl rfl hw (blockInv_huffman_none_iff.2 ⟨flt, fdt, rfl⟩) (inStepInv_of_nothing rfl)
  | storedDone f hs _ =>
    exact h.of_running hd rfl rfl hw (blockInv_afterBlock _ _ _) (inStepInv_of_nothing hs)
  | storedByte r f b c hs hb hr =>
    have hpos : c.pos = s.bitpos + 8 := readByte_pos hr
    rw [hb] at hblk
    simp only [blockInv, Bool.and_eq_true, decide_eq_true_eq] at hblk
    refine h.of_running hd rfl rfl (Window.put_inv b hw hroom) ?_ (inStepInv_of_nothing hs)
    simp only [blockInv, Bool.and_eq_true, decide_eq_true_eq]
    omega
  | copied lt dt p d f w hs hb hd0 hrun =>
    rw [hb] at hblk
    obtain ⟨flt, fdt, hlen, -, h1, h2⟩ := blockInv_huffman_some_iff.1 hblk
    have htarget : s.window.avail + min (p + 1) s.need ≤ Config.cap := by
      have := State.target_le h
      unfold State.need
      omega
    obtain ⟨w', e, hw', -, hwritten, -⟩ := Window.selfCopyRun_exists (min (p + 1) s.need) hw h1 h2 htarget
    obtain rfl : w = w' := Option.some.inj (hrun.symm.trans e)
    refine h.of_running hd rfl rfl hw' ?_ (inStepInv_of_nothing hs)
    split
    · next h0 => exact blockInv_huffman_none_iff.2 ⟨flt, fdt, h0⟩
    · next h0 => exact blockInv_huffman_some_iff.2 ⟨flt, fdt, by omega, by omega, h1, by simp only; omega⟩

/-! ### Commands and the step -/

/-- Serving a command moves `AVAIL` down and leaves the block as it is; `MAKE_AVAILABLE` wants at most `CAP` (R301). -/
theorem serve_keeps_inv {s t : State} (h : s.Inv) (hn : s.inStep = .nothing) (he : ServeEffect s t) : t.Inv := by
  obtain ⟨bs, rs, c, rfl, -, -, hc⟩ := he.ex
  obtain ⟨hw, hb, -, hcmd⟩ := State.inv_iff.1 h
  refine State.inv_iff.2 ⟨Window.inv_take hw, hb, inStepInv_of_nothing hn, ?_⟩
  rcases hc with rfl | ⟨n, rfl, herr, -, -, hcur | hcap⟩ | ⟨m, got, rfl, hgot⟩
  · exact hn
  · exact ⟨by rw [hcur] at hcmd; exact hcmd.1, herr⟩
  · exact ⟨hcap, herr⟩
  · exact hgot

theorem resetStep_inv (s : State) : s.resetStep.Inv :=
  State.inv_iff.2 ⟨Window.empty_inv (by decide), fun _ => rfl, inStepInv_of_nothing rfl, rfl⟩

/-- A machine between commands is between two atomic steps. -/
theorem inStep_of_idle {s : State} (h : s.Inv) (hc : s.cur = .idle) : s.inStep = .nothing := by
  have hcmd := (State.inv_iff.1 h).2.2.2
  rwa [hc] at hcmd

/-- The commands still to come are no part of the invariant. -/
theorem inv_cmds {s : State} (h : s.Inv) (rest : List CmdWord) : ({ s with cmds := rest } : State).Inv := h

/-- Settles O53: each effect a step can have keeps the invariant. -/
theorem stepKeepsInv : Obligations.StepKeepsInv := by
  intro s t h hstep
  cases step_effect hstep with
  | idle _ _ => exact h
  | reset w rest _ _ _ => exact resetStep_inv _
  | command w rest t hc _ _ he => exact serve_keeps_inv (inv_cmds h rest) (inStep_of_idle h hc) he
  | serve t _ hd he => exact serve_keeps_inv h (inStep_of_not_due h hd) he
  | decoder t hd he => exact decoder_keeps_inv h (due_facts hd).1 he

end Sys2Proof.Machine
end

section
/-! PROOF. O60: what has been read is not changed by bits that come later, and nothing else looks at the source; so a step that
does not hold commutes with the source's next event. -/

namespace Sys2Proof

/-! ### Reading with more bits present -/

/-- The same place with more bits behind those present. -/
def Cursor.followedBy (more : List Bool) (c : Cursor) : Cursor := ⟨c.pos, c.bits ++ more⟩

/-- The same answer, reading standing before more bits. -/
def Decoded.followedBy (more : List Bool) : Decoded → Decoded
  | .instr i c => .instr i (c.followedBy more)
  | .short => .short
  | .noRow sym c => .noRow sym (c.followedBy more)

@[simp] theorem Cursor.followedBy_pos (more : List Bool) (c : Cursor) : (c.followedBy more).pos = c.pos := rfl

/-- A reader that has its value does not look at the bits behind (R136). -/
theorem Exact.followedBy {α : Type} {f : Cursor → Option (α × Cursor)} (hf : Exact f) {c c' : Cursor} {a : α}
    (h : f c = some (a, c')) (more : List Bool) : f (c.followedBy more) = some (a, c'.followedBy more) := by
  obtain ⟨used, hbits, hpos, hext, -⟩ := hf c c' a h
  rw [Cursor.followedBy, hbits, List.append_assoc, hext, ← hpos]
  rfl

theorem decodeSymbol_followedBy {t : Tree} {w : Nat → Nat} {row : Nat → Nat → Option Instr} {c : Cursor}
    (h : decodeSymbol t w row c ≠ .short) (more : List Bool) :
    decodeSymbol t w row (c.followedBy more) = (decodeSymbol t w row c).followedBy more := by
  unfold decodeSymbol at h ⊢
  cases hs : decodeSym t c with
  | none => simp [hs] at h
  | some r =>
    obtain ⟨sym, c1⟩ := r
    cases hb : readBits (w sym) c1 with
    | none => simp [hs, hb] at h
    | some q =>
      obtain ⟨e, c2⟩ := q
      rw [(exact_decodeSym t).followedBy hs]
      simp only [(exact_readBits (w sym)).followedBy hb, hb]
      cases row sym e <;> rfl

/-- Decoding that finds its element finds the same one where more bits are present (R114, R136). -/
theorem decode_followedBy {ctx : Ctx} {c : Cursor} (h : decode ctx c ≠ .short) (more : List Bool) :
    decode ctx (c.followedBy more) = (decode ctx c).followedBy more := by
  cases ctx with
  | header =>
    rw [header_eq] at h ⊢
    rw [header_eq]
    cases hr : headerReader c with
    | none => simp [hr, toDecoded] at h
    | some r => rw [exact_header.followedBy (c' := r.2) (a := r.1) hr]; rfl
  | clsym t prev => exact decodeSymbol_followedBy h more
  | litlen t => exact decodeSymbol_followedBy h more
  | dist t => exact decodeSymbol_followedBy h more

namespace Machine

/-! ### The source's next event, taken early -/

/-- `s` with the source's next event taken (R40). -/
def State.delivered (s : State) : State := { s with src := s.src.deliver }

/-- The same answer, with the source's next event taken. -/
def deliverNext : Result → Result
  | .next t => .next t.delivered
  | .fault r => .fault r
  | .refused r => .refused r

@[simp] theorem State.delivered_blk (s : State) : s.delivered.blk = s.blk := rfl
@[simp] theorem State.delivered_err (s : State) : s.delivered.err = s.err := rfl
@[simp] theorem State.delivered_window (s : State) : s.delivered.window = s.window := rfl
@[simp] theorem State.delivered_inStep (s : State) : s.delivered.inStep = s.inStep := rfl
@[simp] theorem State.delivered_cur (s : State) : s.delivered.cur = s.cur := rfl
@[simp] theorem State.delivered_cmds (s : State) : s.delivered.cmds = s.cmds := rfl
@[simp] theorem State.delivered_params (s : State) : s.delivered.params = s.params := rfl
@[simp] theorem State.delivered_errLatched (s : State) : s.delivered.errLatched = s.errLatched := rfl
@[simp] theorem State.delivered_isComplete (s : State) : s.delivered.isComplete = s.isComplete := rfl
@[simp] theorem State.delivered_demanded (s : State) : s.delivered.demanded = s.demanded := rfl
@[simp] theorem State.delivered_need (s : State) : s.delivered.need = s.need := rfl

theorem Source.deliver_incoming {x : Source} {ev : SrcEvent} {rest : List SrcEvent} (h : x.incoming = ev :: rest)
    (he : x.ended = false) : x.deliver.incoming = rest := by
  unfold Source.deliver
  cases ev <;> simp [h, he]

/-- Where the stream began makes no difference to what the source does. -/
theorem Source.deliver_setBase (x : Source) (b : Nat) :
    ({ x with base := b } : Source).deliver = { x.deliver with base := b } := by
  unfold Source.deliver
  simp only
  split <;> rfl

/-- The event adds bits behind those that are present, or none. -/
theorem State.delivered_cursor (s : State) : ∃ more, s.delivered.cursor = s.cursor.followedBy more := by
  obtain ⟨new, hnew, -⟩ := Source.deliver_bytes s.src
  simp only [State.cursor, State.delivered, Cursor.followedBy, hnew, Source.deliver_base, List.drop_append,
    List.flatMap_append]
  exact ⟨_, rfl⟩

theorem State.advance_delivered (p : Nat) (s : State) : s.delivered.advance p = (s.advance p).delivered := by
  rw [State.advance_eq, State.advance_eq]; rfl

theorem State.raise_delivered (k : ErrorKind) (s : State) : s.delivered.raise k = (s.raise k).delivered := by
  unfold State.raise
  rw [State.delivered_cur]
  split <;> rfl

theorem State.resetStep_delivered (s : State) : s.delivered.resetStep = s.resetStep.delivered := by
  have hsrc : s.delivered.resetStep.src = s.resetStep.delivered.src := by
    simp only [State.delivered, State.resetStep_src, Source.deliver_setBase, Source.deliver_base]
    rfl
  exact congrArg (fun x => ({ s.resetStep with src := x } : State)) hsrc

/-! ### Where an element may stand -/

theorem State.onHeader_delivered {s : State} {r r' : Result} (h : r' = deliverNext r) :
    s.delivered.onHeader r' = deliverNext (s.onHeader r) := by
  unfold State.onHeader
  simp only [State.delivered_demanded, State.delivered_blk, State.delivered_inStep]
  split
  · exact h
  · rfl

theorem State.onLengths_delivered {s : State} {k k' : DynHdr → Result} (h : ∀ d, k' d = deliverNext (k d)) :
    s.delivered.onLengths k' = deliverNext (s.onLengths k) := by
  unfold State.onLengths
  simp only [State.delivered_demanded, State.delivered_blk, State.delivered_inStep]
  split
  · split
    · exact h _
    · rfl
  · rfl

theorem State.onSymbol_delivered {s : State} {k k' : Bool → Result} (h : ∀ f, k' f = deliverNext (k f)) :
    s.delivered.onSymbol k' = deliverNext (s.onSymbol k) := by
  unfold State.onSymbol
  simp only [State.delivered_demanded, State.delivered_blk, State.delivered_inStep]
  split
  · exact h _
  · rfl

theorem State.onDistance_delivered {s : State} {k k' : Nat → Tree → Tree → Bool → Result}
    (h : ∀ len lt dt f, k' len lt dt f = deliverNext (k len lt dt f)) :
    s.delivered.onDistance k' = deliverNext (s.onDistance k) := by
  unfold State.onDistance
  simp only [State.delivered_demanded, State.delivered_blk, State.delivered_inStep]
  split
  · exact h _ _ _ _
  · rfl

theorem State.onIdle_delivered {s : State} {r r' : Result} (h : r' = deliverNext r) :
    s.delivered.onIdle r' = deliverNext (s.onIdle r) := by
  unfold State.onIdle
  simp only [State.delivered_cur]
  split
  · exact h
  · rfl

/-! ### The meanings -/

theorem raised_delivered (k : ErrorKind) (s : State) :
    (.next (s.delivered.raise k) : Result) = deliverNext (.next (s.raise k)) :=
  congrArg _ (State.raise_delivered k s)

theorem appendRun_delivered (h : DynHdr) (r v : Nat) (prev : Option Nat) (s : State) :
    appendRun h r v prev s.delivered = (appendRun h r v prev s).delivered := by
  unfold appendRun
  split
  · exact State.raise_delivered _ s
  · rfl

theorem lengthCode_delivered (idx e : Nat) (s : State) :
    lengthCode idx e s.delivered = deliverNext (lengthCode idx e s) :=
  State.onSymbol_delivered fun _ => rfl

theorem distanceCode_delivered (ds e : Nat) (s : State) :
    distanceCode ds e s.delivered = deliverNext (distanceCode ds e s) := by
  refine State.onDistance_delivered fun len lt dt f => ?_
  rw [State.delivered_window]
  split
  · rfl
  · exact raised_delivered _ s

theorem serveMakeAvail_delivered (n : Nat) (s : State) :
    serveMakeAvail n s.delivered = (serveMakeAvail n s).delivered := by
  unfold serveMakeAvail
  rw [State.delivered_window, State.delivered_err, State.delivered_isComplete]
  split
  · rfl
  · split
    · rfl
    · split <;> rfl

theorem serveRead_delivered (m : Nat) (got : List Byte) (s : State) :
    serveRead m got s.delivered = deliverNext (serveRead m got s) := by
  unfold serveRead
  rw [State.delivered_window, State.delivered_err, State.delivered_errLatched, State.delivered_isComplete]
  split
  · rfl
  · simp only
    split
    · split
      · rfl
      · split <;> rfl
    · rfl

/-- No meaning reads the source; the reset notes where the next stream begins, which an event does not move. -/
theorem exec_delivered (i : Instr) (s : State) : exec i s.delivered = deliverNext (exec i s) := by
  cases i
  case blkStored f len nlen =>
    refine State.onHeader_delivered ?_
    split
    · rfl
    · exact raised_delivered _ s
  case blkFixed f => exact State.onHeader_delivered rfl
  case blkDynamic f hlit hdist cls =>
    refine State.onHeader_delivered ?_
    rw [State.delivered_params]
    split
    · exact raised_delivered _ s
    · rfl
  case blkReserved f => exact State.onHeader_delivered (raised_delivered _ s)
  case clLen v => exact State.onLengths_delivered fun _ => rfl
  case clRep16 e =>
    refine State.onLengths_delivered fun d => ?_
    split
    · exact raised_delivered _ s
    · exact congrArg _ (appendRun_delivered _ _ _ _ s)
  case clZero17 e => exact State.onLengths_delivered fun d => congrArg _ (appendRun_delivered _ _ _ _ s)
  case clZero18 e => exact State.onLengths_delivered fun d => congrArg _ (appendRun_delivered _ _ _ _ s)
  case literal b => exact State.onSymbol_delivered fun _ => rfl
  case eob => exact State.onSymbol_delivered fun _ => rfl
  case llInvalid286 => exact State.onSymbol_delivered fun _ => raised_delivered _ s
  case llInvalid287 => exact State.onSymbol_delivered fun _ => raised_delivered _ s
  case distInvalid30 => exact State.onDistance_delivered fun _ _ _ _ => raised_delivered _ s
  case distInvalid31 => exact State.onDistance_delivered fun _ _ _ _ => raised_delivered _ s
  case makeAvailable n =>
    refine State.onIdle_delivered ?_
    split
    · rfl
    · exact congrArg _ (serveMakeAvail_delivered n s)
  case copyOut k =>
    refine State.onIdle_delivered ?_
    rw [State.delivered_window]
    split
    · rfl
    · split <;> rfl
  case read m => exact State.onIdle_delivered (serveRead_delivered m [] s)
  case reset => exact State.onIdle_delivered (congrArg _ (State.resetStep_delivered s))
  all_goals first
    | exact lengthCode_delivered _ _ s
    | exact distanceCode_delivered _ _ s

/-! ### The steps -/

theorem finishHeader_delivered (h : DynHdr) (s : State) :
    finishHeader h s.delivered = (finishHeader h s).delivered := by
  unfold finishHeader
  rw [State.delivered_params]
  split
  · rfl
  · exact State.raise_delivered _ s
  · exact State.raise_delivered _ s

theorem pendingCopy_delivered (lt dt : Tree) (len : Nat) (dist : Option Nat) (f : Bool) (s : State) :
    pendingCopy lt dt len dist f s.delivered = deliverNext (pendingCopy lt dt len dist f s) := by
  unfold pendingCopy
  simp only [State.delivered_need, State.delivered_window]
  split
  · rfl
  · split
    · rfl
    · split <;> rfl

/-- An element that is all there is read, and means, the same. -/
theorem element_delivered {ctx : Ctx} {s : State} (h : element ctx s ≠ .next s.starve) :
    element ctx s.delivered = deliverNext (element ctx s) := by
  have hshort : decode ctx s.cursor ≠ .short := fun hd => h (by simp [element, hd])
  obtain ⟨more, hmore⟩ := s.delivered_cursor
  unfold element
  rw [hmore, decode_followedBy hshort]
  cases hd : decode ctx s.cursor with
  | short => exact absurd hd hshort
  | instr i c =>
    simp only [Decoded.followedBy, Cursor.followedBy_pos, State.advance_delivered]
    exact exec_delivered i _
  | noRow sym c =>
    simp only [Decoded.followedBy, Cursor.followedBy_pos, State.advance_delivered]
    split
    · exact raised_delivered _ _
    · exact raised_delivered _ _
    · rfl

theorem storedByte_delivered {r : Nat} {f : Bool} {s : State} (h : storedByte r f s ≠ s.starve) :
    storedByte r f s.delivered = (storedByte r f s).delivered := by
  obtain ⟨more, hmore⟩ := s.delivered_cursor
  cases hb : readByte s.cursor with
  | none => simp [storedByte, hb] at h
  | some q =>
    obtain ⟨b, c⟩ := q
    simp only [storedByte, hmore, exact_readByte.followedBy hb more, hb, Cursor.followedBy_pos, State.advance_delivered]
    rfl

/-- A decoder step that does not meet the end of the input does the same where the source's next event has come. -/
theorem decoderStep_delivered {s : State} (h : decoderStep s ≠ .next s.starve) :
    decoderStep s.delivered = deliverNext (decoderStep s) := by
  unfold decoderStep at h ⊢
  simp only [State.delivered_inStep, State.delivered_blk]
  split
  · split
    · next hs hl => exact element_delivered (by simpa [hs, hl] using h)
    · exact congrArg _ (finishHeader_delivered _ s)
  · next hs =>
    split
    · next hb => exact element_delivered (by simpa [hs, hb] using h)
    · rfl
  · next hs =>
    split
    · next hb => exact element_delivered (by simpa [hs, hb] using h)
    · rfl
    · next hb => exact congrArg _ (storedByte_delivered (by simpa [hs, hb] using h))
    · next hb => exact element_delivered (by simpa [hs, hb] using h)
    · exact pendingCopy_delivered _ _ _ _ _ s
    · rfl

theorem serve_delivered (s : State) : serve s.delivered = deliverNext (serve s) := by
  unfold serve
  rw [State.delivered_cur]
  split
  · rfl
  · exact congrArg _ (serveMakeAvail_delivered _ s)
  · exact serveRead_delivered _ _ s

theorem takeCommand_delivered (s : State) : takeCommand s.delivered = deliverNext (takeCommand s) := by
  unfold takeCommand
  rw [State.delivered_cmds]
  split
  · rfl
  · next w rest _ => exact exec_delivered (decodeCmd w) { s with cmds := rest }

/-- A step that does not meet the end of the input commutes with the source's next event. -/
theorem step_delivered {s : State} (h : step s ≠ .next s.starve) : step s.delivered = deliverNext (step s) := by
  by_cases hc : s.cur = .idle
  · rw [step_of_idle hc, step_of_idle (s := s.delivered) hc]
    exact takeCommand_delivered s
  · cases hd : s.stepDue with
    | true =>
      rw [step_of_due hd] at h ⊢
      rw [step_of_due (s := s.delivered) hd]
      exact decoderStep_delivered h
    | false =>
      rw [step_of_not_due hc hd, step_of_not_due (s := s.delivered) hc hd]
      exact serve_delivered s

/-- Settles O60: a step that meets the end of the input holds, and takes an event; every other one commutes with it. -/
theorem arrivalTimeUnseen : Obligations.ArrivalTimeUnseen := by
  intro s t ev rest hin hend hstep hsame
  have hstarve : step s ≠ .next s.starve := by
    intro hs
    obtain rfl : t = s.starve := by simpa [hstep] using hs
    have hhold : s.starve.src.incoming = rest := by
      simpa [State.starve, hend] using Source.deliver_incoming hin hend
    rw [hhold, hin] at hsame
    exact List.cons_ne_self ev rest hsame.symm
  have hcomm := step_delivered hstarve
  rw [hstep] at hcomm
  exact hcomm

end Machine
end Sys2Proof
end

section
/-! PROOF. O6: bit `j` of the bits of a list of bytes is bit `j mod 8` of its byte `j div 8`. -/

namespace Sys2Proof

@[simp] theorem byteBits_length (b : Byte) : (byteBits b).length = 8 := rfl

theorem byteBits_getElem? (b : Byte) {j : Nat} (h : j < 8) : (byteBits b)[j]? = some (b.getLsbD j) := by
  interval_cases j <;> rfl

theorem flatMap_byteBits_getElem? (bytes : List Byte) (j : Nat) :
    (bytes.flatMap byteBits)[j]? = (bytes[j / 8]?).map (fun b => b.getLsbD (j % 8)) := by
  induction bytes generalizing j with
  | nil => rfl
  | cons b bytes ih =>
    rw [List.flatMap_cons]
    by_cases hj : j < 8
    · rw [List.getElem?_append_left hj, byteBits_getElem? b hj, Nat.div_eq_of_lt hj, Nat.mod_eq_of_lt hj]
      rfl
    · obtain ⟨k, rfl⟩ := Nat.exists_eq_add_of_le' (Nat.le_of_not_lt hj)
      rw [List.getElem?_append_right (by simp), byteBits_length, Nat.add_sub_cancel, ih,
        Nat.add_div_right k (by decide), Nat.add_mod_right, List.getElem?_cons_succ]

/-- Settles O6: the cursor drops whole bytes up to `bitpos div 8`, then `bitpos mod 8` bits. -/
theorem cursorReadsSource : Obligations.CursorReadsSource := by
  intro s i
  have hbyte : s.src.base + s.bitpos / 8 + (s.bitpos % 8 + i) / 8 = s.src.base + (s.bitpos + i) / 8 := by omega
  have hbit : (s.bitpos % 8 + i) % 8 = (s.bitpos + i) % 8 := by omega
  refine ⟨rfl, ?_⟩
  simp only [Machine.State.cursor, List.getElem?_drop, flatMap_byteBits_getElem?, hbyte, hbit]

end Sys2Proof
end

section
/-! PROOF. O16: the two outcomes of the distance test of a self-copy (R163). -/

namespace Sys2Proof.Machine

theorem Window.selfCopy_of_le {cap d len : Nat} {w : Window} (h1 : 1 ≤ d) (h2 : d ≤ w.written) :
    w.selfCopy cap d len = .ok (w.selfCopyRun cap d len) := by
  simp [Window.selfCopy, Window.distanceOk, h2, Nat.ne_of_gt h1]

theorem Window.selfCopy_of_gt {cap d len : Nat} {w : Window} (h : w.written < d) :
    w.selfCopy cap d len = .error .windowUnderflow := by
  have h0 : d ≠ 0 := by omega
  simp [Window.selfCopy, Window.distanceOk, h0, h]

/-- Settles O16: a put and a run keep the invariant; a self-copy is the run where the distance test passes. -/
theorem windowOpsKeepInv : Obligations.WindowOpsKeepInv := by
  refine fun cap w h => ⟨fun b ha => Window.put_inv b h ha, fun d len h1 h2 h3 => ?_, fun d len hd => Window.selfCopy_of_gt hd⟩
  obtain ⟨w', hrun, hinv, havail, hwritten, hwpos⟩ := Window.selfCopyRun_exists len h h1 h2 h3
  exact ⟨w', hrun, hinv, havail, hwritten, hwpos, by rw [Window.selfCopy_of_le h1 h2, hrun]⟩

end Sys2Proof.Machine
end

section
/-! PROOF. O51 and O52: the state after reset. -/

namespace Sys2Proof.Machine

/-- Settles O51: every register by its definition; the memory after reset is the empty one, which no address reads. -/
theorem resetValues : Obligations.ResetValues :=
  ⟨rfl, rfl, rfl, rfl, rfl, rfl, rfl, rfl, rfl, rfl, rfl, rfl, Memory.read_nil, rfl, rfl⟩

/-- Settles O52: the empty window has its invariant, and no block, step or command is in progress. -/
theorem invAtReset : Obligations.InvAtReset :=
  State.inv_iff.2 ⟨Window.empty_inv (by decide), fun _ => rfl, inStepInv_of_nothing rfl, rfl⟩

end Sys2Proof.Machine
end

section
/-! PROOF. O56: where the stream has ended no decoder step is due, and serving a command leaves the decoder alone. -/

namespace Sys2Proof.Machine

/-- Serving leaves the decoder, the source and all of the window but `AVAIL` as they are (R301, R304, R305). -/
structure ServeKeeps (s t : State) : Prop where
  blk     : t.blk = s.blk
  err     : t.err = s.err
  bitpos  : t.bitpos = s.bitpos
  src     : t.src = s.src
  cells   : t.window.cells = s.window.cells
  written : t.window.written = s.window.written
  wpos    : t.window.wpos = s.window.wpos

theorem ServeEffect.keeps {s t : State} (h : ServeEffect s t) : ServeKeeps s t := by
  obtain ⟨bs, rs, c, rfl, -⟩ := h.ex
  exact ⟨rfl, rfl, rfl, rfl, rfl, rfl, rfl⟩

theorem stepDue_of_complete {s : State} (h : s.blk = .complete) : s.stepDue = false := by
  simp [State.stepDue, State.isComplete, h]

/-- Settles O56: a step in `Complete` that is no reset idles or serves. -/
theorem completeAbsorbing : Obligations.CompleteAbsorbing := by
  intro s t _ herr hblk hstep hreset
  have of_keeps : ServeKeeps s t → t.blk = .complete ∧ t.err = none ∧ t.bitpos = s.bitpos ∧ t.src = s.src ∧
      t.window.cells = s.window.cells ∧ t.window.written = s.window.written ∧ t.window.wpos = s.window.wpos :=
    fun k => ⟨k.blk.trans hblk, k.err.trans herr, k.bitpos, k.src, k.cells, k.written, k.wpos⟩
  cases step_effect hstep with
  | idle _ _ => exact of_keeps ⟨rfl, rfl, rfl, rfl, rfl, rfl, rfl⟩
  | reset w rest hc hq h3 => simp [(takesReset_iff hc hq).2 h3] at hreset
  | command w rest t _ _ _ he =>
    obtain ⟨blk, err, bitpos, src, cells, written, wpos⟩ := he.keeps
    exact of_keeps ⟨blk, err, bitpos, src, cells, written, wpos⟩
  | serve t _ _ he => exact of_keeps he.keeps
  | decoder t hd _ => simp [stepDue_of_complete hblk] at hd

end Sys2Proof.Machine
end

section
/-! PROOF. O57: what a decoder step and what serving a command leaves or lets grow, then the step. -/

namespace Sys2Proof.Machine

/-! ### The input consumed for good -/

theorem settled_of_nothing {s : State} (h : s.inStep = .nothing) : s.settled = s.bitpos := by
  simp [State.settled, h]

/-- What lies before the reading place and before the start of the step lies before the settled place. -/
theorem le_settled {s : State} {p : Nat} (hb : p ≤ s.bitpos) (hk : p ≤ s.ckpt) : p ≤ s.settled := by
  unfold State.settled
  split
  · exact hb
  · exact hk

/-! ### One decoder step -/

/-- What every decoder step leaves or lets grow: it delivers nothing and takes no command, answers at most once, writes the window
only forward, and gives back no input consumed for good (R25, R36, R131). -/
structure DecoderGrows (s t : State) : Prop where
  out     : t.out = s.out
  src     : t.src = s.src ∨ t.src = s.src.deliver
  resp    : ∃ new, t.resp = s.resp ++ new ∧ new.length ≤ 1
  cmds    : t.cmds = s.cmds
  params  : t.params = s.params
  written : s.window.written ≤ t.window.written
  avail   : s.window.avail ≤ t.window.avail
  settled : t.err = none → s.settled ≤ t.settled

/-- A raise answers a running `MAKE_AVAILABLE`, and nothing else (R335). -/
theorem raise_resp (k : ErrorKind) (s : State) : ∃ new, (s.raise k).resp = s.resp ++ new ∧ new.length ≤ 1 := by
  cases hc : s.cur with
  | idle => exact ⟨[], by simp [State.raise, hc], by simp⟩
  | makeAvail n => exact ⟨[.err k], by simp [State.raise, hc], by simp⟩
  | read m got => exact ⟨[], by simp [State.raise, hc], by simp⟩

theorem raise_grows (k : ErrorKind) (p c : Nat) (s : State) :
    DecoderGrows s { State.raise k { s with bitpos := p } with ckpt := c } where
  out     := by simp
  src     := .inl (by simp)
  resp    := raise_resp k { s with bitpos := p }
  cmds    := by simp
  params  := by simp
  written := by simp
  avail   := by simp
  settled := by simp

theorem hold_grows (s : State) : DecoderGrows s s.hold where
  out     := by simp
  src     := .inr rfl
  resp    := ⟨[], by simp, by simp⟩
  cmds    := by simp
  params  := by simp
  written := by simp
  avail   := by simp
  settled := fun _ => by rw [settled_of_nothing (State.hold_inStep s), State.hold_bitpos]

/-- A put moves the counters of the window forward (R161). -/
theorem Window.put_written_ge {cap : Nat} {w : Window} (b : Byte) (h : w.inv cap = true) :
    w.written ≤ (w.put cap b).written := by
  have := (Window.inv_iff.1 h).2.1
  rw [Window.put_written]
  omega

/-- So does the pending copy of a step that is due (R204). -/
theorem pendingCopy_counters {s : State} {lt dt : Tree} {p d : Nat} {f : Bool} {w : Window} (h : s.Inv)
    (hd : s.demanded = true) (hb : s.blk = .huffman lt dt p (some d) f)
    (hw : s.window.selfCopyRun Config.cap d (min p s.need) = some w) :
    s.window.written ≤ w.written ∧ s.window.avail ≤ w.avail := by
  obtain ⟨hinv, -, -, -⟩ := State.inv_iff.1 h
  obtain ⟨-, -, hblk⟩ := h.of_demanded hd
  obtain ⟨-, -, -, -, h1, h2⟩ := blockInv_huffman_some_iff.1 (hb ▸ hblk)
  have hroom : s.window.avail + min p s.need ≤ Config.cap := by
    have := State.target_le h
    have := (State.demanded_iff.1 hd).2
    unfold State.need
    omega
  obtain ⟨w', hrun, -, havail, hwritten, -⟩ := Window.selfCopyRun_exists _ hinv h1 h2 hroom
  obtain rfl : w = w' := Option.some.inj (hw.symm.trans hrun)
  have := (Window.inv_iff.1 hinv).2.1
  omega

/-- A step that only moves reading on from the settled place, and the window's counters not back. -/
theorem DecoderGrows.of_frame {s t : State} (hout : t.out = s.out) (hsrc : t.src = s.src) (hresp : t.resp = s.resp)
    (hcmds : t.cmds = s.cmds) (hparams : t.params = s.params)
    (hw : s.window.written ≤ t.window.written ∧ s.window.avail ≤ t.window.avail) (hset : s.settled ≤ t.settled) :
    DecoderGrows s t :=
  ⟨hout, .inl hsrc, ⟨[], by simp [hresp], by simp⟩, hcmds, hparams, hw.1, hw.2, fun _ => hset⟩

/-- The meaning of an element leaves the reading place and the note of the step's start where reading put them; only a literal
moves the window, and only a raise answers. -/
theorem element_grows {s t : State} {i : Instr} {p : Nat} (h : s.Inv) (hp : s.bitpos ≤ p)
    (ht : ElementEffect i (s.advance p) t) : DecoderGrows s t := by
  have hwin := (State.inv_iff.1 h).1
  have hset : ∀ u : State, u.bitpos = (s.advance p).bitpos → u.ckpt = (s.advance p).ckpt → s.settled ≤ u.settled := by
    intro u hb hk
    rw [State.advance_bitpos] at hb
    rw [State.advance_ckpt] at hk
    exact le_settled (by have := settled_le h; omega) hk.ge
  cases ht with
  | raised k _ => rw [State.raise_advance]; exact raise_grows k p _ s
  | literal b _ _ _ _ _ =>
    exact .of_frame (by simp) (by simp) (by simp) (by simp) (by simp)
      ⟨by simpa using Window.put_written_ge b hwin, by simp⟩ (hset _ rfl rfl)
  | _ => exact .of_frame (by simp) (by simp) (by simp) (by simp) (by simp) (by simp) (hset _ rfl rfl)

theorem decoder_grows {s t : State} (h : s.Inv) (hd : s.demanded = true) (ht : DecoderEffect s t) : DecoderGrows s t := by
  have hwin := (State.inv_iff.1 h).1
  cases ht with
  | held _ => exact hold_grows s
  | raised k p c _ => exact raise_grows k p c s
  | element ctx i c t _ hdec he => exact element_grows h (decode_wf_pos hdec).2 he
  | headerDone d lt dt _ _ _ _ =>
    exact .of_frame rfl rfl rfl rfl rfl ⟨le_rfl, le_rfl⟩ (settled_le h)
  | storedDone f _ _ => exact .of_frame rfl rfl rfl rfl rfl ⟨le_rfl, le_rfl⟩ le_rfl
  | storedByte r f b c hs _ hr =>
    refine .of_frame rfl rfl rfl rfl rfl ⟨Window.put_written_ge b hwin, Nat.le_succ _⟩ ?_
    rw [settled_of_nothing hs]
    exact le_settled (Nat.le.intro (readByte_pos hr).symm) le_rfl
  | copied lt dt p d f w _ hb _ hw => exact .of_frame rfl rfl rfl rfl rfl (pendingCopy_counters h hd hb hw) le_rfl

/-! ### The step -/

/-- What grows over every step but a reset: `OUT`, `WRITTEN`, the bytes produced, the input consumed for good (R36, R41). -/
def OutputGrows (s t : State) : Prop :=
  (∃ new, t.out = s.out ++ new) ∧ s.window.written ≤ t.window.written ∧ s.produced ≤ t.produced ∧
    (t.err = none → s.settled ≤ t.settled)

/-- The source appends nothing, or what one event brings, and nothing once it has ended (R40). -/
def SourceGrows (s t : State) : Prop :=
  ∃ new, t.src.bytes = s.src.bytes ++ new ∧ (s.src.ended = true → new = [] ∧ t.src.ended = true)

theorem sourceGrows_of_eq {s t : State} (hb : t.src.bytes = s.src.bytes) (he : t.src.ended = s.src.ended) : SourceGrows s t :=
  ⟨[], by simp [hb], fun h => ⟨rfl, he.trans h⟩⟩

theorem DecoderGrows.source {s t : State} (h : DecoderGrows s t) : SourceGrows s t := by
  rcases h.src with hsrc | hsrc
  · exact sourceGrows_of_eq (by rw [hsrc]) (by rw [hsrc])
  · rw [SourceGrows, hsrc]
    exact Source.deliver_bytes s.src

theorem DecoderGrows.output {s t : State} (h : DecoderGrows s t) : OutputGrows s t := by
  refine ⟨⟨[], by simp [h.out]⟩, h.written, ?_, h.settled⟩
  rw [State.produced, State.produced, h.out]
  exact Nat.add_le_add_left h.avail _

/-- Serving moves bytes from the window to `OUT`: none is lost. -/
theorem ServeEffect.output {s t : State} (h : ServeEffect s t) : OutputGrows s t := by
  obtain ⟨bs, rs, c, rfl, hbs, -⟩ := h.ex
  refine ⟨⟨bs, rfl⟩, le_rfl, ?_, fun _ => le_rfl⟩
  simp only [State.produced, List.length_append]
  omega

theorem ServeEffect.resp {s t : State} (h : ServeEffect s t) : ∃ new, t.resp = s.resp ++ new ∧ new.length ≤ 1 := by
  obtain ⟨bs, rs, c, rfl, -, hrs, -⟩ := h.ex
  exact ⟨rs, rfl, hrs⟩

theorem ServeEffect.cmds_params {s t : State} (h : ServeEffect s t) : t.cmds = s.cmds ∧ t.params = s.params := by
  obtain ⟨bs, rs, c, rfl, -⟩ := h.ex
  exact ⟨rfl, rfl⟩

/-- Settles O57: a decoder step takes no command, serving reads no input, a reset takes its own command and nothing else. -/
theorem streamsGrow : Obligations.StreamsGrow := by
  intro s t h hstep
  cases step_effect hstep with
  | idle _ _ =>
    exact ⟨sourceGrows_of_eq rfl rfl, ⟨[], by simp⟩, ⟨[], by simp⟩, rfl, fun _ => ⟨⟨[], by simp⟩, le_rfl, le_rfl, fun _ => le_rfl⟩⟩
  | reset w rest hc hq h3 =>
    exact ⟨sourceGrows_of_eq rfl rfl, ⟨[], by simp⟩, ⟨[w], by simp [hq]⟩, rfl,
      fun hreset => by simp [(takesReset_iff hc hq).2 h3] at hreset⟩
  | command w rest t _ hq _ he =>
    obtain ⟨hcmds, hparams⟩ := he.cmds_params
    exact ⟨sourceGrows_of_eq (by rw [he.keeps.src]) (by rw [he.keeps.src]), he.resp, ⟨[w], by simp [hq, hcmds]⟩, hparams,
      fun _ => he.output⟩
  | serve t _ _ he =>
    obtain ⟨hcmds, hparams⟩ := he.cmds_params
    exact ⟨sourceGrows_of_eq (by rw [he.keeps.src]) (by rw [he.keeps.src]), he.resp, ⟨[], by simp [hcmds]⟩, hparams,
      fun _ => he.output⟩
  | decoder t hd he =>
    have hgrow := decoder_grows h (due_facts hd).1 he
    exact ⟨hgrow.source, hgrow.resp, ⟨[], by simp [hgrow.cmds]⟩, hgrow.params, fun _ => hgrow.output⟩

end Sys2Proof.Machine
end

section
/-! PROOF. O8: two bytes read one after the other are sixteen bits (R64, R134). -/

namespace Sys2Proof

/-- The loop of `read_bits` may be cut anywhere: the later bits are the high ones (R62, R132). -/
theorem takeBits_add (a b : Nat) (c : Cursor) :
    takeBits (a + b) c =
      (takeBits a c).bind fun r => (takeBits b r.2).bind fun q => some (r.1 + 2 ^ a * q.1, q.2) := by
  induction a generalizing c with
  | zero => simp [takeBits]
  | succ a ih =>
    rw [Nat.add_right_comm, takeBits_succ, takeBits_succ]
    simp only [ih, Option.bind_assoc, Option.bind_some, Nat.pow_succ]
    simp only [Nat.mul_add, Nat.add_assoc, Nat.mul_assoc, Nat.mul_left_comm 2]

/-- The high byte in front of the low one, as a number. -/
theorem byte_append_byte {lo : Nat} (hi : Nat) (h : lo < 2 ^ 8) :
    BitVec.ofNat 8 hi ++ BitVec.ofNat 8 lo = BitVec.ofNat 16 (lo + 2 ^ 8 * hi) := by
  apply BitVec.eq_of_toNat_eq
  rw [BitVec.toNat_append, ← Nat.shiftLeft_add_eq_or_of_lt (BitVec.isLt _), Nat.shiftLeft_eq]
  simp only [BitVec.toNat_ofNat]
  omega

/-- Settles O8: both sides read 8 bits and then 8 bits, and put the second byte above the first. -/
theorem u16IsSixteenBits : Obligations.U16IsSixteenBits := by
  intro c
  simp only [readU16le_eq, readByte_eq, readBits_of_le (show 8 ≤ Config.fieldMax by decide),
    readBits_of_le (show 8 + 8 ≤ Config.fieldMax by decide), takeBits_add 8 8]
  cases hlo : takeBits 8 c with
  | none => rfl
  | some r =>
    have hlt : r.1 < 2 ^ 8 := takeBits_lt hlo
    simp only [Option.bind_some]
    cases takeBits 8 r.2 with
    | none => rfl
    | some q => simp only [Option.bind_some, Option.map_some, byte_append_byte q.1 hlt]

end Sys2Proof
end

section
/-! PROOF. O17: a self-copy byte by byte, as the bytes back from the end of the copy (R72, R165). -/

namespace Sys2Proof.Machine

/-- Putting the byte that stood `d` back turns the last `d` bytes round by one: the one just put is the one that stood `d` back, and
every other of them stands one further back. -/
theorem Window.byteBack_put_cycle {cap d : Nat} {w : Window} {b : Byte} (j : Nat) (hp : w.wpos < cap) (h1 : 1 ≤ d)
    (h2 : d ≤ cap) (hb : w.byteBack cap d = some b) :
    (w.put cap b).byteBack cap (d - j % d) = w.byteBack cap (d - (j + 1) % d) := by
  have hj : j % d < d := Nat.mod_lt _ h1
  by_cases hlast : j % d + 1 = d
  · have hnext : (j + 1) % d = 0 := by rw [← Nat.mod_add_mod, hlast, Nat.mod_self]
    rw [hnext, show d - j % d = 1 by omega, Nat.sub_zero, hb, Window.byteBack_put_one b hp]
  · have hnext : (j + 1) % d = j % d + 1 := by rw [← Nat.mod_add_mod, Nat.mod_eq_of_lt (by omega)]
    rw [hnext, show d - j % d = d - (j % d + 1) + 1 by omega, Window.byteBack_put_succ b hp (by omega) (by omega)]

/-- Settles O17: by induction on the length; the first byte is put, and the rest of the copy runs in the window with it. -/
theorem selfCopyRepeats : Obligations.SelfCopyRepeats := by
  intro cap w w' d len
  induction len generalizing w with
  | zero =>
    intro _ _ _ _ hrun
    cases hrun
    exact ⟨fun j hj => absurd hj (Nat.not_lt_zero j), fun e _ _ => by rw [Nat.zero_add]⟩
  | succ k ih =>
    intro h h1 h2 hroom hrun
    obtain ⟨-, hcap, hp, -⟩ := Window.inv_iff.1 h
    obtain ⟨b, hb, hcopy⟩ := Window.selfCopyByte_eq h h1 h2
    have hrest : (w.put cap b).selfCopyRun cap d k = some w' := by simpa [Window.selfCopyRun, hcopy] using hrun
    obtain ⟨hcopied, hbehind⟩ := ih (w.put cap b) (Window.put_inv b h (by omega)) h1
      (by rw [Window.put_written]; omega) (by rw [Window.put_avail]; omega) hrest
    refine ⟨fun j hj => ?_, fun e he hle => ?_⟩
    · cases j with
      | zero =>
        calc w'.byteBack cap (k + 1) = (w.put cap b).byteBack cap 1 := hbehind 1 le_rfl (by omega)
          _ = w.byteBack cap (d - 0 % d) := by rw [Window.byteBack_put_one b hp, Nat.zero_mod, Nat.sub_zero, hb]
      | succ j =>
        rw [Nat.add_sub_add_right, hcopied j (by omega)]
        exact Window.byteBack_put_cycle j hp h1 (h2.trans hcap) hb
    · rw [Nat.add_assoc, Nat.add_comm 1 e, hbehind (e + 1) (by omega) (by omega)]
      exact Window.byteBack_put_succ b hp he (by omega)

end Sys2Proof.Machine
end

section
/-! PROOF. O21: `align()` drops the padding unread, and LEN and NLEN are 32 bits from there on (R93, R133, R177). -/

namespace Sys2Proof

/-- Where the padding is present, `align()` stands right behind it, whatever its bits are. -/
theorem align_pad {pos : Nat} {pad : List Bool} (rest : List Bool) (h : pad.length = padCount pos) :
    align ⟨pos, pad ++ rest⟩ = ⟨pos + pad.length, rest⟩ := by
  have hpos : (align ⟨pos, pad ++ rest⟩).pos = pos + pad.length := by rw [align_pos, h]
  have hbits : (align ⟨pos, pad ++ rest⟩).bits = rest := by rw [align_bits, ← h, List.drop_left]
  exact congrArg₂ Cursor.mk hpos hbits

theorem align_pos_mod (c : Cursor) : (align c).pos % 8 = 0 := Nat.mul_mod_left _ _

/-- A stored head ends 32 bits behind the padding: two numbers of 16 bits (R177). -/
theorem decodeStored_pos {final : Bool} {c c' : Cursor} {i : Instr} (h : decodeStored final c = .instr i c') :
    c'.pos = (align c).pos + 32 := by
  unfold decodeStored at h
  split at h
  · cases h
  · next hlen =>
    split at h
    · cases h
    · next hnlen =>
      cases h
      rw [readU16le_pos hnlen, readU16le_pos hlen]

/-- Behind BTYPE 0 the padding counts by its length alone. -/
theorem decodeStored_pad {final : Bool} {pos : Nat} {pad pad' rest : List Bool} (h : pad.length = padCount pos)
    (h' : pad'.length = pad.length) :
    decodeStored final ⟨pos, pad ++ rest⟩ = decodeStored final ⟨pos, pad' ++ rest⟩ := by
  unfold decodeStored
  rw [align_pad rest h, align_pad rest (h'.trans h), h']

/-- Settles O21: behind the three header bits reading is that of a stored head. -/
theorem paddingIgnored : Obligations.PaddingIgnored := by
  intro pos final pad pad' rest h h'
  have hstored : ∀ bits, decode .header ⟨pos, final :: false :: false :: bits⟩ = decodeStored final ⟨pos + 3, bits⟩ :=
    fun bits => decodeHeader_bits pos final false false bits
  simp only [hstored]
  refine ⟨decodeStored_pad h h', fun i c hdec => ?_⟩
  have hend := decodeStored_pos hdec
  have hbyte := align_pos_mod ⟨pos + 3, pad ++ rest⟩
  rw [align_pad rest h] at hend hbyte
  exact ⟨hend, by rw [hend, Nat.add_mod, hbyte]⟩

end Sys2Proof
end

section
/-! PROOF. O58: the input consumed for good, for each effect of `step_effect`. -/

namespace Sys2Proof.Machine

theorem consumed_of_none {s : State} (h : s.err = none) : s.consumed = s.src.base + (s.settled + 7) / 8 := by
  simp [State.consumed, h]

theorem consumed_of_some {s : State} {k : ErrorKind} (h : s.err = some k) : s.consumed = s.src.base + s.fetchedAtErr := by
  simp [State.consumed, h]

/-- Between atomic steps the input consumed for good is all that was fetched (R136). -/
theorem consumed_of_nothing {s : State} (h : s.inStep = .nothing) : s.consumed = s.src.base + s.fetched := by
  cases herr : s.err with
  | none => rw [consumed_of_none herr, State.fetched_of_none herr, settled_of_nothing h]
  | some k => rw [consumed_of_some herr, State.fetched_of_some herr]

/-- A raise keeps as consumed what had been fetched: no less than was settled, wherever reading had come to (R335, R339). -/
theorem raise_consumed {s : State} {p : Nat} (k : ErrorKind) (c : Nat) (herr : s.err = none) (hp : s.settled ≤ p) :
    s.consumed ≤ ({ State.raise k { s with bitpos := p } with ckpt := c } : State).consumed := by
  have hraised : ({ State.raise k { s with bitpos := p } with ckpt := c } : State).consumed = s.src.base + (p + 7) / 8 := by
    rw [consumed_of_some (k := k) (by simp)]
    simp [State.fetched_of_none, herr]
  rw [consumed_of_none herr, hraised]
  exact Nat.add_le_add_left (by omega) _

/-- A decoder step latches no error, or it is a raise, at the reading place or behind it. -/
theorem DecoderEffect.err_or_raise {s t : State} (h : DecoderEffect s t) :
    t.err = s.err ∨
      ∃ k p c, s.bitpos ≤ p ∧ t = { State.raise k { s with bitpos := p } with ckpt := c } := by
  cases h with
  | held _ => exact .inl (State.hold_err s)
  | raised k p c hp => exact .inr ⟨k, p, c, hp, rfl⟩
  | element ctx i c t _ hdec he =>
    cases he with
    | raised k _ => exact .inr ⟨k, c.pos, s.settled, (decode_wf_pos hdec).2, State.raise_advance k c.pos s⟩
    | _ => exact .inl (State.advance_err c.pos s)
  | _ => exact .inl rfl

theorem DecoderGrows.base {s t : State} (h : DecoderGrows s t) : t.src.base = s.src.base := by
  rcases h.src with hsrc | hsrc
  · rw [hsrc]
  · rw [hsrc, Source.deliver_base]

theorem decoder_consumed {s t : State} (h : s.Inv) (hd : s.demanded = true) (ht : DecoderEffect s t) :
    s.consumed ≤ t.consumed := by
  obtain ⟨herr, -⟩ := h.of_demanded hd
  rcases ht.err_or_raise with hsame | ⟨k, p, c, hp, rfl⟩
  · have hgrow := decoder_grows h hd ht
    have hnone := hsame.trans herr
    have hset := hgrow.settled hnone
    rw [consumed_of_none herr, consumed_of_none hnone, hgrow.base]
    omega
  · exact raise_consumed k c herr ((settled_le h).trans hp)

theorem ServeEffect.consumed {s t : State} (h : ServeEffect s t) : t.consumed = s.consumed := by
  obtain ⟨bs, rs, c, rfl, -⟩ := h.ex
  rfl

/-- The next stream begins right behind the input consumed (R371, entry 5). -/
theorem resetStep_consumed {s : State} (h : s.inStep = .nothing) :
    s.resetStep.src.base = s.consumed ∧ s.resetStep.consumed = s.consumed := by
  rw [consumed_of_nothing h, consumed_of_nothing (State.resetStep_inStep s), State.fetched_of_none (State.resetStep_err s)]
  exact ⟨rfl, by simp⟩

theorem cur_of_takesReset {s : State} (h : s.takesReset = true) : s.cur = .idle := by
  unfold State.takesReset at h
  split at h
  · assumption
  · cases h

/-- Settles O58: a decoder step only raises what is consumed, serving leaves it, a reset begins behind it. -/
theorem inputConsumedOnce : Obligations.InputConsumedOnce := by
  intro s t h hstep
  cases step_effect hstep with
  | idle _ hq => exact ⟨le_rfl, fun hreset => by simp [State.takesReset, hq] at hreset⟩
  | reset w rest hc _ _ =>
    obtain ⟨hbase, hsame⟩ := resetStep_consumed (s := { s with cmds := rest }) (inStep_of_idle h hc)
    exact ⟨hsame.ge, fun _ => ⟨hbase, rfl, hsame⟩⟩
  | command w rest t hc hq h3 he => exact ⟨he.consumed.ge, fun hreset => absurd ((takesReset_iff hc hq).1 hreset) h3⟩
  | serve t hc _ he => exact ⟨he.consumed.ge, fun hreset => absurd (cur_of_takesReset hreset) hc⟩
  | decoder t hd he =>
    have hdem := (due_facts hd).1
    exact ⟨decoder_consumed h hdem he, fun hreset => absurd (cur_of_takesReset hreset) (State.cur_of_demanded hdem)⟩

end Sys2Proof.Machine
end

section
/-! PROOF. O4: a decoded element is well-formed and was read by an exact reader (R114, R136). -/

namespace Sys2Proof

/-- Settles O4: a header is one exact reader, and a symbol with its extra field is another, whatever the tree. -/
theorem decodeReadsExactly : Obligations.DecodeReadsExactly := by
  intro ctx c c' i h
  cases ctx with
  | header =>
    rw [header_eq] at h
    cases hr : headerReader c with
    | none => simp [hr, toDecoded] at h
    | some r =>
      obtain ⟨i', c''⟩ := r
      simp only [hr, toDecoded, Decoded.instr.injEq] at h
      obtain ⟨rfl, rfl⟩ := h
      obtain ⟨used, hbits, hpos, hmore, hfewer⟩ := exact_header c c'' i' hr
      refine ⟨header_wf hr, used, hbits, hpos, fun rest => ?_, fun n hn => ?_⟩
      · rw [header_eq, hmore, toDecoded]
      · rw [header_eq, hfewer n hn, toDecoded]
  | clsym t prev => exact symbol_exact t _ clRow (fun _ _ _ => clRow_wf) h
  | litlen t => exact symbol_exact t _ litlenRow (fun _ _ _ => litlenRow_wf) h
  | dist t => exact symbol_exact t _ distRow (fun _ _ _ => distRow_wf) h

end Sys2Proof
end

section
/-! PROOF. O2: each format's encoding is read back (R91 to R96, R101, R111, R114). -/

namespace Sys2Proof

/-! ### Symbols -/

/-- A symbol's code and its extra field are read back as the row they select (R120). -/
theorem decodeSymbol_encodeSymbol {t : Tree} {width : Nat → Nat} {row : Nat → Nat → Option Instr} {sym e : Nat} {i : Instr}
    {bits : List Bool} (pos : Nat) (rest : List Bool) (hk : width sym ≤ Config.fieldMax) (he : e < 2 ^ width sym)
    (hrow : row sym e = some i) (h : encodeSymbol t (width sym) sym e = some bits) :
    decodeSymbol t width row ⟨pos, bits ++ rest⟩ = .instr i ⟨pos + bits.length, rest⟩ := by
  unfold encodeSymbol at h
  split at h
  · cases h
  · next p hp =>
    cases h
    simp only [decodeSymbol, List.append_assoc, decodeSym_path t sym pos p _ hp, readBits_natBits _ _ _ _ hk he, hrow,
      List.length_append, natBits_length, Nat.add_assoc]

/-- Where a code-length symbol's extra field is read at all, its width does not depend on `PREV` (R96, R185). -/
theorem clExtraOf_eq_of_ne_zero {sym : Nat} {prev : Option Nat} (h : clExtraOf sym prev ≠ 0) :
    clExtraOf sym prev = clExtraOf sym (some 0) := by
  cases prev with
  | none =>
    by_cases h16 : sym = 16
    · exact absurd (by simp [clExtraOf, h16]) h
    · simp [clExtraOf, h16]
  | some p => simp [clExtraOf]

/-- The operand of a code-length symbol fits its field, also where symbol 16 reads none (R96, entry 13). -/
theorem clRow_extra_lt {i : Instr} {sym e : Nat} {prev : Option Nat} (hw : i.WellFormed)
    (h : i.tableValue = (.clsym, sym, e)) (h0 : clExtraOf sym prev = 0 → e = 0) : e < 2 ^ clExtraOf sym prev := by
  by_cases hz : clExtraOf sym prev = 0
  · simp [hz, h0 hz]
  · rw [clExtraOf_eq_of_ne_zero hz]
    exact (clRow_tableValue i sym e hw h).2

/-! ### Headers -/

/-- Two bytes are read back as the number they were written from (R134). -/
theorem readU16le_natBits (v : BitVec 16) (pos : Nat) (rest : List Bool) :
    readU16le ⟨pos, natBits 16 v.toNat ++ rest⟩ = some (v, ⟨pos + 16, rest⟩) := by
  rw [u16IsSixteenBits, readBits_natBits 16 v.toNat pos rest (by decide) v.isLt]
  simp

theorem decodeStored_encoded (f : Bool) (len nlen : BitVec 16) (pos : Nat) (rest : List Bool) :
    decodeStored f ⟨pos, List.replicate (padCount pos) false ++ natBits 16 len.toNat ++ natBits 16 nlen.toNat ++ rest⟩ =
      .instr (.blkStored f len nlen) ⟨pos + padCount pos + 16 + 16, rest⟩ := by
  have hpad : (List.replicate (padCount pos) false).length = padCount pos := List.length_replicate
  simp only [decodeStored, List.append_assoc, align_pad _ hpad, hpad, readU16le_natBits]

theorem decodeDynamic_encoded {f : Bool} {hlit hdist : Nat} {cls : List Nat} (hw : (Instr.blkDynamic f hlit hdist cls).WellFormed)
    (pos : Nat) (rest : List Bool) :
    decodeDynamic f ⟨pos, natBits 5 hlit ++ natBits 5 hdist ++ natBits 4 (cls.length - 4) ++ cls.flatMap (natBits 3) ++ rest⟩ =
      .instr (.blkDynamic f hlit hdist cls) ⟨pos + 5 + 5 + 4 + 3 * cls.length, rest⟩ := by
  simp only [Instr.WellFormed, Instr.wf, Bool.and_eq_true, decide_eq_true_eq, List.all_eq_true] at hw
  obtain ⟨⟨⟨⟨hlit_lt, hdist_lt⟩, hmin⟩, hmax⟩, hcls⟩ := hw
  have hclen : hclenOf (cls.length - 4) = cls.length := Nat.sub_add_cancel hmin
  have hclen_lt : cls.length - 4 < 2 ^ 4 := by omega
  simp only [decodeDynamic, List.append_assoc, readBits_natBits 5 _ _ _ (by decide) hlit_lt,
    readBits_natBits 5 _ _ _ (by decide) hdist_lt, readBits_natBits 4 _ _ _ (by decide) hclen_lt, hclen,
    readFields_natBits 3 cls _ _ (by decide) hcls]

theorem decode_encode_header {pos : Nat} {i : Instr} {bits : List Bool} (rest : List Bool) (hw : i.WellFormed)
    (h : encode .header pos i = some bits) :
    decodeHeader ⟨pos, bits ++ rest⟩ = .instr i ⟨pos + bits.length, rest⟩ := by
  simp only [encode] at h
  split at h
  · next f len nlen =>
    cases h
    simp only [List.cons_append, decodeHeader_bits, decodeStored_encoded]
    simp [natBits_length]; omega
  · cases h; exact decodeHeader_bits _ _ _ _ _
  · next f hlit hdist cls =>
    cases h
    simp only [List.cons_append, decodeHeader_bits, decodeDynamic_encoded hw]
    simp [natBits_length]; omega
  · cases h; exact decodeHeader_bits _ _ _ _ _
  · cases h

/-- Settles O2: a header by its BTYPE, a symbol by its path, its extra field and its row. -/
theorem decodeEncode : Obligations.DecodeEncode := by
  intro ctx pos i bits rest hw h
  cases ctx with
  | header => exact decode_encode_header rest hw h
  | clsym t prev =>
    simp only [encode] at h
    split at h
    · next sym e hv =>
      split at h
      · cases h
      · next hguard =>
        have he := clRow_extra_lt (prev := prev) hw hv (by simpa using hguard)
        exact decodeSymbol_encodeSymbol pos rest ((clExtraOf_le sym prev).trans (by decide)) he
          (clRow_tableValue i sym e hw hv).1 h
    · cases h
  | litlen t =>
    simp only [encode] at h
    split at h
    · next sym e hv =>
      obtain ⟨hrow, he⟩ := litlenRow_tableValue i sym e hw hv
      exact decodeSymbol_encodeSymbol pos rest ((lengthExtraOf_le sym).trans (by decide)) he hrow h
    · cases h
  | dist t =>
    simp only [encode] at h
    split at h
    · next sym e hv =>
      obtain ⟨hrow, he⟩ := distRow_tableValue i sym e hw hv
      exact decodeSymbol_encodeSymbol pos rest ((distExtraOf_le sym).trans (by decide)) he hrow h
    · cases h

end Sys2Proof
end

section
/-! PROOF. O9: the fixed trees, and the codes of R100 as the canonical codes of the lengths of R99. -/

namespace Sys2Proof

/-- A table that builds has each used symbol at the end of its canonical code (R141, R145 a, R153). -/
theorem path_of_buildReject {lengths : List Nat} {t : Tree} (h : buildReject lengths = .ok t) {sym : Nat}
    (hsym : sym < lengths.length) (hused : lengths.getD sym 0 ≠ 0) :
    t.path sym = some (codeBits (lengths.getD sym 0)
      (firstCode lengths (lengths.getD sym 0) + (lengths.take sym).count (lengths.getD sym 0))) := by
  have hne : lengths ≠ [] := List.ne_nil_of_length_pos (by omega)
  simp only [buildReject, canonical_codes hne] at h
  have hmem : sym ∈ usedSymbols 0 lengths := mem_usedSymbols.2 ⟨Nat.zero_le _, by omega, hused⟩
  refine path_of_build h ?_ (List.mem_map_of_mem hmem)
  rw [List.map_map]
  simpa [Function.comp_def] using usedSymbols_nodup 0 lengths

/-- A run of `n` symbols of length `L`, from symbol `i` on, has consecutive codes: from `code` on, the first code of that length
plus the number of symbols of that length before the run. -/
theorem path_of_run {lengths before after : List Nat} {n L i code : Nat} {t : Tree} (h : buildReject lengths = .ok t)
    (hrun : lengths = before ++ (List.replicate n L ++ after)) (hL : L ≠ 0) (hi : before.length = i)
    (hcode : firstCode lengths L + before.count L = code) {s : Nat} (hs : i ≤ s) (hs' : s < i + n) :
    t.path s = some (codeBits L (code + (s - i))) := by
  subst hi
  obtain ⟨k, rfl⟩ := Nat.exists_eq_add_of_le hs
  have hk : k < n := by omega
  have hlen : lengths.getD (before.length + k) 0 = L := by
    rw [hrun, List.getD_append_right _ _ _ _ (Nat.le_add_right _ _), Nat.add_sub_cancel_left,
      List.getD_append _ _ _ _ (by simpa using hk), List.getD_replicate _ hk]
  have hcount : (lengths.take (before.length + k)).count L = before.count L + k := by
    rw [hrun, List.take_length_add_append, List.count_append, List.take_append_of_le_length (by simpa using hk.le),
      List.take_replicate, List.count_replicate_self, Nat.min_eq_left hk.le]
  have hpath := path_of_buildReject h (sym := before.length + k) (by simp [hrun]; omega) (by rwa [hlen])
  rw [hlen, hcount, ← Nat.add_assoc, hcode] at hpath
  rwa [Nat.add_sub_cancel_left]

/-! ### The fixed trees (R99, R100) -/

theorem buildReject_fixedLitlenLengths : buildReject Config.fixedLitlenLengths = .ok fixedLitlenTree := by decide +kernel

theorem buildReject_fixedDistLengths : buildReject Config.fixedDistLengths = .ok fixedDistTree := by rfl

theorem fixedLitlenLengths_firstCode :
    firstCode Config.fixedLitlenLengths 7 = 0 ∧ firstCode Config.fixedLitlenLengths 8 = 0x30 ∧
    firstCode Config.fixedLitlenLengths 9 = 0x190 := by
  simp only [firstCode, countLength, Config.fixedLitlenLengths, List.count_append, List.count_replicate]
  decide

/-- Settles O9: each range of R100 is a run of R99, and its codes count on from the first. -/
theorem fixedTrees : Obligations.FixedTrees := by
  obtain ⟨h7, h8, h9⟩ := fixedLitlenLengths_firstCode
  have hlit := buildReject_fixedLitlenLengths
  have hdist := buildReject_fixedDistLengths
  have hruns : Config.fixedLitlenLengths =
      List.replicate 144 8 ++ (List.replicate 112 9 ++ (List.replicate 24 7 ++ List.replicate 8 8)) := by
    simp only [Config.fixedLitlenLengths, List.append_assoc]
  refine ⟨hlit, hdist, fun s hs => ?_, fun s hs hs' => ?_, fun s hs hs' => ?_, fun s hs hs' => ?_, fun s hs => ?_⟩
  · exact path_of_run (before := []) (n := 144) hlit hruns (by decide) rfl (by simp only [h8, List.count_nil]) (Nat.zero_le s)
      (by omega)
  · exact path_of_run (before := List.replicate 144 8) (n := 112) hlit hruns (by decide) (by simp only [List.length_replicate])
      (by simp only [h9, List.count_replicate]; rfl) hs (by omega)
  · rw [← Nat.zero_add (s - 256)]
    exact path_of_run (before := List.replicate 144 8 ++ List.replicate 112 9) (n := 24) hlit (by rw [hruns, List.append_assoc])
      (by decide) (by simp only [List.length_append, List.length_replicate])
      (by simp only [h7, List.count_append, List.count_replicate]; rfl) hs (by omega)
  · exact path_of_run (before := List.replicate 144 8 ++ List.replicate 112 9 ++ List.replicate 24 7) (after := []) (n := 8) hlit
      (by rw [List.append_nil]; rfl) (by decide) (by simp only [List.length_append, List.length_replicate])
      (by simp only [h8, List.count_append, List.count_replicate]; rfl) hs (by omega)
  · simpa only [Nat.zero_add, Nat.sub_zero] using path_of_run (before := []) (after := []) (n := 32) (i := 0) (code := 0) hdist
      (by rw [List.append_nil]; rfl) (by decide) rfl rfl (Nat.zero_le s) (by omega)

end Sys2Proof
end

section
/-! PROOF. O3: in each format, the instruction's place in the table has an encoding. -/

namespace Sys2Proof

/-! ### Symbols with a code -/

theorem encodeSymbol_isSome {t : Tree} {width sym e : Nat} (h : (t.path sym).isSome) : (encodeSymbol t width sym e).isSome := by
  obtain ⟨p, hp⟩ := Option.isSome_iff_exists.1 h
  simp [encodeSymbol, hp]

theorem fixedLitlenTree_path_isSome {sym : Nat} (h : sym < Config.nLitlen) : (fixedLitlenTree.path sym).isSome := by
  obtain ⟨-, -, hlow, hhigh, hmid, hlast, -⟩ := fixedTrees
  by_cases h144 : sym < 144
  · rw [hlow sym h144]; rfl
  by_cases h256 : sym < 256
  · rw [hhigh sym (by omega) h256]; rfl
  by_cases h280 : sym < 280
  · rw [hmid sym (by omega) h280]; rfl
  · rw [hlast sym (by omega) h]; rfl

theorem fixedDistTree_path_isSome {sym : Nat} (h : sym < Config.nDist) : (fixedDistTree.path sym).isSome := by
  obtain ⟨-, -, -, -, -, -, hdist⟩ := fixedTrees
  rw [hdist sym h]; rfl

/-! ### The symbols of the rows -/

theorem litlenRow_lt {sym e : Nat} {i : Instr} (h : litlenRow sym e = some i) : sym < Config.nLitlen := by
  by_contra hc
  have hsym : 288 ≤ sym := Nat.le_of_not_lt hc
  have hnone : litlenRow sym e = none := by
    rw [litlenRow, if_neg (by omega), if_neg (by omega), if_neg (by omega), if_neg (by omega), if_neg (by omega)]
  simp [hnone] at h

theorem distRow_lt {sym e : Nat} {i : Instr} (h : distRow sym e = some i) : sym < Config.nDist := by
  obtain ⟨row, hrow, -⟩ := Option.map_eq_some_iff.1 h
  exact (List.getElem?_eq_some_iff.1 hrow).1

theorem clRow_lt {sym e : Nat} {i : Instr} (h : clRow sym e = some i) : sym < Config.nCl := by
  by_contra hc
  have hsym : 19 ≤ sym := Nat.le_of_not_lt hc
  have hnone : clRow sym e = none := by
    rw [clRow, if_neg (by omega), if_neg (by omega), if_neg (by omega), if_neg (by omega)]
  simp [hnone] at h

/-! ### Each format -/

theorem encode_header_isSome {i : Instr} (h : i.tableValue.1 = .blkhdr) (pos : Nat) : (encode .header pos i).isSome := by
  cases i
  case blkStored => rfl
  case blkFixed => rfl
  case blkDynamic => rfl
  case blkReserved => rfl
  all_goals simp [Instr.tableValue] at h

theorem encodeCmd_decodeCmd {i : Instr} (h : i.tableValue.1 = .hostcmd) : ∃ w, encodeCmd i = some w ∧ decodeCmd w = i := by
  cases i
  case makeAvailable n => exact ⟨⟨0, n⟩, rfl, rfl⟩
  case copyOut k => exact ⟨⟨1, k⟩, rfl, rfl⟩
  case read m => exact ⟨⟨2, m⟩, rfl, rfl⟩
  case reset => exact ⟨⟨3, 0⟩, rfl, rfl⟩
  all_goals simp [Instr.tableValue] at h

/-- A code-length element without an extra field has operand 0 (R96). -/
theorem clRow_extra_eq_zero {i : Instr} {sym e p : Nat} (hw : i.WellFormed) (h : i.tableValue = (.clsym, sym, e))
    (hz : clExtraOf sym (some p) = 0) : e = 0 := by
  have hlt := (clRow_tableValue i sym e hw h).2
  rw [show clExtraOf sym (some 0) = clExtraOf sym (some p) by simp [clExtraOf], hz] at hlt
  omega

/-- Settles O3: a symbol of a row is one of the fixed tree's; headers and commands by cases. -/
theorem everyInstrEncodes : Obligations.EveryInstrEncodes := by
  intro i hw
  rcases hv : i.tableValue with ⟨f, sym, e⟩
  cases f with
  | blkhdr => exact encode_header_isSome (by rw [hv])
  | clsym =>
    intro pos p
    have hrow := (clRow_tableValue i sym e hw hv).1
    simp only [encode, hv]
    rw [if_neg (by simpa using clRow_extra_eq_zero hw hv)]
    exact encodeSymbol_isSome (fixedDistTree_path_isSome ((clRow_lt hrow).trans (by decide)))
  | litlen =>
    intro pos
    have hrow := (litlenRow_tableValue i sym e hw hv).1
    simp only [encode, hv]
    exact encodeSymbol_isSome (fixedLitlenTree_path_isSome (litlenRow_lt hrow))
  | dist =>
    intro pos
    have hrow := (distRow_tableValue i sym e hw hv).1
    simp only [encode, hv]
    exact encodeSymbol_isSome (fixedDistTree_path_isSome (distRow_lt hrow))
  | hostcmd => exact encodeCmd_decodeCmd (by rw [hv])

end Sys2Proof
end

section
/-! PROOF. O5: the bytes of a placed element begin with its encoding, which the next step reads back (entries 16, 17). -/

namespace Sys2Proof

/-! ### Bits as bytes -/

/-- The number whose low bits these are, the first the least significant (R62). -/
def bitsValue (bits : List Bool) : Nat := bits.foldr (fun b acc => b.toNat + 2 * acc) 0

@[simp] theorem bitsValue_nil : bitsValue [] = 0 := rfl
@[simp] theorem bitsValue_cons (b : Bool) (bits : List Bool) : bitsValue (b :: bits) = b.toNat + 2 * bitsValue bits := rfl

/-- The low bits of that number are these bits again, then zeros. -/
theorem natBits_bitsValue (k : Nat) (bits : List Bool) :
    natBits k (bitsValue bits) = (bits ++ List.replicate k false).take k := by
  induction k generalizing bits with
  | zero => rfl
  | succ k ih =>
    cases bits with
    | nil => simpa [natBits, List.replicate_succ] using ih []
    | cons b bits =>
      have hbit : decide (bitsValue (b :: bits) % 2 = 1) = b := by cases b <;> simp
      have hrest : bitsValue (b :: bits) / 2 = bitsValue bits := by
        have := b.toNat_le
        rw [bitsValue_cons]
        omega
      rw [natBits, hbit, hrest, ih, List.cons_append, List.take_succ_cons]
      simp only [List.take_append, List.take_replicate]
      congr 3
      omega

theorem byteBits_ofNat (v : Nat) : byteBits (BitVec.ofNat 8 v) = natBits 8 v := by
  simp only [byteBits, natBits, BitVec.getLsbD_ofNat, Nat.testBit_eq_decide_div_mod_eq, Nat.div_div_eq_div_mul]
  simp

namespace Machine

/-- A byte holds the next eight bits, missing ones 0 (R61). -/
theorem byteBits_byteOfBits (bits : List Bool) :
    byteBits (byteOfBits bits) = bits.take 8 ++ List.replicate (8 - bits.length) false := by
  have hval : byteOfBits bits = BitVec.ofNat 8 (bitsValue (bits.take 8)) := rfl
  rw [hval, byteBits_ofNat, natBits_bitsValue, List.take_append, List.take_take, Nat.min_self, List.take_replicate,
    List.length_take]
  congr 2
  omega

/-- Enough bytes hold all the bits, in order. -/
theorem flatMap_byteBits_packBits {n : Nat} {bits : List Bool} (h : bits.length ≤ 8 * n) :
    ∃ rest, (packBits n bits).flatMap byteBits = bits ++ rest := by
  induction n generalizing bits with
  | zero => exact ⟨[], by simp [List.eq_nil_of_length_eq_zero (Nat.le_zero.1 h), packBits]⟩
  | succ n ih =>
    obtain ⟨rest, hrest⟩ := ih (bits := bits.drop 8) (by rw [List.length_drop]; omega)
    rw [packBits, List.flatMap_cons, byteBits_byteOfBits, hrest]
    by_cases hlen : 8 ≤ bits.length
    · exact ⟨rest, by rw [Nat.sub_eq_zero_of_le hlen, List.replicate_zero, List.append_nil, ← List.append_assoc,
        List.take_append_drop]⟩
    · exact ⟨_, by rw [List.take_of_length_le (by omega), List.append_assoc]⟩

/-! ### A placed element -/

/-- The machine that `placeInstr` makes for a stream element: it demands a byte, in block state `b` and at the place `i` inside a
step, and the source begins with these bits. -/
def State.placed (bits : List Bool) (b : BlockState) (i : InStep) (s : State) : State :=
  { State.demanding bits s with blk := b, inStep := i }

@[simp] theorem State.placed_blk (bits : List Bool) (b : BlockState) (i : InStep) (s : State) : (s.placed bits b i).blk = b := rfl
@[simp] theorem State.placed_inStep (bits : List Bool) (b : BlockState) (i : InStep) (s : State) :
    (s.placed bits b i).inStep = i := rfl

@[simp] theorem State.placed_demanded (bits : List Bool) (b : BlockState) (i : InStep) (s : State) :
    (s.placed bits b i).demanded = true := by
  rw [State.demanded_iff]
  refine ⟨rfl, ?_⟩
  by_cases hd : s.demanded = true
  · have hcur : (s.placed bits b i).cur = s.cur := if_pos hd
    have htarget : (s.placed bits b i).target = s.target := by rw [State.target, hcur]; rfl
    rw [htarget]
    exact (State.demanded_iff.1 hd).2
  · have hcur : (s.placed bits b i).cur = .makeAvail (s.window.avail + 1) := if_neg hd
    rw [State.target, hcur]
    exact Nat.lt_succ_self _

theorem State.placed_cursor (bits : List Bool) (b : BlockState) (i : InStep) (s : State) :
    ∃ rest, (s.placed bits b i).cursor = ⟨0, bits ++ rest⟩ := by
  obtain ⟨rest, hrest⟩ := flatMap_byteBits_packBits (n := (bits.length + 7) / 8 + 16) (bits := bits) (by omega)
  have hbytes : (s.placed bits b i).src.bytes = packBits ((bits.length + 7) / 8 + 16) bits := rfl
  have hbase : (s.placed bits b i).src.base = 0 := rfl
  have hpos : (s.placed bits b i).bitpos = 0 := rfl
  exact ⟨rest, by simp [State.cursor, hbytes, hbase, hpos, hrest]⟩

/-- `u` is where the instruction that was placed in `s` runs: the registers that placing leaves, and its kind is due. -/
def PlacedAt (i : Instr) (s u : State) : Prop :=
  u.window = s.window ∧ u.out = s.out ∧ u.params = s.params ∧ u.resp = s.resp ∧
    (i.tableValue.1 ≠ .hostcmd → u.expects = some i.tableValue.1)

/-- An element placed where its context is read is the next to run. -/
theorem placed_runs {s : State} {i : Instr} {ctx : Ctx} {b : BlockState} {p : InStep} (hw : i.WellFormed)
    (henc : (encode ctx 0 i).isSome) (hplace : placeInstr i s = s.placed ((encode ctx 0 i).getD []) b p)
    (hctx : (placeInstr i s).ctx = some ctx) (hopen : (placeInstr i s).isComplete = false)
    (hexp : (placeInstr i s).expects = some i.tableValue.1) :
    ∃ u, step (placeInstr i s) = exec i u ∧ PlacedAt i s u := by
  obtain ⟨bits, he⟩ := Option.isSome_iff_exists.1 henc
  simp only [hplace, he, Option.getD_some] at hctx hopen hexp ⊢
  obtain ⟨rest, hcur⟩ := s.placed_cursor bits b p
  have hdec : decode ctx (s.placed bits b p).cursor = .instr i ⟨0 + bits.length, rest⟩ := by
    rw [hcur]; exact decodeEncode ctx 0 i bits rest hw he
  have hdue : (s.placed bits b p).stepDue = true := by simp [State.stepDue, hopen]
  refine ⟨(s.placed bits b p).advance (0 + bits.length), ?_, State.advance_window _ _, State.advance_out _ _,
    State.advance_params _ _, State.advance_resp _ _, fun _ => ?_⟩
  · rw [step_of_due hdue, decoderStep_of_ctx hctx, element, hdec]
  · rw [← hexp]; simp [State.expects]

/-- A placed instruction is the next to run (R120, R303). -/
theorem placeInstr_runs (s : State) {i : Instr} (hw : i.WellFormed) : ∃ u, step (placeInstr i s) = exec i u ∧ PlacedAt i s u := by
  have henc := everyInstrEncodes i hw
  cases hv : i.tableValue.1 with
  | blkhdr =>
    rw [hv] at henc
    have hplace : placeInstr i s = s.placed ((encode .header 0 i).getD []) .header .nothing := by
      simp only [placeInstr, hv]; rfl
    exact placed_runs hw (henc 0) hplace (by rw [hplace]; rfl) (by rw [hplace]; rfl) (by simp [hplace, State.expects, hv])
  | clsym =>
    rw [hv] at henc
    have hplace : placeInstr i s = s.placed ((encode (.clsym fixedDistTree (some 0)) 0 i).getD []) .header
        (.dynHdr ⟨false, 257, 1, fixedDistTree, [], some 0⟩) := by
      simp only [placeInstr, hv]; rfl
    exact placed_runs hw (henc 0 0) hplace (by rw [hplace]; rfl) (by rw [hplace]; rfl)
      (by simp [hplace, State.expects, hv, DynHdr.total])
  | litlen =>
    rw [hv] at henc
    have hplace : placeInstr i s = s.placed ((encode (.litlen fixedLitlenTree) 0 i).getD [])
        (.huffman fixedLitlenTree fixedDistTree 0 none false) .nothing := by
      simp only [placeInstr, hv]; rfl
    exact placed_runs hw (henc 0) hplace (by rw [hplace]; rfl) (by rw [hplace]; rfl) (by simp [hplace, State.expects, hv])
  | dist =>
    rw [hv] at henc
    have hplace : placeInstr i s = s.placed ((encode (.dist fixedDistTree) 0 i).getD [])
        (.huffman fixedLitlenTree fixedDistTree 0 none false) (.awaitDist 3) := by
      simp only [placeInstr, hv]; rfl
    exact placed_runs hw (henc 0) hplace (by rw [hplace]; rfl) (by rw [hplace]; rfl) (by simp [hplace, State.expects, hv])
  | hostcmd =>
    rw [hv] at henc
    obtain ⟨w, he, rfl⟩ := henc
    have hplace : placeInstr (decodeCmd w) s = { s with cur := .idle, inStep := .nothing, cmds := w :: s.cmds } := by
      simp only [placeInstr, hv, he]; rfl
    refine ⟨{ s with cur := .idle, inStep := .nothing }, ?_, rfl, rfl, rfl, rfl, fun hne => absurd hv hne⟩
    rw [hplace, step_of_idle rfl, takeCommand]

end Machine

/-! ### The words of the table -/

theorem rowOfValue_wf {f : Format} {w : Nat} {i : Instr} (h : rowOfValue f w = some i) : i.WellFormed := by
  cases f with
  | blkhdr =>
    simp only [rowOfValue] at h
    split at h
    · next j c hdec =>
      obtain ⟨-, hi⟩ := Option.ite_none_right_eq_some.1 h
      cases hi
      exact (Machine.decode_wf_pos hdec).1
    · cases h
  | clsym => exact clRow_wf (p := none) h (Nat.two_pow_pos _)
  | litlen => exact litlenRow_wf h (Nat.two_pow_pos _)
  | dist => exact distRow_wf h (Nat.two_pow_pos _)
  | hostcmd =>
    obtain ⟨-, hi⟩ := Option.ite_none_right_eq_some.1 h
    cases hi
    unfold decodeCmd
    repeat' split
    all_goals rfl

/-- Settles O5: a row's word stands for a well-formed instruction, and such an instruction, placed, is the next to run. -/
theorem placedWordRuns : Obligations.PlacedWordRuns := by
  intro s nbits w i h
  have hw : i.WellFormed := rowOfValue_wf h
  have hplace : s.withFetchWord nbits w = Machine.placeInstr i s := by rw [Machine.State.withFetchWord, h]
  rw [hplace]
  exact ⟨hw, Machine.placeInstr_runs s hw⟩

end Sys2Proof
end

section
/-! PROOF. O24: filling slots by distinct indices, one value each (R95, R181). -/

namespace Sys2Proof.Machine

/-- Fill the slots named by the indices, one value each, in order: the loop of `fillClLen` for any list of indices. -/
def fillSlots (slots vals acc : List Nat) : List Nat := (slots.zip vals).foldl (fun acc p => acc.set p.1 p.2) acc

theorem fillClLen_eq_fillSlots (cls : List Nat) : fillClLen cls = fillSlots Config.clOrder cls (List.replicate Config.nCl 0) := rfl

@[simp] theorem fillSlots_nil_right (slots acc : List Nat) : fillSlots slots [] acc = acc := by
  simp [fillSlots]

@[simp] theorem fillSlots_cons (a v : Nat) (slots vals acc : List Nat) :
    fillSlots (a :: slots) (v :: vals) acc = fillSlots slots vals (acc.set a v) := rfl

/-- A slot that is not named keeps what it holds. -/
theorem fillSlots_of_notMem {slot : Nat} {slots : List Nat} (vals acc : List Nat) (h : slot ∉ slots) :
    (fillSlots slots vals acc)[slot]? = acc[slot]? := by
  induction slots generalizing vals acc with
  | nil => rfl
  | cons a slots ih =>
    obtain ⟨hne, hrest⟩ : slot ≠ a ∧ slot ∉ slots := by simpa using h
    cases vals with
    | nil => simp
    | cons v vals => rw [fillSlots_cons, ih vals _ hrest, List.getElem?_set_ne (Ne.symm hne)]

/-- The `i`-th of distinct indices names the slot of the `i`-th value; past the values the slot keeps what it holds. -/
theorem fillSlots_getElem? {slots : List Nat} (vals acc : List Nat) (hd : slots.Nodup) (hb : ∀ a ∈ slots, a < acc.length) {i : Nat}
    (hi : i < slots.length) : (fillSlots slots vals acc)[slots[i]]? = some (vals.getD i (acc.getD slots[i] 0)) := by
  induction slots generalizing vals acc i with
  | nil => simp at hi
  | cons a slots ih =>
    obtain ⟨ha, hd⟩ := List.nodup_cons.1 hd
    have halen : a < acc.length := hb a (by simp)
    cases vals with
    | nil =>
      have hlen := hb (a :: slots)[i] (List.getElem_mem hi)
      simp [List.getElem?_eq_getElem hlen]
    | cons v vals =>
      rw [fillSlots_cons]
      cases i with
      | zero => simp [fillSlots_of_notMem _ _ ha, halen]
      | succ i =>
        have hi : i < slots.length := by simpa using hi
        have hne : a ≠ slots[i] := fun h => ha (h ▸ List.getElem_mem hi)
        have hset := ih vals (acc.set a v) hd (fun b hm => by simpa using hb b (by simp [hm])) hi
        simpa [List.getD_eq_getElem?_getD, List.getElem?_set_ne hne] using hset

/-- Settles O24: the 19 indices of `CL_ORDER` are distinct, and the slots hold 0 before they are filled. -/
theorem clLenSlots : Obligations.ClLenSlots := by
  refine ⟨rfl, fun cls => ⟨fillClLen_length cls, fun i hi => ?_⟩⟩
  have hi : i < Config.clOrder.length := hi
  have hslot : Config.clOrder[i] < Config.nCl := (show ∀ a ∈ Config.clOrder, a < 19 by decide) _ (List.getElem_mem hi)
  have hfill := fillSlots_getElem? cls (List.replicate Config.nCl 0) (slots := Config.clOrder) (by decide) (by decide) hi
  rw [List.getD_replicate _ hslot] at hfill
  rw [fillClLen_eq_fillSlots, List.getD_eq_getElem _ _ hi, hfill]

end Sys2Proof.Machine
end

section
/-! PROOF. O1: each word as the decoder evaluates it. -/

namespace Sys2Proof

/-- Settles O1: closed words, each read by evaluation. -/
theorem specWordsDecode : Obligations.SpecWordsDecode := by
  refine ⟨?fixed, ?reserved, ?stored, ?dynamic, ?rep16, ?zero18, ?literal, ?eob, ?len284, ?invalid287, ?dist20, ?invalid30, ?commands⟩
  all_goals decide

end Sys2Proof
end

section
/-! PROOF. O29 and O30: the common parts of the length and distance codes, at the bases of R110 and R112. -/

namespace Sys2Proof.Machine

/-- Where a literal/length symbol is due, a length code leaves its length waiting for a distance (R207). -/
theorem lengthCode_at {s : State} {lt dt : Tree} {dist : Option Nat} {f : Bool} (h : s.AtSymbol lt dt dist f) (idx e : Nat) :
    lengthCode idx e s = .next (s.awaiting (lenOf idx e)) := by
  rw [lengthCode, State.onSymbol_at h]; rfl

/-- Where a distance symbol is due, a distance code is checked and loaded (R250, R283, R284). -/
theorem distanceCode_at {s : State} {len : Nat} {lt dt : Tree} {old : Option Nat} {f : Bool} (h : s.AtDistance len lt dt old f)
    (ds e : Nat) : distanceCode ds e s = .next (s.distance len lt dt f (distOf ds e)) := by
  rw [distanceCode, State.onDistance_at h]
  by_cases hle : distOf ds e ≤ s.window.written
  · simp [State.distance, Window.distanceOk, hle]
  · simp [State.distance, Window.distanceOk, hle]

/-- Settles O29: each row is `lengthCode` at its index, whose base stands in `LENGTH_BASE`. -/
theorem lengthCodes : Obligations.LengthCodes := by
  intro s lt dt dist f h
  have code := lengthCode_at h
  exact ⟨code 0 0, code 1 0, code 2 0, code 3 0, code 4 0, code 5 0, code 6 0, code 7 0,
    fun e _ => ⟨code 8 e, code 9 e, code 10 e, code 11 e⟩, fun e _ => ⟨code 12 e, code 13 e, code 14 e, code 15 e⟩,
    fun e _ => ⟨code 16 e, code 17 e, code 18 e, code 19 e⟩, fun e _ => ⟨code 20 e, code 21 e, code 22 e, code 23 e⟩,
    fun e _ => ⟨code 24 e, code 25 e, code 26 e, code 27 e⟩, code 28 0⟩

/-- Settles O30: each row is `distanceCode` at its symbol, whose base stands in `DIST_BASE`. -/
theorem distanceCodes : Obligations.DistanceCodes := by
  intro s len lt dt old f h
  have code := distanceCode_at h
  exact ⟨code 0 0, code 1 0, code 2 0, code 3 0, fun e _ => ⟨code 4 e, code 5 e⟩, fun e _ => ⟨code 6 e, code 7 e⟩,
    fun e _ => ⟨code 8 e, code 9 e⟩, fun e _ => ⟨code 10 e, code 11 e⟩, fun e _ => ⟨code 12 e, code 13 e⟩,
    fun e _ => ⟨code 14 e, code 15 e⟩, fun e _ => ⟨code 16 e, code 17 e⟩, fun e _ => ⟨code 18 e, code 19 e⟩,
    fun e _ => ⟨code 20 e, code 21 e⟩, fun e _ => ⟨code 22 e, code 23 e⟩, fun e _ => ⟨code 24 e, code 25 e⟩,
    fun e _ => ⟨code 26 e, code 27 e⟩, fun e _ => ⟨code 28 e, code 29 e⟩⟩

end Sys2Proof.Machine
end

section
/-! PROOF. O47, O46, O48: a step inside an atomic step has only read on, so a hold gives its start back (R131); input that ends inside
an element or a stored byte, and a stored byte that is there (R135, R201, R338). -/

namespace Sys2Proof

/-! ### One byte -/

theorem readByte_short {c : Cursor} (h : c.bits.length < 8) : readByte c = none := by
  rw [readByte, readBits_of_le (by decide), takeBits_short h]

/-- A byte's own bits are read back as that byte (R61, R135). -/
theorem readByte_byteBits (b : Byte) (pos : Nat) (rest : List Bool) :
    readByte ⟨pos, byteBits b ++ rest⟩ = some (b, ⟨pos + 8, rest⟩) := by
  have hbits : byteBits b = natBits 8 b.toNat := by simpa using byteBits_ofNat b.toNat
  rw [readByte, hbits, readBits_natBits 8 b.toNat pos rest (by decide) b.isLt]
  simp

namespace Machine

/-- At an aligned `bitpos` the byte read is the byte of `SRC` there (R65, R135). -/
theorem readByte_cursor {s : State} {b : Byte} (hal : s.bitpos % 8 = 0)
    (hb : s.src.bytes[s.src.base + s.bitpos / 8]? = some b) :
    ∃ rest, readByte s.cursor = some (b, ⟨s.bitpos + 8, rest⟩) := by
  obtain ⟨hlt, hget⟩ := List.getElem?_eq_some_iff.1 hb
  rw [State.cursor, hal, List.drop_zero, List.drop_eq_getElem_cons hlt, hget, List.flatMap_cons, readByte_byteBits]
  exact ⟨_, rfl⟩

/-! ### Inside an atomic step -/

/-- `s` with reading gone on to `p` and the step at the place `i`; where the step began is noted (entry 1). -/
def State.readOn (p : Nat) (i : InStep) (s : State) : State := { s with bitpos := p, ckpt := s.settled, inStep := i }

@[simp] theorem State.readOn_inStep (p : Nat) (i : InStep) (s : State) : (s.readOn p i).inStep = i := rfl
@[simp] theorem State.readOn_stepDue (p : Nat) (i : InStep) (s : State) : (s.readOn p i).stepDue = s.stepDue := rfl

theorem State.readOn_settled {p : Nat} {i : InStep} (hi : i ≠ .nothing) (s : State) : (s.readOn p i).settled = s.settled := by
  cases i with
  | nothing => exact absurd rfl hi
  | dynHdr h => rfl
  | awaitDist len => rfl

/-- Reading on twice is reading on once. -/
theorem State.readOn_readOn {p q : Nat} {i j : InStep} (hi : i ≠ .nothing) (s : State) :
    (s.readOn p i).readOn q j = s.readOn q j := by
  rw [State.readOn, State.readOn_settled hi]
  rfl

/-- Undoing gives back the step's start, with the note of it (R131). -/
theorem State.readOn_rollback {p : Nat} {i : InStep} {s : State} (hi : i ≠ .nothing) (hn : s.inStep = .nothing) :
    (s.readOn p i).rollback = { s with ckpt := s.bitpos } := by
  rw [State.rollback_eq, State.readOn_settled hi]
  simp only [State.readOn, settled_of_nothing hn, ← hn]

/-- A decoder step that ends inside an atomic step has read on and done nothing else: it was a dynamic header's head, a run of
lengths, or a length symbol. -/
theorem DecoderEffect.readOn {s t : State} (h : DecoderEffect s t) (hi : t.inStep ≠ .nothing) :
    ∃ p, t = s.readOn p t.inStep := by
  cases h with
  | held _ => exact absurd (State.hold_inStep s) hi
  | raised k p c _ => exact absurd (State.raise_inStep k _) hi
  | headerDone _ _ _ _ _ _ _ => exact absurd rfl hi
  | storedDone _ hs _ => exact absurd hs hi
  | storedByte _ _ _ _ hs _ _ => exact absurd hs hi
  | copied _ _ _ _ _ _ hs _ _ _ => exact absurd hs hi
  | element ctx i c t _ _ he =>
    have hread : ∀ j, ({ s.advance c.pos with inStep := j } : State) = s.readOn c.pos j := fun j => by
      rw [State.advance_eq]; rfl
    cases he with
    | stored _ _ hs _ _ => exact absurd hs.2.2 hi
    | fixed _ hs => exact absurd hs.2.2 hi
    | literal _ _ _ _ _ hs => exact absurd hs.2.2 hi
    | eob _ _ _ _ hs => exact absurd hs.2.2 hi
    | distance _ _ _ _ _ _ _ _ _ _ => exact absurd rfl hi
    | raised k _ => exact absurd (State.raise_inStep k _) hi
    | dynamic _ _ _ _ _ _ _ _ => exact ⟨c.pos, hread _⟩
    | lengths _ _ _ _ _ _ _ _ => exact ⟨c.pos, hread _⟩
    | length _ _ _ _ _ _ _ _ => exact ⟨c.pos, hread _⟩

theorem step_readOn {s t : State} (hdue : s.stepDue = true) (h : step s = .next t) (hi : t.inStep ≠ .nothing) :
    ∃ p, t = s.readOn p t.inStep :=
  (decoderStep_effect (step_of_due hdue ▸ h)).readOn hi

theorem ServeEffect.inStep {s t : State} (h : ServeEffect s t) : t.inStep = s.inStep := by
  obtain ⟨bs, rs, c, rfl, -⟩ := h.ex
  rfl

/-- Only a decoder step enters an atomic step. -/
theorem stepDue_of_enters {s t : State} (hn : s.inStep = .nothing) (h : step s = .next t) (hi : t.inStep ≠ .nothing) :
    s.stepDue = true := by
  cases step_effect h with
  | idle _ _ => exact absurd hn hi
  | reset _ _ _ _ _ => exact absurd (State.resetStep_inStep _) hi
  | command _ _ _ _ _ _ he => exact absurd (he.inStep.trans hn) hi
  | serve _ _ _ he => exact absurd (he.inStep.trans hn) hi
  | decoder _ hd _ => exact hd

/-- What holds all through an atomic step: it was due where it began, and since then it has only read on. -/
theorem Within.readOn {s0 u : State} (h : Within s0 u) :
    s0.inStep = .nothing ∧ s0.stepDue = true ∧ ∃ p i, i ≠ .nothing ∧ u = s0.readOn p i := by
  induction h with
  | first hn hstep hi =>
    have hdue := stepDue_of_enters hn hstep hi
    obtain ⟨p, hp⟩ := step_readOn hdue hstep hi
    exact ⟨hn, hdue, p, _, hi, hp⟩
  | later _ hstep hi ih =>
    obtain ⟨hn, hdue, q, j, hj, rfl⟩ := ih
    obtain ⟨p, hp⟩ := step_readOn (State.readOn_stepDue q j s0 ▸ hdue) hstep hi
    exact ⟨hn, hdue, p, _, hi, hp.trans (State.readOn_readOn hj s0)⟩

/-! ### Where the input ends -/

theorem State.starve_of_ended {s : State} (h : s.src.ended = true) : s.starve = s.readOut.raise .unexpectedEndOfInput := by
  rw [State.starve, if_pos h]

theorem State.starve_of_not_ended {s : State} (h : s.src.ended = false) : s.starve = s.hold := by
  simp [State.starve, h]

/-- A due step whose element is not all there starves (R131). -/
theorem step_of_short {s : State} {ctx : Ctx} (hdue : s.stepDue = true) (hctx : s.ctx = some ctx)
    (hshort : decode ctx s.cursor = .short) : step s = .next s.starve := by
  rw [step_of_due hdue, decoderStep_of_ctx hctx, element, hshort]

/-- A due step in a stored block with bytes remaining moves one byte (R201). -/
theorem step_of_stored {s : State} {r : Nat} {f : Bool} (hdue : s.stepDue = true) (hn : s.inStep = .nothing)
    (hblk : s.blk = .uncompressed (r + 1) f) : step s = .next (storedByte r f s) := by
  simp only [step_of_due hdue, decoderStep, hn, hblk]

/-- Settles O47: undoing all that was read gives the start, and a short element is held. -/
theorem heldStepUndone : Obligations.HeldStepUndone := by
  intro s0 u hwithin
  obtain ⟨hn, hdue, p, i, hi, rfl⟩ := hwithin.readOn
  refine ⟨by rw [State.readOn_rollback hi hn], fun ctx hctx hshort hend => ?_⟩
  rw [step_of_short (State.readOn_stepDue p i s0 ▸ hdue) hctx hshort, State.starve_of_not_ended hend, State.hold,
    State.readOn_rollback hi hn]
  rfl

/-- Settles O46: both reads starve, and starving is the error where the source has ended, else the hold. -/
theorem inputMissing : Obligations.InputMissing := by
  intro s hdue
  have of_starve : step s = .next s.starve →
      (s.src.ended = true → step s = .next (s.readOut.raise .unexpectedEndOfInput)) ∧
      (s.src.ended = false → step s = .next s.hold) :=
    fun h => ⟨fun he => by rw [h, State.starve_of_ended he], fun he => by rw [h, State.starve_of_not_ended he]⟩
  refine ⟨fun ctx hctx hshort => of_starve (step_of_short hdue hctx hshort), fun r f hn hblk hlen => of_starve ?_⟩
  rw [step_of_stored hdue hn hblk, storedByte, readByte_short hlen]

end Machine

/-- Settles O48: the byte read is the one at `bitpos`, where the step began. -/
theorem storedByte : Obligations.StoredByte := by
  intro s r f b hdue hn hblk hal hb
  obtain ⟨rest, hread⟩ := Machine.readByte_cursor hal hb
  rw [Machine.step_of_stored hdue hn hblk, Machine.storedByte, hread]
  simp only [Machine.State.advance_eq, Machine.settled_of_nothing hn]

end Sys2Proof
end

section
/-! PROOF. O10: the codes of `canonical` in closed form, and the recurrence of their first codes (R141, R142, R143). -/

namespace Sys2Proof

/-- Codes of length 1 start at 0, since the unused symbols are not counted (R143, D7). -/
theorem firstCode_one (lengths : List Nat) : firstCode lengths 1 = 0 := by
  simp only [firstCode, countLength, if_true, Nat.zero_add, Nat.zero_shiftLeft]

/-- The empty array has no code (R142). -/
theorem canonical_nil : canonical [] = .error .invalidHuffmanCodes :=
  if_pos rfl

/-- Settles O10: the closed form is what the walk of step 3 gives from the first codes of step 2. -/
theorem canonicalCodes : Obligations.CanonicalCodes :=
  ⟨fun _ hne => canonical_codes hne, canonical_nil, firstCode_one, firstCode_succ⟩

end Sys2Proof
end

section
/-! PROOF. O11 to O14: which lengths build a tree, and what the tree decodes (R151 to R155, D8). -/

namespace Sys2Proof

/-! ### The codes that `build` is given -/

/-- The code of a used symbol, in the closed form of `canonical_codes` (R141, R145 a). -/
def codeOf (lengths : List Nat) (sym : Nat) : Nat × Nat :=
  (lengths.getD sym 0, firstCode lengths (lengths.getD sym 0) + (lengths.take sym).count (lengths.getD sym 0))

/-- The used symbols with their codes, in the order of `canonical`. -/
def usedCodes (lengths : List Nat) : List SymCode := (usedSymbols 0 lengths).map fun sym => (sym, codeOf lengths sym)

theorem canonical_eq_usedCodes {lengths : List Nat} (h : lengths ≠ []) : canonical lengths = .ok (usedCodes lengths) :=
  canonical_codes h

/-- The empty array needs no case of its own: it has no codes, and `build` refuses the empty list too (R142, R152). -/
theorem buildReject_eq_build (lengths : List Nat) : buildReject lengths = build (maxLength lengths) (usedCodes lengths) := by
  by_cases h : lengths = []
  · subst h; rfl
  · simp only [buildReject, canonical_eq_usedCodes h]

theorem mem_usedSymbols_zero {lengths : List Nat} {sym : Nat} :
    sym ∈ usedSymbols 0 lengths ↔ sym < lengths.length ∧ lengths.getD sym 0 ≠ 0 := by
  simp [mem_usedSymbols]

theorem usedCodes_length_le {lengths : List Nat} {sc : SymCode} (h : sc ∈ usedCodes lengths) : sc.2.1 ≤ maxLength lengths := by
  obtain ⟨sym, -, rfl⟩ := List.mem_map.1 h
  exact getD_le_maxLength lengths sym

theorem usedSymbols_length_le (sym : Nat) (lengths : List Nat) : (usedSymbols sym lengths).length ≤ lengths.length := by
  induction lengths generalizing sym with
  | nil => exact le_rfl
  | cons L ls ih =>
    have := ih (sym + 1)
    simp only [usedSymbols]
    split <;> simp only [List.length_cons] <;> omega

/-- One code or none is no tree: the empty list is error (a) of R152, and a single code of non-zero length is error (b). -/
theorem buildReject_of_length_le_one {lengths : List Nat} (h : (usedSymbols 0 lengths).length ≤ 1) :
    buildReject lengths = .error .invalidHuffmanCodes := by
  rw [buildReject_eq_build, usedCodes]
  match hu : usedSymbols 0 lengths with
  | [] => simp [build]
  | [sym] =>
    have hused : lengths.getD sym 0 ≠ 0 := (mem_usedSymbols_zero.1 (by rw [hu]; exact List.mem_singleton_self sym)).2
    simp only [List.map_cons, List.map_nil, codeOf, build, if_neg hused]
  | _ :: _ :: _ => simp [hu] at h

/-! ### O11 -/

/-- Settles O11: `path_of_build` and `decodeSym_of_build`, on the codes of `canonical`. -/
theorem builtTreeSpellsCodes : Obligations.BuiltTreeSpellsCodes := by
  intro lengths codes t hcanon hbuild
  have hne : lengths ≠ [] := fun h => by simp [h, canonical_nil] at hcanon
  obtain rfl : usedCodes lengths = codes := by simpa [canonical_eq_usedCodes hne] using hcanon
  constructor
  · intro sym L c hmem
    obtain ⟨s, hs, heq⟩ := List.mem_map.1 hmem
    obtain ⟨hlt, hused⟩ := mem_usedSymbols_zero.1 hs
    simp only [codeOf, Prod.mk.injEq] at heq
    obtain ⟨rfl, rfl, rfl⟩ := heq
    exact path_of_buildReject hbuild hlt hused
  · intro c c' sym hdec
    rw [buildReject_eq_build] at hbuild
    exact decodeSym_of_build hbuild hdec

/-! ### O12 -/

theorem weight_usedCodes (M : Nat) (lengths : List Nat) : weight M (usedCodes lengths) = kraftSum M lengths := by
  simp [weight, usedCodes, codeOf, kraft_eq M 0 lengths, Function.comp_def]

/-- Settles O12: the weight of a list that builds is 1, and one code or none builds nothing. -/
theorem buildNeedsKraftOne : Obligations.BuildNeedsKraftOne := by
  intro lengths t hbuild
  constructor
  · rw [buildReject_eq_build] at hbuild
    rw [← weight_usedCodes]
    exact weight_of_build hbuild _ fun _ => usedCodes_length_le
  · by_contra hfew
    rw [buildReject_of_length_le_one (by omega)] at hbuild
    cases hbuild

/-! ### O13: the codes of each length, as an interval of the `M`-bit strings -/

/-- How many `M`-bit strings begin with a code of length at most `n`: the part of the Kraft sum that lengths up to `n` have. -/
def reached (M : Nat) (lengths : List Nat) : Nat → Nat
  | 0 => 0
  | n + 1 => reached M lengths n + lengths.count (n + 1) * 2 ^ (M - (n + 1))

theorem reached_mono (M : Nat) (lengths : List Nat) : Monotone (reached M lengths) :=
  monotone_nat_of_le_succ fun _ => Nat.le_add_right _ _

theorem kraftSum_eq_reached (lengths : List Nat) :
    kraftSum (maxLength lengths) lengths = reached (maxLength lengths) lengths (maxLength lengths) := by
  have hsum : ∀ M n, ((List.range n).map fun l => lengths.count (l + 1) * 2 ^ (M - (l + 1))).sum = reached M lengths n := by
    intro M n
    induction n with
    | zero => rfl
    | succ n ih => simp [List.range_succ, ih, reached]
  rw [kraft_partial _ _ fun _ => le_maxLength, hsum]

/-- The codes of length `n + 1` begin where the shorter ones end (R141 step 2). -/
theorem firstCode_mul_eq_reached {M n : Nat} (lengths : List Nat) (h : n < M) :
    firstCode lengths (n + 1) * 2 ^ (M - (n + 1)) = reached M lengths n := by
  induction n with
  | zero => simp [firstCode_one, reached]
  | succ n ih =>
    have hpow : 2 ^ (M - (n + 1)) = 2 * 2 ^ (M - (n + 1 + 1)) := by
      rw [← Nat.pow_succ']; congr 1; omega
    rw [reached, ← ih (by omega), firstCode_succ lengths (n + 1) (Nat.succ_pos n), hpow]
    ring

/-- The strings that begin with code number `j` of length `n + 1` lie among those of that length. -/
theorem code_interval {M n j : Nat} {lengths : List Nat} (h : n < M) (hj : j < lengths.count (n + 1)) :
    reached M lengths n ≤ (firstCode lengths (n + 1) + j) * 2 ^ (M - (n + 1)) ∧
    (firstCode lengths (n + 1) + j + 1) * 2 ^ (M - (n + 1)) ≤ reached M lengths (n + 1) := by
  rw [reached, ← firstCode_mul_eq_reached lengths h, ← Nat.add_mul]
  exact ⟨Nat.mul_le_mul_right _ (Nat.le_add_right _ _), Nat.mul_le_mul_right _ (by omega)⟩

/-- A string that begins with a code of length `n + 1` lies among those of that length. -/
theorem reached_of_div_eq {M n j x : Nat} {lengths : List Nat} (h : n < M) (hj : j < lengths.count (n + 1))
    (hx : x / 2 ^ (M - (n + 1)) = firstCode lengths (n + 1) + j) :
    reached M lengths n ≤ x ∧ x < reached M lengths (n + 1) := by
  obtain ⟨hlo, hhi⟩ := code_interval h hj
  rw [← hx] at hlo hhi
  exact ⟨hlo.trans (Nat.div_mul_le_self _ _),
    lt_of_lt_of_le ((Nat.div_lt_iff_lt_mul (Nat.two_pow_pos _)).1 (Nat.lt_succ_self _)) hhi⟩

/-- A string below `reached` at `m` lies among those of one length up to `m`. -/
theorem exists_reached {M m x : Nat} {lengths : List Nat} (h : x < reached M lengths m) :
    ∃ n < m, reached M lengths n ≤ x ∧ x < reached M lengths (n + 1) := by
  induction m with
  | zero => exact absurd h (Nat.not_lt_zero x)
  | succ m ih =>
    by_cases hx : x < reached M lengths m
    · obtain ⟨n, hn, hr⟩ := ih hx
      exact ⟨n, by omega, hr⟩
    · exact ⟨m, Nat.lt_succ_self m, by omega, h⟩

theorem exists_code {M x : Nat} {lengths : List Nat} (h : x < reached M lengths M) :
    ∃ n < M, ∃ j < lengths.count (n + 1), x / 2 ^ (M - (n + 1)) = firstCode lengths (n + 1) + j := by
  obtain ⟨n, hn, hlo, hhi⟩ := exists_reached h
  rw [reached, ← firstCode_mul_eq_reached lengths hn, ← Nat.add_mul, ← Nat.div_lt_iff_lt_mul (Nat.two_pow_pos _)] at hhi
  rw [← firstCode_mul_eq_reached lengths hn, ← Nat.le_div_iff_mul_le (Nat.two_pow_pos _)] at hlo
  exact ⟨n, hn, x / 2 ^ (M - (n + 1)) - firstCode lengths (n + 1), by omega, by omega⟩

/-- The length of a used symbol, and that its number among the symbols of that length is below their count. -/
theorem used_length {M sym : Nat} {lengths : List Nat} (hM : ∀ i, lengths.getD i 0 ≤ M) (hs : sym ∈ usedSymbols 0 lengths) :
    ∃ n < M, lengths.getD sym 0 = n + 1 ∧ (lengths.take sym).count (n + 1) < lengths.count (n + 1) := by
  obtain ⟨hlt, hused⟩ := mem_usedSymbols_zero.1 hs
  obtain ⟨n, hn⟩ := Nat.exists_eq_succ_of_ne_zero hused
  have hcount := take_count_lt lengths sym hlt
  have hle := hM sym
  rw [hn] at hcount hle
  exact ⟨n, hle, hn, hcount⟩

section Complete

variable {M : Nat} {lengths : List Nat} (hM : ∀ i, lengths.getD i 0 ≤ M) (hkraft : reached M lengths M = 2 ^ M)
include hM hkraft

/-- Where the Kraft sum is 1 no code is too big for its length, so the code of a symbol begins a string where its value does. -/
theorem covers_codeOf {x sym : Nat} (hs : sym ∈ usedSymbols 0 lengths) :
    covers M x (sym, codeOf lengths sym) = true ↔ x / 2 ^ (M - (codeOf lengths sym).1) = (codeOf lengths sym).2 := by
  obtain ⟨n, hn, hlen, hcount⟩ := used_length hM hs
  have hfit : firstCode lengths (n + 1) + (lengths.take sym).count (n + 1) < 2 ^ (n + 1) := by
    have hbound := (code_interval hn hcount).2.trans (reached_mono M lengths hn)
    rw [hkraft, ← pow_mul_pow_sub 2 (Nat.succ_le_of_lt hn)] at hbound
    exact Nat.le_of_mul_le_mul_right hbound (Nat.two_pow_pos _)
  simp only [covers, codeOf, hlen, Nat.succ_le_of_lt hn, decide_true, Bool.true_and, decide_eq_true_eq, Nat.mod_eq_of_lt hfit]

/-- Where the Kraft sum is 1, each string begins with the code of exactly one symbol. -/
theorem exists_covering_symbol {x : Nat} (hx : x < 2 ^ M) :
    ∃ sym ∈ usedSymbols 0 lengths, ∀ s ∈ usedSymbols 0 lengths, covers M x (s, codeOf lengths s) = true ↔ s = sym := by
  obtain ⟨n, hn, j, hj, hdiv⟩ := exists_code (hkraft ▸ hx)
  obtain ⟨sym, hlt, hlen, hcount⟩ := nth_occurrence lengths (n + 1) j hj
  have hsym : sym ∈ usedSymbols 0 lengths := mem_usedSymbols_zero.2 ⟨hlt, by omega⟩
  refine ⟨sym, hsym, fun s hs => ⟨fun hcov => ?_, ?_⟩⟩
  · obtain ⟨n', hn', hlen', hj'⟩ := used_length hM hs
    have hdiv' := (covers_codeOf hM hkraft hs).1 hcov
    simp only [codeOf, hlen'] at hdiv'
    obtain ⟨hlo, hhi⟩ := reached_of_div_eq hn hj hdiv
    obtain ⟨hlo', hhi'⟩ := reached_of_div_eq hn' hj' hdiv'
    obtain rfl : n' = n := by
      have h1 := (reached_mono M lengths).reflect_lt (hlo.trans_lt hhi')
      have h2 := (reached_mono M lengths).reflect_lt (hlo'.trans_lt hhi)
      omega
    refine take_count_inj lengths s sym (mem_usedSymbols_zero.1 hs).1 hlt (by omega) ?_
    rw [hlen, hlen']
    omega
  · rintro rfl
    rw [covers_codeOf hM hkraft hs]
    simp only [codeOf, hlen, hcount, hdiv]

theorem covering_usedCodes_length {x : Nat} (hx : x < 2 ^ M) : ((usedCodes lengths).filter (covers M x)).length = 1 := by
  obtain ⟨sym, hsym, hcov⟩ := exists_covering_symbol hM hkraft hx
  have hfilter : (usedSymbols 0 lengths).filter (covers M x ∘ fun s => (s, codeOf lengths s)) =
      (usedSymbols 0 lengths).filter (· == sym) :=
    List.filter_congr fun s hs => by rw [Bool.eq_iff_iff, beq_iff_eq]; exact hcov s hs
  rw [usedCodes, List.filter_map, List.length_map, hfilter, ← List.countP_eq_length_filter]
  exact List.count_eq_one_of_mem (usedSymbols_nodup 0 lengths) hsym

end Complete

/-- Settles O13: the codes share out the strings of `maxLength` bits, each to one code (`build_of_cover`). -/
theorem kraftOneBuilds : Obligations.KraftOneBuilds := by
  intro lengths hkraft _
  rw [kraftSum_eq_reached] at hkraft
  rw [buildReject_eq_build]
  exact build_of_cover _ _ le_rfl _ (fun _ => usedCodes_length_le) fun _ =>
    covering_usedCodes_length (getD_le_maxLength lengths) hkraft

/-! ### O14 -/

theorem buildTable_zeroBitLeaf_of_single {lengths : List Nat} {sym : Nat} (h : usedSymbols 0 lengths = [sym]) :
    buildTable .zeroBitLeaf lengths = .ok (.leaf sym) := by
  simp only [buildTable, h]

/-- Where there is not exactly one code, nor an array of size 1, the policies agree (R154; entry 14). -/
theorem buildTable_zeroBitLeaf_of_not_single {lengths : List Nat} (h : (usedSymbols 0 lengths).length ≠ 1)
    (hsize : lengths.length ≠ 1) : buildTable .zeroBitLeaf lengths = buildReject lengths := by
  simp only [buildTable, if_neg hsize]
  split
  · next sym hu => simp [hu] at h
  · rfl

/-- Settles O14: by the number of used symbols. -/
theorem singleCodePolicies : Obligations.SingleCodePolicies := by
  refine ⟨fun lengths hfew => buildReject_of_length_le_one hfew, fun lengths sym => buildTable_zeroBitLeaf_of_single,
    fun lengths hnone hsize => ?_, fun lengths hmany => ?_, fun p lengths k => buildTable_error, fun sym c => rfl⟩
  · rw [buildTable_zeroBitLeaf_of_not_single (by simp [hnone]) hsize]
    exact buildReject_of_length_le_one (by simp [hnone])
  · have hsize := usedSymbols_length_le 0 lengths
    exact buildTable_zeroBitLeaf_of_not_single (by omega) (by omega)

end Sys2Proof
end

section
/-! PROOF. O15, O18 and O19: one put, a copy in two parts, and the bytes a copy-out delivers (R161, R204, R166). -/

namespace Sys2Proof.Machine

/-- Settles O15: the cells are those of one memory write; the counters are `put`'s fields. -/
theorem windowPut : Obligations.WindowPut := by
  intro cap b w
  refine ⟨?_, fun a ha => ?_, Window.put_wpos cap b w, Window.put_written cap b w, Window.put_avail cap b w⟩
  · rw [Window.put_cells, Memory.read_write_same]
  · rw [Window.put_cells, Memory.read_write_other _ _ _ _ ha]

/-- A run copies its first byte, then the rest in the window with that byte (R165). -/
theorem Window.selfCopyRun_succ (cap d k : Nat) (w : Window) :
    w.selfCopyRun cap d (k + 1) = (w.selfCopyByte cap d).bind (Window.selfCopyRun cap d k) := by
  rw [Window.selfCopyRun]
  cases w.selfCopyByte cap d <;> rfl

/-- Settles O18: by induction on the length of the first part; its first byte is also the first byte of the whole. -/
theorem selfCopySplits : Obligations.SelfCopySplits := by
  intro cap d a b w
  induction a generalizing w with
  | zero => rw [Nat.zero_add, Window.selfCopyRun, Option.bind_some]
  | succ a ih =>
    rw [Nat.add_right_comm, Window.selfCopyRun_succ, Window.selfCopyRun_succ, Option.bind_assoc]
    exact congrArg _ (funext ih)

/-- Each of the oldest undelivered bytes is among the last `AVAIL` bytes put (R29). -/
theorem Window.Oldest.exists_byteBack {cap : Nat} {w : Window} {bs : List Byte} {b : Byte} (h : w.Oldest cap bs)
    (hlen : bs.length ≤ w.avail) (hb : b ∈ bs) : ∃ d, 1 ≤ d ∧ d ≤ w.avail ∧ w.byteBack cap d = some b := by
  obtain ⟨i, hi, rfl⟩ := List.mem_iff_getElem.1 hb
  exact ⟨w.avail - i, by omega, Nat.sub_le _ _, by rw [← h i hi, List.getElem?_eq_getElem hi]⟩

/-- Settles O19: a copy-out within `AVAIL` delivers the oldest bytes, and each of those is one of the last `AVAIL`. -/
theorem copyOutOldestFirst : Obligations.CopyOutOldestFirst := by
  intro cap k w h hk
  obtain ⟨bs, hout, hlen, hold⟩ := Window.copyOut_exists h hk
  exact ⟨bs, hout, hlen, hold, fun b => hold.exists_byteBack (hlen.trans_le hk)⟩

end Sys2Proof.Machine
end

section
/-! PROOF. O20, O22, O23, O25: what each block header does where a header is due (R177 to R183, R192). -/

namespace Sys2Proof

/-- A table that builds no tree raises the one error of a table (R153, R192). -/
theorem buildTable_of_not_ok {p : SingleCodePolicy} {ls : List Nat} (h : ∀ t, buildTable p ls ≠ .ok t) :
    buildTable p ls = .error .invalidHuffmanCodes := by
  cases hb : buildTable p ls with
  | ok t => exact absurd hb (h t)
  | error k => rw [buildTable_error hb]

/-- `LEN` is the bitwise complement of `NLEN` exactly where the two numbers add up to `0xFFFF` (R177). -/
theorem eq_complement_iff (len nlen : BitVec 16) : len = ~~~nlen ↔ len.toNat = 0xFFFF - nlen.toNat := by
  rw [← BitVec.toNat_inj, BitVec.toNat_not]

namespace Machine

/-- Settles O20: the test of the two length fields, as a test of numbers. -/
theorem storedHeader : Obligations.StoredHeader := by
  intro s final len nlen h
  have hexec : exec (.blkStored final len nlen) s =
      if len = ~~~nlen then .next { s with blk := .uncompressed len.toNat final }
      else .next (s.raise .nonMatchingLengthFields) := State.onHeader_at h _
  have hcompl := eq_complement_iff len nlen
  rw [hexec]
  exact ⟨fun heq => if_pos (hcompl.2 heq), fun hne => if_neg (mt hcompl.1 hne)⟩

/-- Settles O22: BTYPE 1 ends the header, and the trees held as constants are those the fixed lengths build. -/
theorem fixedHeader : Obligations.FixedHeader := by
  refine ⟨fun final pos rest => decodeHeader_bits pos final true false rest, fun s final h => ?_⟩
  exact ⟨fixedLitlenTree, fixedDistTree, buildReject_fixedLitlenLengths, buildReject_fixedDistLengths, State.onHeader_at h _⟩

/-- Settles O23: BTYPE 3 ends the header, and its meaning is the error. -/
theorem reservedHeader : Obligations.ReservedHeader := fun _ final pos rest =>
  ⟨decodeHeader_bits pos final true true rest, fun h => State.onHeader_at h _⟩

/-- Settles O25: by whether the code-length table builds; one that does not has the one error of a table. -/
theorem dynamicHeader : Obligations.DynamicHeader := by
  intro s final hlit hdist cls h
  have hexec : exec (.blkDynamic final hlit hdist cls) s = execBlkDynamic final hlit hdist cls s := rfl
  rw [hexec, execBlkDynamic, State.onHeader_at h]
  refine ⟨fun t hbuilt => ?_, fun hnone => ?_⟩
  · rw [hbuilt]; rfl
  · rw [buildTable_of_not_ok hnone]

end Machine
end Sys2Proof
end

section
/-! PROOF. O26, O27: the lengths of a dynamic header as they are read, and its end (R184 to R190). -/

namespace Sys2Proof.Machine

/-- A run is appended where it fits in `TOTAL` (R189). -/
theorem appendRun_eq (h : DynHdr) (r v : Nat) (prev : Option Nat) (s : State) :
    appendRun h r v prev s =
      if h.lens.length + r ≤ h.hlit + h.hdist then s.lengths h (h.lens ++ List.replicate r v) prev
      else s.raise .invalidHuffmanCodes := by
  by_cases hfit : h.lens.length + r ≤ h.hlit + h.hdist
  · rw [if_pos hfit]; exact if_neg (Nat.not_lt.2 hfit)
  · rw [if_neg hfit]; exact if_pos (Nat.not_le.1 hfit)

/-- `PREV` after a zero run is the value that the policy in force names (D12). -/
theorem prevAfterZeroRun_eq {policy : Rep16Policy} {old prev : Option Nat} (hfault : policy = .fault → prev = none)
    (hkeep : policy = .keepLiteral → prev = old) (hzero : policy = .zero → prev = some 0) :
    prevAfterZeroRun policy old = prev := by
  cases policy with
  | fault => exact (hfault rfl).symm
  | keepLiteral => exact (hkeep rfl).symm
  | zero => exact (hzero rfl).symm

/-- Settles O26: each element is a run of R189 (or one length, or the error of symbol 16), with its own value and `PREV`. -/
theorem codeLengthSymbols : Obligations.CodeLengthSymbols := by
  intro s h hat
  have hrep16 : ∀ e, exec (.clRep16 e) s = execClRep16 e s := fun _ => rfl
  refine ⟨fun v => State.onLengths_at hat _, fun e hnone => ?_, fun e p hprev => ?_, fun prev hfault hkeep hzero => ?_⟩
  · rw [hrep16, execClRep16, State.onLengths_at hat, hnone]
  · rw [hrep16, execClRep16, State.onLengths_at hat, hprev, ← appendRun_eq]
    rfl
  · simp only [← appendRun_eq, ← prevAfterZeroRun_eq hfault hkeep hzero]
    exact ⟨fun e => State.onLengths_at hat _, fun e => State.onLengths_at hat _⟩

/-- Where all lengths are there, the due step is the end of the header (R190). -/
theorem step_of_lengths_complete {s : State} {h : DynHdr} (hdue : s.stepDue = true) (hin : s.inStep = .dynHdr h)
    (hlen : h.hlit + h.hdist ≤ h.lens.length) : step s = .next (finishHeader h s) := by
  simp only [step_of_due hdue, decoderStep, hin]
  exact if_neg (Nat.not_lt.2 hlen)

theorem finishHeader_of_ok {s : State} {h : DynHdr} {lt dt : Tree}
    (hlt : buildTable s.params.singleCode (h.lens.take h.hlit) = .ok lt)
    (hdt : buildTable s.params.singleCode ((h.lens.drop h.hlit).take h.hdist) = .ok dt) :
    finishHeader h s = { s with blk := .huffman lt dt 0 none h.final, inStep := .nothing } := by
  rw [finishHeader, hlt, hdt]

/-- Whichever table does not build, the error is that of a table (R190, R192). -/
theorem finishHeader_of_not_ok {s : State} {h : DynHdr}
    (hnone : (∀ lt, buildTable s.params.singleCode (h.lens.take h.hlit) ≠ .ok lt) ∨
      (∀ dt, buildTable s.params.singleCode ((h.lens.drop h.hlit).take h.hdist) ≠ .ok dt)) :
    finishHeader h s = s.raise .invalidHuffmanCodes := by
  unfold finishHeader
  split
  · next lt dt hlt hdt => exact absurd hnone (by simp [hlt, hdt])
  · next k hk => rw [buildTable_error hk]
  · next k _ hk => rw [buildTable_error hk]

/-- Settles O27: the due step is `finishHeader`, by whether both tables build. -/
theorem dynamicHeaderEnd : Obligations.DynamicHeaderEnd := by
  intro s h hdue hin hlen
  rw [step_of_lengths_complete hdue hin hlen]
  exact ⟨fun _ _ hlt hdt => by rw [finishHeader_of_ok hlt hdt], fun hnone => by rw [finishHeader_of_not_ok hnone]⟩

end Sys2Proof.Machine
end

section
/-! PROOF. O55: the changes of `STATE`, named, and which of them each effect of `step_effect` is (R239). -/

namespace Sys2Proof.Machine

/-- What a step from `s` that latches no error and is no reset leaves in `STATE` (R239). -/
inductive BlockChange (s : State) : BlockState → Prop
  | same : BlockChange s s.blk
  | storedBegins (len : Nat) (f : Bool) (hs : s.blk = .header) (hlen : len < 65536) : BlockChange s (.uncompressed len f)
  | huffmanBegins (lt dt : Tree) (f : Bool) (hs : s.blk = .header) : BlockChange s (.huffman lt dt 0 none f)
  | storedByte (r : Nat) (f : Bool) (hs : s.blk = .uncompressed (r + 1) f) : BlockChange s (.uncompressed r f)
  | storedEnds (f : Bool) (hs : s.blk = .uncompressed 0 f) : BlockChange s (afterBlock f)
  | copyLoaded (lt dt : Tree) (old : Option Nat) (len d : Nat) (f : Bool) (hs : s.blk = .huffman lt dt 0 old f)
      (hlen : 3 ≤ len ∧ len ≤ 258) (hd : 1 ≤ d ∧ d ≤ s.window.written) : BlockChange s (.huffman lt dt len (some d) f)
  | copied (lt dt : Tree) (p d : Nat) (f : Bool) (hs : s.blk = .huffman lt dt p (some d) f) (hk : 0 < min p s.need) :
      BlockChange s (.huffman lt dt (p - min p s.need) (if p - min p s.need = 0 then none else some d) f)
  | huffmanEnds (lt dt : Tree) (old : Option Nat) (f : Bool) (hs : s.blk = .huffman lt dt 0 old f) :
      BlockChange s (afterBlock f)

/-- Of the elements, a header's head, the end of a block and a distance change `STATE`; a raise is left out. -/
theorem element_blockChange {s t : State} {i : Instr} {p : Nat} (h : s.Inv) (ht : ElementEffect i (s.advance p) t)
    (herr : t.err = none) : BlockChange s t.blk := by
  have unchanged : BlockChange s (s.advance p).blk := (State.advance_blk p s).symm ▸ .same
  have blk_eq {b : BlockState} (hb : (s.advance p).blk = b) : s.blk = b := (State.advance_blk p s).symm.trans hb
  cases ht with
  | stored r f hs hr _ => exact .storedBegins r f (blk_eq hs.2.1) hr
  | fixed f hs => exact .huffmanBegins _ _ f (blk_eq hs.2.1)
  | eob lt dt o f hs => exact .huffmanEnds lt dt o f (blk_eq hs.2.1)
  | distance ds e len lt dt o f hs h1 h2 =>
    obtain ⟨-, hb, hn⟩ := hs
    rw [State.advance_inStep] at hn
    rw [State.advance_window] at h2
    obtain ⟨-, -, hlen⟩ := (inStepInv_awaitDist_iff hn (blk_eq hb)).1 (State.inv_iff.1 h).2.2.1
    exact .copyLoaded lt dt o len _ f (blk_eq hb) hlen ⟨h1, h2⟩
  | raised k _ => simp at herr
  | dynamic _ _ _ _ _ _ _ _ => exact unchanged
  | lengths _ _ _ _ _ _ _ _ => exact unchanged
  | literal _ _ _ _ _ _ => exact unchanged
  | length _ _ _ _ _ _ _ _ => exact unchanged

theorem decoder_blockChange {s t : State} (h : s.Inv) (hd : s.demanded = true) (ht : DecoderEffect s t)
    (herr : t.err = none) : BlockChange s t.blk := by
  cases ht with
  | held _ => exact (State.hold_blk s).symm ▸ .same
  | raised k p c _ => simp at herr
  | element ctx i c t _ _ he => exact element_blockChange h he herr
  | headerDone d lt dt hs _ _ _ =>
    exact .huffmanBegins lt dt d.final ((inStepInv_dynHdr_iff hs).1 (State.inv_iff.1 h).2.2.1).1
  | storedDone f _ hb => exact .storedEnds f hb
  | storedByte r f _ _ _ hb _ => exact .storedByte r f hb
  | copied lt dt p d f w _ hb _ _ =>
    have hneed : 0 < s.need := Nat.sub_pos_of_lt (State.demanded_iff.1 hd).2
    exact .copied lt dt (p + 1) d f hb (by omega)

theorem step_blockChange {s t : State} (h : s.Inv) (hstep : step s = .next t) (herr : t.err = none)
    (hreset : s.takesReset = false) : BlockChange s t.blk := by
  cases step_effect hstep with
  | idle _ _ => exact .same
  | reset w rest hc hq h3 => simp [(takesReset_iff hc hq).2 h3] at hreset
  | command w rest t _ _ _ he => exact he.keeps.blk ▸ .same
  | serve t _ _ he => exact he.keeps.blk ▸ .same
  | decoder t hd he => exact decoder_blockChange h (due_facts hd).1 he herr

/-- Settles O55: the eight changes of `BlockChange`, in the statement's order. -/
theorem blockTransitions : Obligations.BlockTransitions := by
  intro s t h hstep _ herr hreset
  have hchange := step_blockChange h hstep herr hreset
  generalize t.blk = b at hchange ⊢
  cases hchange with
  | same => exact .inl rfl
  | storedBegins len f hs hlen => exact .inr <| .inl ⟨hs, len, f, hlen, rfl⟩
  | huffmanBegins lt dt f hs => exact .inr <| .inr <| .inl ⟨hs, lt, dt, f, rfl⟩
  | storedByte r f hs => exact .inr <| .inr <| .inr <| .inl ⟨r, f, hs, rfl⟩
  | storedEnds f hs => exact .inr <| .inr <| .inr <| .inr <| .inl ⟨f, hs, rfl⟩
  | copyLoaded lt dt old len d f hs hlen hd =>
    exact .inr <| .inr <| .inr <| .inr <| .inr <| .inl ⟨lt, dt, old, len, d, f, hs, rfl, hlen.1, hlen.2, hd.1, hd.2⟩
  | copied lt dt p d f hs hk =>
    refine .inr <| .inr <| .inr <| .inr <| .inr <| .inr <| .inl ⟨lt, dt, p, d, _, f, hs, hk, rfl, ?_⟩
    simp only [Nat.sub_eq_zero_iff_le]
  | huffmanEnds lt dt old f hs => exact .inr <| .inr <| .inr <| .inr <| .inr <| .inr <| .inr ⟨lt, dt, old, f, hs, rfl⟩

end Sys2Proof.Machine
end

section
/-! PROOF. O49, O50, O59: a stored block that is done, a pending copy, and what a step produces at most (R200, R202, R204, R302). -/

namespace Sys2Proof
namespace Machine

/-! ### The body steps that read nothing -/

theorem step_of_stored_done {s : State} {f : Bool} (hdue : s.stepDue = true) (hn : s.inStep = .nothing)
    (hblk : s.blk = .uncompressed 0 f) : step s = .next (storedDone f s) := by
  simp only [step_of_due hdue, decoderStep, hn, hblk]

/-- A due step with a copy pending is the pending copy (R204). -/
theorem step_of_pending {s : State} {lt dt : Tree} {len : Nat} {o : Option Nat} {f : Bool} (hdue : s.stepDue = true)
    (hn : s.inStep = .nothing) (hblk : s.blk = .huffman lt dt len o f) (hlen : 0 < len) :
    step s = pendingCopy lt dt len o f s := by
  obtain ⟨p, rfl⟩ := Nat.exists_eq_add_one_of_ne_zero hlen.ne'
  simp only [step_of_due hdue, decoderStep, hn, hblk]

/-- The bytes a pending copy moves are all there, and they do not pass the target (R164, R200). -/
theorem pendingCopy_run_exists {s : State} {lt dt : Tree} {len d : Nat} {f : Bool} (h : s.Inv) (hd : s.demanded = true)
    (hblk : s.blk = .huffman lt dt len (some d) f) :
    d ≠ 0 ∧ ∃ w, s.window.selfCopyRun Config.cap d (min len s.need) = some w ∧ w.avail ≤ s.target := by
  obtain ⟨hinv, -, -, -⟩ := State.inv_iff.1 h
  obtain ⟨-, -, hb⟩ := h.of_demanded hd
  obtain ⟨-, -, -, -, h1, h2⟩ := blockInv_huffman_some_iff.1 (hblk ▸ hb)
  have hroom : s.window.avail + min len s.need ≤ s.target := by
    have := (State.demanded_iff.1 hd).2
    unfold State.need
    omega
  obtain ⟨w, hrun, -, havail, -, -⟩ := Window.selfCopyRun_exists _ hinv h1 h2 (hroom.trans (State.target_le h))
  exact ⟨by omega, w, hrun, havail ▸ hroom⟩

/-! ### What a step produces -/

/-- An element puts one byte at most, and a decoder step is demanded only below the target. -/
theorem element_avail_le_target {s t : State} {i : Instr} {p : Nat} (hd : s.demanded = true)
    (ht : ElementEffect i (s.advance p) t) : t.window.avail ≤ s.target := by
  have hlt := (State.demanded_iff.1 hd).2
  cases ht with
  | literal b _ _ _ _ _ => simpa using hlt
  | raised k _ => simpa using hlt.le
  | _ => simpa using hlt.le

theorem decoder_avail_le_target {s t : State} (h : s.Inv) (hd : s.demanded = true) (ht : DecoderEffect s t) :
    t.window.avail ≤ s.target := by
  have hlt := (State.demanded_iff.1 hd).2
  cases ht with
  | held _ => simpa using hlt.le
  | raised k p c _ => simpa using hlt.le
  | element ctx i c t _ _ he => exact element_avail_le_target hd he
  | headerDone _ _ _ _ _ _ _ => exact hlt.le
  | storedDone _ _ _ => exact hlt.le
  | storedByte _ _ _ _ _ _ _ => exact hlt
  | copied lt dt p d f w _ hb _ hw =>
    obtain ⟨-, w', hrun, hle⟩ := pendingCopy_run_exists h hd hb
    obtain rfl : w = w' := Option.some.inj (hw.symm.trans hrun)
    exact hle

/-- Serving moves bytes from the window to `OUT` and produces none. -/
theorem ServeEffect.produced {s t : State} (h : ServeEffect s t) : t.produced = s.produced := by
  obtain ⟨bs, rs, c, rfl, hbs, -⟩ := h.ex
  simp only [State.produced, List.length_append]
  omega

/-- Settles O59: a due step is the decoder's, which stops at the target; any other step only serves. -/
theorem noByteTooMany : Obligations.NoByteTooMany := by
  intro s t h hstep hreset
  refine ⟨fun hdue => ?_, fun hnot => ?_⟩
  · have hd := (due_facts hdue).1
    have heffect : DecoderEffect s t := decoderStep_effect (step_of_due hdue ▸ hstep)
    have hgrow := decoder_grows h hd heffect
    have hle := decoder_avail_le_target h hd heffect
    refine ⟨hgrow.avail, hle, State.target_le h, hgrow.out, ?_⟩
    rw [State.produced, State.produced, State.need, hgrow.out]
    omega
  · cases step_effect hstep with
    | idle _ _ => exact ⟨rfl, rfl, rfl, rfl⟩
    | reset w rest hc hq h3 => simp [(takesReset_iff hc hq).2 h3] at hreset
    | command w rest t _ _ _ he => exact ⟨he.keeps.bitpos, he.keeps.src, he.keeps.cells, he.produced⟩
    | serve t _ _ he => exact ⟨he.keeps.bitpos, he.keeps.src, he.keeps.cells, he.produced⟩
    | decoder t hdue _ => simp [hdue] at hnot

end Machine

/-- Settles O49: the completion step is `afterBlock`. -/
theorem storedDone : Obligations.StoredDone := fun _ _ hdue hn hblk => Machine.step_of_stored_done hdue hn hblk

/-- Settles O50: the run exists, and the copy is over exactly where `need` reaches its length. -/
theorem pendingCopy : Obligations.PendingCopy := by
  intro s lt dt len d f h hdue hn hblk hlen
  obtain ⟨hd, w, hrun, -⟩ := Machine.pendingCopy_run_exists h (Machine.due_facts hdue).1 hblk
  have hover : len - min len s.need = 0 ↔ len ≤ s.need := by omega
  refine ⟨w, hrun, ?_⟩
  rw [Machine.step_of_pending hdue hn hblk hlen]
  simp only [Machine.pendingCopy, if_neg hd, hrun, hover]
  rfl

end Sys2Proof
end

section
/-! PROOF. O28 and O31: the literal/length symbols that have no extra field (R205, R206, R237, R238). -/

namespace Sys2Proof

/-- A symbol without an extra field selects its row with no further bit read (R102, R120). -/
theorem decodeSymbol_of_no_extra {t : Tree} {width : Nat → Nat} {row : Nat → Nat → Option Instr} {c c' : Cursor} {sym : Nat}
    {i : Instr} (h : decodeSym t c = some (sym, c')) (hwidth : width sym = 0) (hrow : row sym 0 = some i) :
    decodeSymbol t width row c = .instr i c' := by
  have hextra : readBits (width sym) c' = some (0, c') := by rw [hwidth]; rfl
  simp only [decodeSymbol, h, hextra, hrow]

namespace Machine

/-- Settles O28: the rows of the symbols up to 256, and their meanings where a symbol is due. -/
theorem literalAndEob : Obligations.LiteralAndEob := by
  refine ⟨fun t c c' sym h hlt => ?_, fun t c c' h => decodeSymbol_of_no_extra h rfl rfl, fun s lt dt dist final hs => ?_⟩
  · exact decodeSymbol_of_no_extra h (if_pos (by omega)) (if_pos hlt)
  · have heob : exec .eob s = .next { s with blk := afterBlock final } := State.onSymbol_at hs _
    exact ⟨fun b => State.onSymbol_at hs _, fun hf => by simp [heob, afterBlock, hf], fun hf => by simp [heob, afterBlock, hf]⟩

/-- Settles O31: the rows of the two symbols, and their meanings where a symbol is due. -/
theorem invalidLengthSymbols : Obligations.InvalidLengthSymbols :=
  ⟨fun _ _ _ h => decodeSymbol_of_no_extra h rfl rfl, fun _ _ _ h => decodeSymbol_of_no_extra h rfl rfl,
    fun _ _ _ _ _ hs => ⟨State.onSymbol_at hs _, State.onSymbol_at hs _⟩⟩

end Machine
end Sys2Proof
end

section
/-! PROOF. O32: distance symbols 30 and 31, which this spec rejects (R281, R282, D10). -/

namespace Sys2Proof.Machine

/-- Settles O32: neither symbol has an extra field, and each one's meaning where a distance is due is the raise. -/
theorem invalidDistanceSymbols : Obligations.InvalidDistanceSymbols :=
  ⟨fun _ _ _ h => decodeSymbol_of_no_extra h rfl rfl, fun _ _ _ h => decodeSymbol_of_no_extra h rfl rfl,
    fun _ _ _ _ _ _ hs => ⟨State.onDistance_at hs _, State.onDistance_at hs _⟩⟩

end Sys2Proof.Machine
end

section
/-! PROOF. O33: each guard runs its meaning exactly where its kind of element is due (R303, R183, R207). -/

namespace Sys2Proof.Machine

/-- Where each kind of element is read (R303), as a proposition. -/
inductive Due (s : State) : Format → Prop
  | header (hs : s.AtHeader) : Due s .blkhdr
  | lengths (h : DynHdr) (hs : s.AtLengths h) : Due s .clsym
  | symbol (lt dt : Tree) (o : Option Nat) (f : Bool) (hs : s.AtSymbol lt dt o f) : Due s .litlen
  | distance (len : Nat) (lt dt : Tree) (o : Option Nat) (f : Bool) (hs : s.AtDistance len lt dt o f) : Due s .dist

theorem expects_eq_some_iff {s : State} {k : Format} : s.expects = some k ↔ Due s k := by
  constructor
  · intro h
    unfold State.expects at h
    split at h
    · next hd hb hn => cases h; exact .header ⟨hd, hb, hn⟩
    · next d hd hb hn =>
      split at h
      · next hl => cases h; exact .lengths d ⟨hd, hb, hn, hl⟩
      · cases h
    · next lt dt o f hd hb hn => cases h; exact .symbol lt dt o f ⟨hd, hb, hn⟩
    · next lt dt o f len hd hb hn => cases h; exact .distance len lt dt o f ⟨hd, hb, hn⟩
    · cases h
  · rintro (⟨hd, hb, hn⟩ | ⟨d, hd, hb, hn, hl⟩ | ⟨lt, dt, o, f, hd, hb, hn⟩ | ⟨len, lt, dt, o, f, hd, hb, hn⟩)
    · simp [State.expects, hd, hb, hn]
    · simp [State.expects, hd, hb, hn, hl]
    · simp [State.expects, hd, hb, hn]
    · simp [State.expects, hd, hb, hn]

/-- A meaning of the kind `k` runs where that kind is due, and is out of place elsewhere (entry 12). -/
def RunsWhereDue (s : State) (k : Format) (r : Result) : Prop :=
  (s.expects = some k → ∃ t, r = .next t) ∧ (s.expects ≠ some k → r = .fault .elementOutOfPlace)

theorem State.onHeader_runsWhereDue {s : State} {r : Result} (hr : ∃ t, r = .next t) :
    RunsWhereDue s .blkhdr (s.onHeader r) := by
  refine ⟨fun he => ?_, fun he => ?_⟩
  · cases expects_eq_some_iff.1 he with
    | header hs => rwa [State.onHeader_at hs]
  · unfold State.onHeader
    split
    · next hd hb hn => exact absurd (expects_eq_some_iff.2 (.header ⟨hd, hb, hn⟩)) he
    · rfl

theorem State.onLengths_runsWhereDue {s : State} {r : DynHdr → Result} (hr : ∀ d, ∃ t, r d = .next t) :
    RunsWhereDue s .clsym (s.onLengths r) := by
  refine ⟨fun he => ?_, fun he => ?_⟩
  · cases expects_eq_some_iff.1 he with
    | lengths d hs => rw [State.onLengths_at hs]; exact hr d
  · unfold State.onLengths
    split
    · next d hd hb hn =>
      split
      · next hl => exact absurd (expects_eq_some_iff.2 (.lengths d ⟨hd, hb, hn, hl⟩)) he
      · rfl
    · rfl

theorem State.onSymbol_runsWhereDue {s : State} {r : Bool → Result} (hr : ∀ f, ∃ t, r f = .next t) :
    RunsWhereDue s .litlen (s.onSymbol r) := by
  refine ⟨fun he => ?_, fun he => ?_⟩
  · cases expects_eq_some_iff.1 he with
    | symbol lt dt o f hs => rw [State.onSymbol_at hs]; exact hr f
  · unfold State.onSymbol
    split
    · next lt dt o f hd hb hn => exact absurd (expects_eq_some_iff.2 (.symbol lt dt o f ⟨hd, hb, hn⟩)) he
    · rfl

theorem State.onDistance_runsWhereDue {s : State} {r : Nat → Tree → Tree → Bool → Result}
    (hr : ∀ len lt dt f, ∃ t, r len lt dt f = .next t) : RunsWhereDue s .dist (s.onDistance r) := by
  refine ⟨fun he => ?_, fun he => ?_⟩
  · cases expects_eq_some_iff.1 he with
    | distance len lt dt o f hs => rw [State.onDistance_at hs]; exact hr len lt dt f
  · unfold State.onDistance
    split
    · next lt dt o f len hd hb hn => exact absurd (expects_eq_some_iff.2 (.distance len lt dt o f ⟨hd, hb, hn⟩)) he
    · rfl

theorem lengthCode_runsWhereDue (idx e : Nat) (s : State) : RunsWhereDue s .litlen (lengthCode idx e s) :=
  State.onSymbol_runsWhereDue fun _ => ⟨_, rfl⟩

/-- A distance beyond `WRITTEN` is no stop: it raises (R283). -/
theorem distanceCode_runsWhereDue (ds e : Nat) (s : State) : RunsWhereDue s .dist (distanceCode ds e s) := by
  refine State.onDistance_runsWhereDue fun len lt dt f => ?_
  split
  · exact ⟨_, rfl⟩
  · exact ⟨_, rfl⟩

/-- Every element's meaning is one of the four guards around an answer that never stops. -/
theorem exec_runsWhereDue (s : State) {i : Instr} (hi : i.tableValue.1 ≠ .hostcmd) :
    RunsWhereDue s i.tableValue.1 (exec i s) := by
  cases i
  case blkStored f len nlen =>
    refine State.onHeader_runsWhereDue ?_
    split
    · exact ⟨_, rfl⟩
    · exact ⟨_, rfl⟩
  case blkFixed f => exact State.onHeader_runsWhereDue ⟨_, rfl⟩
  case blkDynamic f hlit hdist cls =>
    refine State.onHeader_runsWhereDue ?_
    split
    · exact ⟨_, rfl⟩
    · exact ⟨_, rfl⟩
  case blkReserved f => exact State.onHeader_runsWhereDue ⟨_, rfl⟩
  case clLen v => exact State.onLengths_runsWhereDue fun _ => ⟨_, rfl⟩
  case clRep16 e =>
    refine State.onLengths_runsWhereDue fun d => ?_
    split
    · exact ⟨_, rfl⟩
    · exact ⟨_, rfl⟩
  case clZero17 e => exact State.onLengths_runsWhereDue fun _ => ⟨_, rfl⟩
  case clZero18 e => exact State.onLengths_runsWhereDue fun _ => ⟨_, rfl⟩
  case literal b => exact State.onSymbol_runsWhereDue fun _ => ⟨_, rfl⟩
  case eob => exact State.onSymbol_runsWhereDue fun _ => ⟨_, rfl⟩
  case llInvalid286 => exact State.onSymbol_runsWhereDue fun _ => ⟨_, rfl⟩
  case llInvalid287 => exact State.onSymbol_runsWhereDue fun _ => ⟨_, rfl⟩
  case distInvalid30 => exact State.onDistance_runsWhereDue fun _ _ _ _ => ⟨_, rfl⟩
  case distInvalid31 => exact State.onDistance_runsWhereDue fun _ _ _ _ => ⟨_, rfl⟩
  case makeAvailable n => exact absurd rfl hi
  case copyOut k => exact absurd rfl hi
  case read m => exact absurd rfl hi
  case reset => exact absurd rfl hi
  all_goals first
    | exact lengthCode_runsWhereDue _ _ s
    | exact distanceCode_runsWhereDue _ _ s

/-- Settles O33: `exec_runsWhereDue`. -/
theorem elementsRunWhereDue : Obligations.ElementsRunWhereDue := fun s _ hi => exec_runsWhereDue s hi

end Sys2Proof.Machine
end

section
/-! PROOF. O38 to O45: what each host command does, and which of them a step runs (R300 to R310). -/

namespace Sys2Proof.Machine

/-! ### Taking a command -/

theorem State.onIdle_at {s : State} (hc : s.cur = .idle) (r : Result) : s.onIdle r = r := by
  simp [State.onIdle, hc]

theorem State.onIdle_of_running {s : State} (hc : s.cur ≠ .idle) (r : Result) :
    s.onIdle r = .refused .commandWhileRunning := by
  unfold State.onIdle
  split
  · next hi => exact absurd hi hc
  · rfl

/-- A command word is one of the four commands, and RESET is the code 3 (R116). -/
theorem decodeCmd_cases (w : CmdWord) :
    (∃ n, decodeCmd w = .makeAvailable n) ∨ (∃ k, decodeCmd w = .copyOut k) ∨ (∃ m, decodeCmd w = .read m) ∨
      (decodeCmd w = .reset ∧ w.code = 3) := by
  have hcode : ∀ c : BitVec 2, c = 0 ∨ c = 1 ∨ c = 2 ∨ c = 3 := by decide
  rcases hcode w.code with h | h | h | h
  · exact .inl ⟨w.operand, by simp [decodeCmd, h]⟩
  · exact .inr <| .inl ⟨w.operand, by simp [decodeCmd, h]⟩
  · exact .inr <| .inr <| .inl ⟨w.operand, by simp [decodeCmd, h]⟩
  · exact .inr <| .inr <| .inr ⟨by simp [decodeCmd, h], h⟩

theorem step_of_no_command {s : State} (hc : s.cur = .idle) (hq : s.cmds = []) : step s = .next s := by
  rw [step_of_idle hc, takeCommand, hq]

theorem step_of_command {s : State} {w : CmdWord} {rest : List CmdWord} (hc : s.cur = .idle) (hq : s.cmds = w :: rest) :
    step s = exec (decodeCmd w) { s with cmds := rest } := by
  rw [step_of_idle hc, takeCommand, hq]

/-- Settles O45: the two cases of `takeCommand`. -/
theorem stepTakesCommand : Obligations.StepTakesCommand :=
  fun _ hc => ⟨step_of_no_command hc, fun _ _ => step_of_command hc⟩

/-- Settles O43: each of the four commands is taken only where none runs. -/
theorem commandWhileRunning : Obligations.CommandWhileRunning := by
  intro s w hc
  rcases decodeCmd_cases w with ⟨_, h⟩ | ⟨_, h⟩ | ⟨_, h⟩ | ⟨h, -⟩ <;>
    (rw [h]; exact State.onIdle_of_running hc _)

/-- Settles O44: the state behind the element is `State.advance`. -/
theorem stepRunsElement : Obligations.StepRunsElement := by
  intro s ctx i c hdue hctx hdec
  rw [step_of_due hdue, decoderStep_of_ctx hctx, element, hdec]
  exact congrArg (exec i) (State.advance_eq c.pos s)

/-- Settles O42: a reset sets every field but those the statement keeps. -/
theorem reset : Obligations.Reset :=
  fun _ hc => ⟨State.onIdle_at hc _, State.fetched_of_none, fun _ => State.fetched_of_some⟩

/-! ### `MAKE_AVAILABLE` -/

theorem isComplete_iff {s : State} : s.isComplete = true ↔ s.blk = .complete := by
  cases hb : s.blk <;> simp [State.isComplete, hb]

theorem exec_makeAvailable {s : State} {n : Nat} (hc : s.cur = .idle) (hn : n ≤ Config.cap) :
    exec (.makeAvailable n) s = .next (serveMakeAvail n s) :=
  (State.onIdle_at hc _).trans (if_neg (Nat.not_lt.2 hn))

theorem exec_makeAvailable_refused {s : State} {n : Nat} (hc : s.cur = .idle) (hn : Config.cap < n) :
    exec (.makeAvailable n) s = .refused .requestAboveCapacity :=
  (State.onIdle_at hc _).trans (if_pos hn)

theorem serveMakeAvail_of_le {s : State} {n : Nat} (h : n ≤ s.window.avail) :
    serveMakeAvail n s = s.respond (.okCount s.window.avail) := if_pos h

theorem serveMakeAvail_of_err {s : State} {n : Nat} {k : ErrorKind} (h : s.window.avail < n) (he : s.err = some k) :
    serveMakeAvail n s = s.respond (.err k) := by
  rw [serveMakeAvail, if_neg (Nat.not_le.2 h), he]

theorem serveMakeAvail_of_complete {s : State} {n : Nat} (h : s.window.avail < n) (he : s.err = none)
    (hb : s.blk = .complete) : serveMakeAvail n s = s.respond (.okCount s.window.avail) := by
  rw [serveMakeAvail, if_neg (Nat.not_le.2 h), he]
  exact if_pos (isComplete_iff.2 hb)

theorem serveMakeAvail_goes_on {s : State} {n : Nat} (h : s.window.avail < n) (he : s.err = none)
    (hb : s.blk ≠ .complete) : serveMakeAvail n s = { s with cur := .makeAvail n } := by
  rw [serveMakeAvail, if_neg (Nat.not_le.2 h), he]
  exact if_neg fun hcomplete => hb (isComplete_iff.1 hcomplete)

/-- Settles O38: the tests of R301 in their order. -/
theorem makeAvailable : Obligations.MakeAvailable := by
  intro s n hc
  refine ⟨exec_makeAvailable_refused hc, fun hn => ?_⟩
  rw [exec_makeAvailable hc hn]
  exact ⟨fun h => congrArg _ (serveMakeAvail_of_le h), fun h k he => congrArg _ (serveMakeAvail_of_err h he),
    fun h he hb => congrArg _ (serveMakeAvail_of_complete h he hb),
    fun h he hb => congrArg _ (serveMakeAvail_goes_on h he hb)⟩

/-- Settles O39: where bytes are wanted and no error is latched, a step is not due only at the end of the stream. -/
theorem makeAvailableResponds : Obligations.MakeAvailableResponds := by
  intro s n hc hnot
  have hstep : step s = .next (serveMakeAvail n s) := by
    rw [step_of_not_due (by simp [hc]) hnot, serve, hc]
  rw [hstep]
  refine ⟨fun h => congrArg _ (serveMakeAvail_of_le h), fun h k he => congrArg _ (serveMakeAvail_of_err h he),
    fun h he => ?_⟩
  have hdem : s.demanded = true := State.demanded_iff.2 ⟨he, by simpa [State.target, hc] using h⟩
  have hblk : s.blk = .complete := isComplete_iff.1 (by simpa [State.stepDue, hdem] using hnot)
  exact ⟨hblk, congrArg _ (serveMakeAvail_of_complete h he hblk)⟩

/-! ### `COPY_OUT` -/

theorem exec_copyOut_refused {s : State} {k : Nat} (hc : s.cur = .idle) (hk : s.window.avail < k) :
    exec (.copyOut k) s = .refused .copyOutAboveAvailable :=
  (State.onIdle_at hc _).trans (if_pos hk)

theorem exec_copyOut {s : State} {k : Nat} (hw : s.window.inv Config.cap = true) (hc : s.cur = .idle)
    (hk : k ≤ s.window.avail) :
    ∃ bs, bs.length = k ∧ s.window.Oldest Config.cap bs ∧
      exec (.copyOut k) s = .next { s with
        window := { s.window with avail := s.window.avail - k }
        out := s.out ++ bs
        resp := s.resp ++ [.bytes bs] } := by
  obtain ⟨bs, hcopy, hlen, hold⟩ := Window.copyOut_exists hw hk
  refine ⟨bs, hlen, hold, ?_⟩
  rw [exec, execCopyOut, State.onIdle_at hc, if_neg (Nat.not_lt.2 hk), hcopy]
  simp only [State.respond, hc]

/-- Settles O40: `exec_copyOut`, which asks nothing of `ERR`. -/
theorem copyOut : Obligations.CopyOut :=
  fun _ _ h hc => ⟨exec_copyOut_refused hc, exec_copyOut (State.inv_iff.1 h).1 hc⟩

/-! ### `READ` -/

theorem readResponse_eq (m : Nat) (got : List Byte) (s : State) : readResponse m got s.err = s.readAnswer m got := by
  cases got with
  | cons b bs => simp [readResponse, State.readAnswer]
  | nil =>
    by_cases hm : m = 0
    · simp [readResponse, State.readAnswer, hm]
    · cases he : s.err <;> simp [readResponse, State.readAnswer, hm, he]

/-- Whether a pass of the loop waits for its chunk of `c` bytes (R305). -/
theorem readServed_eq_false_iff {c : Nat} {s : State} :
    (decide (c ≤ s.window.avail) || s.errLatched || s.isComplete) = false ↔
      s.window.avail < c ∧ s.err = none ∧ s.isComplete = false := by
  simp [State.errLatched, and_assoc]

/-- One pass of the loop: it responds, waits for its chunk, or copies out, which never meets a cell without a value (R168). -/
theorem serveRead_readPass {s : State} (hw : s.window.inv Config.cap = true) (m : Nat) (got : List Byte) :
    ReadPass m got s (serveRead m got s) := by
  refine ⟨fun hm => ?_, fun hm => ⟨fun hwait => ?_, fun hserve => ?_⟩⟩
  · rw [serveRead, if_pos hm, readResponse_eq]
  · rw [serveRead, if_neg (Nat.not_le.2 hm)]
    simp only [readServed_eq_false_iff.2 hwait, Bool.false_eq_true, if_false]
  · obtain ⟨bs, hcopy, hlen, hold⟩ :=
      Window.copyOut_exists hw (Nat.min_le_left s.window.avail (min (m - got.length) Config.cap))
    have hdone : m ≤ (got ++ bs).length ↔ got.length + bs.length = m := by rw [List.length_append]; omega
    rw [serveRead, if_neg (Nat.not_le.2 hm)]
    simp only [Bool.of_not_eq_false (mt readServed_eq_false_iff.1 hserve), if_true, hcopy, Bool.or_eq_true,
      decide_eq_true_eq, hdone]
    exact ⟨bs, _, hlen, hold, rfl, fun hend => by rw [if_pos hend, readResponse_eq, hlen],
      fun hmore => by rw [if_neg hmore, hlen]⟩

/-- A pass of the loop never stops. -/
theorem ReadPass.exists_next {m : Nat} {got : List Byte} {s : State} {r : Result} (h : ReadPass m got s r) : ∃ t, r = .next t := by
  obtain ⟨hover, hloop⟩ := h
  by_cases hm : m ≤ got.length
  · exact ⟨_, hover hm⟩
  · obtain ⟨hwait, hserve⟩ := hloop (Nat.lt_of_not_le hm)
    by_cases hcond : s.window.avail < min (m - got.length) Config.cap ∧ s.err = none ∧ s.isComplete = false
    · exact ⟨_, hwait hcond⟩
    · obtain ⟨bs, t, -, -, -, hend, hmore⟩ := hserve hcond
      by_cases hlast : bs.length < min (m - got.length) Config.cap ∨ got.length + bs.length = m
      · exact ⟨_, hend hlast⟩
      · exact ⟨_, hmore hlast⟩

/-- Settles O41: taken or running, READ is a pass of `serveRead`. -/
theorem readLoop : Obligations.ReadLoop := by
  intro s m h
  obtain ⟨hw, -, -, -⟩ := State.inv_iff.1 h
  refine ⟨fun hc => ?_, fun got hc hnot => ?_⟩
  · have hpass := serveRead_readPass hw m []
    rw [show exec (.read m) s = serveRead m [] s from State.onIdle_at hc _]
    exact ⟨hpass.exists_next, hpass⟩
  · have hpass := serveRead_readPass hw m got
    rw [step_of_not_due (by simp [hc]) hnot, serve, hc]
    exact ⟨hpass.exists_next, hpass⟩

end Sys2Proof.Machine
end

section
/-! PROOF. O54: a decoder step decodes an element that is due or reads none, and a command stops only where R310 refuses it. -/

namespace Sys2Proof.Machine

/-! ### One decoder step -/

theorem litlenRow_isSome {sym : Nat} (e : Nat) (h : sym < Config.nLitlen) : ∃ i, litlenRow sym e = some i := by
  unfold litlenRow
  split
  · exact ⟨_, rfl⟩
  · split
    · exact ⟨_, rfl⟩
    · split
      · have hlt : sym - 257 < lenRows.length := by simp [lenRows, lenRowsLow, lenRowsHigh]; omega
        exact ⟨_, by rw [List.getElem?_eq_getElem hlt]; rfl⟩
      · split
        · exact ⟨_, rfl⟩
        · exact ⟨_, if_pos (by simp only [Config.nLitlen] at h; omega)⟩

/-- A tree over the literal/length alphabet leads to no symbol without a row (R102; entry 15). -/
theorem decode_litlen_ne_noRow {t : Tree} (ht : t.symsBelow Config.nLitlen = true) (c c' : Cursor) (sym : Nat) :
    decode (.litlen t) c ≠ .noRow sym c' := by
  intro h
  change decodeSymbol t lengthExtraOf litlenRow c = _ at h
  unfold decodeSymbol at h
  split at h
  · cases h
  · next sym' c1 hsym =>
    split at h
    · cases h
    · next e c2 _ =>
      obtain ⟨i, hrow⟩ := litlenRow_isSome e (decodeSym_lt ht hsym)
      rw [hrow] at h
      cases h

theorem decode_header_ne_noRow (c c' : Cursor) (sym : Nat) : decode .header c ≠ .noRow sym c' := by
  rw [header_eq]
  cases headerReader c <;> simp [toDecoded]

/-- Under the invariant the literal/length tree that is read from has its symbols in its alphabet (R33). -/
theorem symsBelow_of_ctx {s : State} {t : Tree} (h : s.Inv) (hdem : s.demanded = true) (hctx : s.ctx = some (.litlen t)) :
    t.symsBelow Config.nLitlen = true := by
  obtain ⟨-, -, hblk⟩ := h.of_demanded hdem
  unfold State.ctx at hctx
  split at hctx
  · split at hctx <;> cases hctx
  · cases hctx
  · cases hctx
  · next hb =>
    cases hctx
    have hfits := (blockInv_huffman_fits (hb ▸ hblk)).1
    rw [Tree.fits, Bool.and_eq_true] at hfits
    exact hfits.1
  · cases hctx

/-- The element that is due, where one is, runs (R303). -/
theorem element_exists_next {s : State} {ctx : Ctx} (h : s.Inv) (hdue : s.stepDue = true) (hctx : s.ctx = some ctx) :
    ∃ t, element ctx s = .next t := by
  unfold element
  split
  · next i c hdec =>
    refine (exec_runsWhereDue _ (decode_not_command hdec)).1 ?_
    rw [expects_advance, decode_format hdec]
    exact expects_of_ctx h hdue hctx
  · exact ⟨_, rfl⟩
  · next sym c hdec =>
    cases ctx with
    | header => exact absurd hdec (decode_header_ne_noRow _ _ _)
    | clsym t prev => exact ⟨_, rfl⟩
    | litlen t => exact absurd hdec (decode_litlen_ne_noRow (symsBelow_of_ctx h (due_facts hdue).1 hctx) _ _ _)
    | dist t => exact ⟨_, rfl⟩

theorem pendingCopy_exists_next {s : State} {lt dt : Tree} {p : Nat} {o : Option Nat} {f : Bool} (h : s.Inv)
    (hdem : s.demanded = true) (hb : s.blk = .huffman lt dt (p + 1) o f) :
    ∃ t, pendingCopy lt dt (p + 1) o f s = .next t := by
  cases o with
  | none =>
    obtain ⟨-, -, hblk⟩ := h.of_demanded hdem
    rw [hb] at hblk
    obtain ⟨-, -, hzero⟩ := blockInv_huffman_none_iff.1 hblk
    cases hzero
  | some d =>
    obtain ⟨hd, w, hrun, -⟩ := pendingCopy_run_exists h hdem hb
    simp only [pendingCopy, if_neg hd, hrun]
    exact ⟨_, rfl⟩

/-- A due step without an element reads none: the end of a dynamic header, stored data, a pending copy (R190, R201, R202, R204). -/
theorem decoderStep_exists_next {s : State} (h : s.Inv) (hdue : s.stepDue = true) : ∃ t, decoderStep s = .next t := by
  obtain ⟨hdem, hopen⟩ := due_facts hdue
  have hin := (State.inv_iff.1 h).2.2.1
  cases hctx : s.ctx with
  | some ctx => rw [decoderStep_of_ctx hctx]; exact element_exists_next h hdue hctx
  | none =>
    unfold State.ctx at hctx
    unfold decoderStep
    cases hn : s.inStep with
    | dynHdr d =>
      simp only [hn] at hctx ⊢
      split
      · next hl => simp [hl] at hctx
      · exact ⟨_, rfl⟩
    | awaitDist len =>
      cases hb : s.blk <;> simp [State.inStepInv, hn, hb] at hin hctx
    | nothing =>
      cases hb : s.blk with
      | header => simp [hn, hb] at hctx
      | uncompressed r f => cases r <;> exact ⟨_, rfl⟩
      | huffman lt dt p o f =>
        cases p with
        | zero => simp [hn, hb] at hctx
        | succ p => exact pendingCopy_exists_next h hdem hb
      | complete => rw [isComplete_iff.2 hb] at hopen; cases hopen

/-! ### Commands and the step -/

/-- What a host command answers where none runs: a next state, or one of the two refusals of R310. -/
def TakenOrRefused (w : CmdWord) (s : State) (r : Result) : Prop :=
  (∃ t, r = .next t) ∨
    (∃ n, decodeCmd w = .makeAvailable n ∧ Config.cap < n ∧ r = .refused .requestAboveCapacity) ∨
    (∃ k, decodeCmd w = .copyOut k ∧ s.window.avail < k ∧ r = .refused .copyOutAboveAvailable)

theorem exec_takenOrRefused {s : State} (hw : s.window.inv Config.cap = true) (hc : s.cur = .idle) (w : CmdWord) :
    TakenOrRefused w s (exec (decodeCmd w) s) := by
  rcases decodeCmd_cases w with ⟨n, hd⟩ | ⟨k, hd⟩ | ⟨m, hd⟩ | ⟨hd, -⟩
  · rcases Nat.lt_or_ge Config.cap n with hn | hn
    · exact .inr <| .inl ⟨n, hd, hn, by rw [hd, exec_makeAvailable_refused hc hn]⟩
    · exact .inl ⟨_, by rw [hd, exec_makeAvailable hc hn]⟩
  · rcases Nat.lt_or_ge s.window.avail k with hk | hk
    · exact .inr <| .inr ⟨k, hd, hk, by rw [hd, exec_copyOut_refused hc hk]⟩
    · obtain ⟨bs, -, -, hnext⟩ := exec_copyOut hw hc hk
      exact .inl ⟨_, hd ▸ hnext⟩
  · rw [hd, TakenOrRefused, show exec (.read m) s = serveRead m [] s from State.onIdle_at hc _]
    exact .inl (serveRead_readPass hw m []).exists_next
  · exact .inl ⟨s.resetStep, by rw [hd]; exact State.onIdle_at hc _⟩

theorem serve_exists_next {s : State} (hw : s.window.inv Config.cap = true) : ∃ t, serve s = .next t := by
  unfold serve
  split
  · exact ⟨_, rfl⟩
  · exact ⟨_, rfl⟩
  · exact (serveRead_readPass hw _ _).exists_next

/-- Every step from a state with the invariant has a next state, but for a command that R310 refuses. -/
theorem step_next_or_refused {s : State} (h : s.Inv) :
    (∃ t, step s = .next t) ∨
      (s.cur = .idle ∧ ∃ w rest, s.cmds = w :: rest ∧ TakenOrRefused w s (step s)) := by
  obtain ⟨hw, -, -, -⟩ := State.inv_iff.1 h
  by_cases hc : s.cur = .idle
  · cases hq : s.cmds with
    | nil => exact .inl ⟨s, step_of_no_command hc hq⟩
    | cons w rest =>
      rw [step_of_command hc hq]
      exact .inr ⟨hc, w, rest, rfl, exec_takenOrRefused (s := { s with cmds := rest }) hw hc w⟩
  · cases hdue : s.stepDue with
    | true => rw [step_of_due hdue]; exact .inl (decoderStep_exists_next h hdue)
    | false => rw [step_of_not_due hc hdue]; exact .inl (serve_exists_next hw)

/-- Settles O54: `step_next_or_refused`, read as what does not happen. -/
theorem noStopFromInv : Obligations.NoStopFromInv := by
  intro s h
  rcases step_next_or_refused h with
    ⟨t, ht⟩ | ⟨hc, w, rest, hq, ⟨t, ht⟩ | ⟨n, hd, hn, hr⟩ | ⟨k, hd, hk, hr⟩⟩
  · simp [ht]
  · simp [ht]
  · refine ⟨by simp [hr], fun r hstep => ⟨hc, w, rest, hq, .inl ⟨n, hd, hn, ?_⟩⟩⟩
    rw [hr] at hstep; cases hstep; rfl
  · refine ⟨by simp [hr], fun r hstep => ⟨hc, w, rest, hq, .inr ⟨k, hd, hk, ?_⟩⟩⟩
    rw [hr] at hstep; cases hstep; rfl

end Sys2Proof.Machine
end

section
/-! PROOF. O34 to O37: what a raise does, which steps raise, and what a step does while an error is latched (R335 to R342). -/

namespace Sys2Proof.Machine

/-! ### Raising -/

/-- Settles O34: the lemmas about `State.raise`, field by field. -/
theorem errorEntry : Obligations.ErrorEntry := fun s k =>
  ⟨State.raise_err k s, State.raise_window k s, State.raise_out k s, State.raise_src k s, State.raise_cmds k s,
    State.raise_params k s, State.raise_inStep k s, State.raise_fetched k s, fun _ => State.raise_makeAvail,
    fun _ _ => State.raise_read⟩

/-- A step that latches an error is a decoder step, and it is a raise. -/
theorem step_raises {s t : State} {k : ErrorKind} (hstep : step s = .next t) (hs : s.err = none) (ht : t.err = some k) :
    ∃ p c, t = { State.raise k { s with bitpos := p } with ckpt := c } := by
  have not_same : t.err ≠ s.err := by simp [hs, ht]
  cases step_effect hstep with
  | idle _ _ => exact absurd rfl not_same
  | reset _ _ _ _ _ => cases ht
  | command _ _ _ _ _ _ he => exact absurd he.keeps.err not_same
  | serve _ _ _ he => exact absurd he.keeps.err not_same
  | decoder _ _ he =>
    rcases he.err_or_raise with hsame | ⟨k', p, c, -, rfl⟩
    · exact absurd hsame not_same
    · obtain rfl : k' = k := by simpa using ht
      exact ⟨p, c, rfl⟩

/-- Settles O35: `step_raises`, and what a raise leaves and answers. -/
theorem errorsPrecise : Obligations.ErrorsPrecise := by
  intro s t k hstep hs ht
  obtain ⟨p, c, rfl⟩ := step_raises hstep hs ht
  exact ⟨State.raise_window k _, State.raise_out k _, State.raise_src k _,
    fun _ hc => State.raise_makeAvail (s := { s with bitpos := p }) hc,
    fun _ _ hc => State.raise_read (s := { s with bitpos := p }) hc⟩

/-! ### With an error latched -/

theorem stepDue_of_err {s : State} {k : ErrorKind} (he : s.err = some k) : s.stepDue = false := by
  simp [State.stepDue, State.demanded, State.errLatched, he]

theorem ServeEffect.idle {s : State} (hc : s.cur = .idle) : ServeEffect s s :=
  ⟨[], [], .idle, by simp [← hc], by simp, by simp, .inl rfl⟩

theorem ServeEffect.fetched {s t : State} (h : ServeEffect s t) : t.fetched = s.fetched := by
  obtain ⟨bs, rs, c, rfl, -⟩ := h.ex
  rfl

theorem ServeEffect.avail_le {s t : State} (h : ServeEffect s t) : t.window.avail ≤ s.window.avail := by
  obtain ⟨bs, rs, c, rfl, -⟩ := h.ex
  exact Nat.sub_le _ _

/-- With an error latched a step resets or only serves (R341, R342). -/
theorem step_of_err {s t : State} {k : ErrorKind} (he : s.err = some k) (hstep : step s = .next t) :
    (s.takesReset = true ∧ t.err = none) ∨ (s.takesReset = false ∧ ∃ rest, ServeEffect { s with cmds := rest } t) := by
  cases step_effect hstep with
  | idle hc hq => exact .inr ⟨by simp [State.takesReset, hc, hq], s.cmds, .idle hc⟩
  | reset w rest hc hq h3 => exact .inl ⟨(takesReset_iff hc hq).2 h3, rfl⟩
  | command w rest t hc hq h3 heff =>
    exact .inr ⟨Bool.eq_false_iff.2 fun hr => h3 ((takesReset_iff hc hq).1 hr), rest, heff⟩
  | serve t hc _ heff => exact .inr ⟨Bool.eq_false_iff.2 fun hr => hc (cur_of_takesReset hr), s.cmds, heff⟩
  | decoder t hdue _ => simp [stepDue_of_err he] at hdue

/-- Settles O36: `step_of_err`, and what serving leaves. -/
theorem errorSticky : Obligations.ErrorSticky := by
  intro s t k he hstep
  rcases step_of_err he hstep with ⟨hreset, hnone⟩ | ⟨hreset, rest, heff⟩
  · exact ⟨fun _ => hnone, fun hnot => by simp [hreset] at hnot⟩
  · obtain ⟨-, herr, hpos, hsrc, hcells, hwritten, hwpos⟩ := heff.keeps
    exact ⟨fun hr => by simp [hreset] at hr,
      fun _ => ⟨herr.trans he, hpos, hsrc, heff.fetched, hcells, hwritten, hwpos, heff.avail_le⟩⟩

/-! ### `STATE` and `bitpos` with an error latched -/

/-- `s` with any `STATE`, payload and `bitpos`. -/
def State.withBlock (b : BlockState) (p : Nat) (s : State) : State := { s with blk := b, bitpos := p }

/-- The same answer, with any `STATE`, payload and `bitpos` in the next state. -/
def withBlockNext (b : BlockState) (p : Nat) : Result → Result
  | .next t => .next (t.withBlock b p)
  | .fault f => .fault f
  | .refused r => .refused r

@[simp] theorem State.withBlock_err (b : BlockState) (p : Nat) (s : State) : (s.withBlock b p).err = s.err := rfl
@[simp] theorem State.withBlock_window (b : BlockState) (p : Nat) (s : State) : (s.withBlock b p).window = s.window := rfl
@[simp] theorem State.withBlock_out (b : BlockState) (p : Nat) (s : State) : (s.withBlock b p).out = s.out := rfl
@[simp] theorem State.withBlock_cur (b : BlockState) (p : Nat) (s : State) : (s.withBlock b p).cur = s.cur := rfl

/-- A reset out of an error counts from what was fetched when it was raised (entry 5). -/
theorem State.withBlock_resetStep {s : State} {k : ErrorKind} (he : s.err = some k) (b : BlockState) (p : Nat) :
    (s.withBlock b p).resetStep = s.resetStep := by
  have hfetched : (s.withBlock b p).fetched = s.fetched := by
    rw [State.fetched_of_some he, State.fetched_of_some (s := s.withBlock b p) he]
    rfl
  unfold State.resetStep
  rw [hfetched]
  rfl

/-- The latched error answers before the end of the stream is asked for (R301). -/
theorem serveMakeAvail_withBlock {s : State} {k : ErrorKind} (he : s.err = some k) (b : BlockState) (p n : Nat) :
    serveMakeAvail n (s.withBlock b p) = (serveMakeAvail n s).withBlock b p := by
  rcases Nat.lt_or_ge s.window.avail n with h | h
  · rw [serveMakeAvail_of_err h he, serveMakeAvail_of_err (s := s.withBlock b p) h he]
    rfl
  · rw [serveMakeAvail_of_le h, serveMakeAvail_of_le (s := s.withBlock b p) h]
    rfl

/-- A READ does not wait while an error is latched, whatever `STATE` is (R305). -/
theorem serveRead_withBlock {s : State} {k : ErrorKind} (he : s.err = some k) (b : BlockState) (p m : Nat) (got : List Byte) :
    serveRead m got (s.withBlock b p) = withBlockNext b p (serveRead m got s) := by
  unfold serveRead
  simp only [State.errLatched, State.withBlock_err, State.withBlock_window, State.withBlock_out, he,
    Option.isSome_some, Bool.or_true, Bool.true_or, if_true]
  split
  · rfl
  · split
    · rfl
    · split
      · rfl
      · rfl

theorem serve_withBlock {s : State} {k : ErrorKind} (he : s.err = some k) (b : BlockState) (p : Nat) :
    serve (s.withBlock b p) = withBlockNext b p (serve s) := by
  unfold serve
  rw [State.withBlock_cur]
  split
  · rfl
  · exact congrArg _ (serveMakeAvail_withBlock he b p _)
  · exact serveRead_withBlock he b p _ _

theorem State.onIdle_withBlock {s : State} {b : BlockState} {p : Nat} {r r' : Result} (h : r' = withBlockNext b p r) :
    (s.withBlock b p).onIdle r' = withBlockNext b p (s.onIdle r) := by
  unfold State.onIdle
  rw [State.withBlock_cur]
  split
  · exact h
  · rfl

/-- A command that is no reset, given with an error latched. -/
theorem exec_withBlock {s : State} {k : ErrorKind} {w : CmdWord} (he : s.err = some k) (h3 : w.code ≠ 3)
    (b : BlockState) (p : Nat) : exec (decodeCmd w) (s.withBlock b p) = withBlockNext b p (exec (decodeCmd w) s) := by
  rcases decodeCmd_cases w with ⟨n, hd⟩ | ⟨j, hd⟩ | ⟨m, hd⟩ | ⟨-, hcode⟩
  · rw [hd]
    refine State.onIdle_withBlock ?_
    split
    · rfl
    · exact congrArg _ (serveMakeAvail_withBlock he b p n)
  · rw [hd]
    refine State.onIdle_withBlock ?_
    rw [State.withBlock_window]
    split
    · rfl
    · split
      · rfl
      · rfl
  · rw [hd]
    exact State.onIdle_withBlock (serveRead_withBlock he b p m [])
  · exact absurd hcode h3

theorem step_of_takesReset {s : State} (h : s.takesReset = true) :
    step s = .next (State.resetStep { s with cmds := s.cmds.tail }) := by
  have hc := cur_of_takesReset h
  cases hq : s.cmds with
  | nil => simp [State.takesReset, hq] at h
  | cons w rest =>
    have hd : decodeCmd w = .reset := by simp [decodeCmd, (takesReset_iff hc hq).1 h]
    rw [step_of_command hc hq, hd]
    exact State.onIdle_at hc _

/-- A step that is no reset carries any `STATE` and `bitpos` along. -/
theorem step_withBlock {s : State} {k : ErrorKind} (he : s.err = some k) (hreset : s.takesReset = false)
    (b : BlockState) (p : Nat) : step (s.withBlock b p) = withBlockNext b p (step s) := by
  by_cases hc : s.cur = .idle
  · cases hq : s.cmds with
    | nil => rw [step_of_no_command hc hq, step_of_no_command (s := s.withBlock b p) hc hq]; rfl
    | cons w rest =>
      have h3 : w.code ≠ 3 := fun h => by simp [(takesReset_iff hc hq).2 h] at hreset
      rw [step_of_command hc hq, step_of_command (s := s.withBlock b p) hc hq]
      exact exec_withBlock (s := { s with cmds := rest }) he h3 b p
  · rw [step_of_not_due hc (stepDue_of_err he), step_of_not_due (s := s.withBlock b p) hc (stepDue_of_err (k := k) he)]
    exact serve_withBlock he b p

/-- Settles O37: a reset by `State.withBlock_resetStep`, every other step by `step_withBlock`. -/
theorem errorStateUnread : Obligations.ErrorStateUnread := by
  intro s b p hlatched
  obtain ⟨k, he⟩ := Option.isSome_iff_exists.1 hlatched
  refine ⟨fun hreset => ?_, fun hreset => step_withBlock he hreset b p⟩
  rw [step_of_takesReset hreset]
  refine (step_of_takesReset (s := s.withBlock b p) hreset).trans ?_
  exact congrArg _ (State.withBlock_resetStep (s := { s with cmds := s.cmds.tail }) he b p)

end Sys2Proof.Machine
end
